-- ==== Sys2Proof/Word.lean ====
section
/-! DEFINITION. The word types of the hardware and the two shapes its banks have. -/

namespace Sys2Proof

/-- A command word and a response word: 32 bits (R60, R90). -/
abbrev Word := BitVec 32

/-- A byte of text (R192), and the `f8` field of a command word (R90). -/
abbrev Byte := BitVec 8

/-- The `f16` field of a command word (R90). -/
abbrev Half := BitVec 16

/-- A 3×3 matrix `[[a,b,c],[d,e,f],[g,h,i]]`, rows first; as a bank its indices 0..8 are
`a, b, c, d, e, f, g, h, i` (R15). -/
structure Mat3 (α : Type) where
  a : α
  b : α
  c : α
  d : α
  e : α
  f : α
  g : α
  h : α
  i : α
  deriving DecidableEq, Repr

/-- A vector bank: `v[j]` stands at index j (R15). -/
structure Vec3 (α : Type) where
  v0 : α
  v1 : α
  v2 : α
  deriving DecidableEq, Repr

end Sys2Proof
end

