-- ==== Sys2Proof/Syntax.lean ====
section
/-! DEFINITION. The sixteen commands of HC26 v1 (R94), one constructor per row of the opcode map. -/

namespace Sys2Proof

/-- A command with the fields of its format (R91). A register number stays the 8-bit number the
word carries, because an unmapped number is still a WR or an RD (R96). -/
inductive Instr where
  /-- NOP, R120. -/
  | nop
  /-- RST, R121. -/
  | rst
  /-- WR rn, imm16, R122. -/
  | wr (rn : Byte) (imm : Half)
  /-- RD rn, R123. -/
  | rd (rn : Byte)
  /-- WRB addr, byte, R124: the address first, as the assembler writes it (R98). -/
  | wrb (addr : Half) (byte : Byte)
  /-- RDB addr, R125. -/
  | rdb (addr : Half)
  /-- MOD, R142. -/
  | mod
  /-- XGCD, R144. -/
  | xgcd
  /-- MODINV, R146. -/
  | modinv
  /-- DET, R160. -/
  | det
  /-- VAL, R163. -/
  | val
  /-- ADJ, R170. -/
  | adj
  /-- MINV, R172. -/
  | minv
  /-- MVM bank, R180: `f8`, 0 for K and 1 for KI. -/
  | mvm (bank : Byte)
  /-- ENC, R200. -/
  | enc
  /-- DEC, R201. -/
  | dec
  deriving DecidableEq, Repr

end Sys2Proof
end

