-- ==== Sys2Proof/WellFormed.lean ====
section
/-! DEFINITION. Which terms of `Instr` some command word encodes (R91, R96). -/

namespace Sys2Proof

/-- The one check: the bank select of MVM is 0x00 or 0x01 (R91 format S, R96 (e)). Every other
operand of the command set may hold every value of its field; what a command does with an
unmapped register number or an address outside the windows is its own rule's (R95). -/
def Instr.wellFormed : Instr → Bool
  | .nop => true
  | .rst => true
  | .wr _ _ => true
  | .rd _ => true
  | .wrb _ _ => true
  | .rdb _ => true
  | .mod => true
  | .xgcd => true
  | .modinv => true
  | .det => true
  | .val => true
  | .adj => true
  | .minv => true
  | .mvm bank => bank == 0#8 || bank == 1#8
  | .enc => true
  | .dec => true

end Sys2Proof
end

