-- ==== Sys2Proof/Decode.lean ====
section
/-! DEFINITION. The command word: its fields, the decoder (total, every refused word by the name of
what is wrong with it), the encoder, and the opcode map of R94 as a table. -/

namespace Sys2Proof

/-- Why a word is illegal: the clauses (a) to (e) of R96. The core executes every such word by
R127; none of them stops it. -/
inductive DecodeError where
  /-- R96 (a): `op` is none of the sixteen opcodes. -/
  | unassignedOpcode
  /-- R96 (b), (d): `f8` of a format that does not use it is not zero. -/
  | nonzeroF8
  /-- R96 (b), (c): `f16` of a format that does not use it is not zero. -/
  | nonzeroF16
  /-- R96 (e): the bank select of MVM is neither 0x00 nor 0x01. -/
  | badBank
  deriving DecidableEq, Repr

/-- Bits 31:24, the opcode (R90). -/
def opField (w : Word) : Byte := w.extractLsb' 24 8

/-- Bits 23:16 (R90). -/
def f8Field (w : Word) : Byte := w.extractLsb' 16 8

/-- Bits 15:0 (R90). -/
def f16Field (w : Word) : Half := w.extractLsb' 0 16

/-- The word `{op, f8, f16}` (R10, R90). -/
def packWord (op : Byte) (f8 : Byte) (f16 : Half) : Word := op ++ f8 ++ f16

/-- A format that does not use `f8`: it must be 0x00 (R91). -/
def needF8Zero (w : Word) (k : Except DecodeError Instr) : Except DecodeError Instr :=
  if f8Field w = 0#8 then k else .error .nonzeroF8

/-- A format that does not use `f16`: it must be 0x0000 (R91). -/
def needF16Zero (w : Word) (k : Except DecodeError Instr) : Except DecodeError Instr :=
  if f16Field w = 0#16 then k else .error .nonzeroF16

/-- Format N: no operand (R91). -/
def decodeN (w : Word) (i : Instr) : Except DecodeError Instr :=
  needF8Zero w (needF16Zero w (.ok i))

/-- Format S: a bank select, 0x00 or 0x01 (R91). -/
def decodeS (w : Word) : Except DecodeError Instr :=
  if f8Field w = 0#8 ∨ f8Field w = 1#8 then needF16Zero w (.ok (.mvm (f8Field w)))
  else .error .badBank

/-- The decoder of R95: the opcode selects the command (R94), the format says which fields must be
zero (R91), and a word that fits no row is illegal (R96). -/
def decode (w : Word) : Except DecodeError Instr :=
  match (opField w).toNat with
  | 0x01 => decodeN w .nop
  | 0x02 => decodeN w .rst
  | 0x10 => .ok (.wr (f8Field w) (f16Field w))
  | 0x11 => needF16Zero w (.ok (.rd (f8Field w)))
  | 0x12 => .ok (.wrb (f16Field w) (f8Field w))
  | 0x13 => needF8Zero w (.ok (.rdb (f16Field w)))
  | 0x20 => decodeN w .mod
  | 0x21 => decodeN w .xgcd
  | 0x22 => decodeN w .modinv
  | 0x30 => decodeN w .det
  | 0x31 => decodeN w .val
  | 0x32 => decodeN w .adj
  | 0x33 => decodeN w .minv
  | 0x34 => decodeS w
  | 0x40 => decodeN w .enc
  | 0x41 => decodeN w .dec
  | _ => .error .unassignedOpcode

/-- The word of a command (R94, R98): the opcode, and the operands in the fields of its format. -/
def encode : Instr → Word
  | .nop => packWord 0x01#8 0#8 0#16
  | .rst => packWord 0x02#8 0#8 0#16
  | .wr rn imm => packWord 0x10#8 rn imm
  | .rd rn => packWord 0x11#8 rn 0#16
  | .wrb addr byte => packWord 0x12#8 byte addr
  | .rdb addr => packWord 0x13#8 0#8 addr
  | .mod => packWord 0x20#8 0#8 0#16
  | .xgcd => packWord 0x21#8 0#8 0#16
  | .modinv => packWord 0x22#8 0#8 0#16
  | .det => packWord 0x30#8 0#8 0#16
  | .val => packWord 0x31#8 0#8 0#16
  | .adj => packWord 0x32#8 0#8 0#16
  | .minv => packWord 0x33#8 0#8 0#16
  | .mvm bank => packWord 0x34#8 bank 0#16
  | .enc => packWord 0x40#8 0#8 0#16
  | .dec => packWord 0x41#8 0#8 0#16

/-- A row of the opcode map of R94: a word w encodes the row's command exactly when
`w & mask = pattern`. -/
structure OpcodeRow where
  mnemonic : String
  pattern : Word
  mask : Word
  deriving DecidableEq, Repr

/-- The map of R94, row by row. The decoder does not read it: that the two agree is a statement. -/
def opcodeMap : List OpcodeRow :=
  [⟨"NOP", 0x01000000#32, 0xFFFFFFFF#32⟩,
   ⟨"RST", 0x02000000#32, 0xFFFFFFFF#32⟩,
   ⟨"WR", 0x10000000#32, 0xFF000000#32⟩,
   ⟨"RD", 0x11000000#32, 0xFF00FFFF#32⟩,
   ⟨"WRB", 0x12000000#32, 0xFF000000#32⟩,
   ⟨"RDB", 0x13000000#32, 0xFFFF0000#32⟩,
   ⟨"MOD", 0x20000000#32, 0xFFFFFFFF#32⟩,
   ⟨"XGCD", 0x21000000#32, 0xFFFFFFFF#32⟩,
   ⟨"MODINV", 0x22000000#32, 0xFFFFFFFF#32⟩,
   ⟨"DET", 0x30000000#32, 0xFFFFFFFF#32⟩,
   ⟨"VAL", 0x31000000#32, 0xFFFFFFFF#32⟩,
   ⟨"ADJ", 0x32000000#32, 0xFFFFFFFF#32⟩,
   ⟨"MINV", 0x33000000#32, 0xFFFFFFFF#32⟩,
   ⟨"MVM", 0x34000000#32, 0xFFFEFFFF#32⟩,
   ⟨"ENC", 0x40000000#32, 0xFFFFFFFF#32⟩,
   ⟨"DEC", 0x41000000#32, 0xFFFFFFFF#32⟩]

/-- The word `w` is one the row encodes (R94). -/
def OpcodeRow.accepts (row : OpcodeRow) (w : Word) : Bool := w &&& row.mask == row.pattern

/-- The mnemonic of a command, as R94 writes it. -/
def Instr.mnemonic : Instr → String
  | .nop => "NOP"
  | .rst => "RST"
  | .wr _ _ => "WR"
  | .rd _ => "RD"
  | .wrb _ _ => "WRB"
  | .rdb _ => "RDB"
  | .mod => "MOD"
  | .xgcd => "XGCD"
  | .modinv => "MODINV"
  | .det => "DET"
  | .val => "VAL"
  | .adj => "ADJ"
  | .minv => "MINV"
  | .mvm _ => "MVM"
  | .enc => "ENC"
  | .dec => "DEC"

/-- The command word whose low `nbits` bits are those of `w`, every bit above them 0. The word is
presented whole on `cmd_word` (R90): there is no second word and no byte order (R68). Log 17. -/
def commandWord (nbits w : Nat) : Word := BitVec.ofNat 32 (w % 2 ^ nbits)

/-- What the decoder reads from a command word given as a number (R10, R90). -/
def decodeTableWord (nbits w : Nat) : Option Instr := (decode (commandWord nbits w)).toOption

end Sys2Proof
end

