-- ==== Sys2Proof/Config.lean ====
section
/-! DEFINITION. What an instance of the hardware fixes, and the values the spec leaves free. -/

namespace Sys2Proof

/-- The contents of the text memory at power-up: the parameter `tin0` of R262 and U9, "any value"
fixed once. It has no body, so nothing can be proved of any of its values. At an address below
TMAX it is the spec's `tin0`; the bytes of NT and TOUT that nothing has written take it too, and
no command can read those (R66). Log 5. -/
opaque Config.tin0 : Nat → Byte

/-- `letterToNumber` of a byte that is no letter: "Undefined/error for non-letter input" (R193,
U2). It has no body and is never reached, since the function is applied to bytes of NT only.
Log 8. -/
opaque Config.nonLetterNumber : Byte → Int

/-- The OPEN parameter TMAX of R6, 1 ≤ TMAX ≤ 16383, held as TMAX − 1 so that every value of the
type is an admitted one. Log 4. -/
abbrev TextCapacity := Fin 16383

/-- The reference value of R6, TMAX = 256. Log 4. -/
def Config.referenceCapacity : TextCapacity := 255

/-- The first address of the NT window (R64). -/
abbrev Config.ntBase : Nat := 0x4000

/-- The first address of the TOUT window (R64). -/
abbrev Config.toutBase : Nat := 0x8000

end Sys2Proof
end

