-- ==== Sys2Proof/Machine/State.lean ====
section
/-! DEFINITION. The state of the hardware (R20) and of its ports, and its value after reset (R42). -/

namespace Sys2Proof.Machine

/-- No command, word, value or address stops the core: every error of R230 is the outcome of a
command that completes with `rsp_err` = 1 (R239), and every state accepts every command (R241).
So there is no fault: the type is empty, and nothing raises one. -/
inductive Fault where
  deriving DecidableEq, Repr

/-- Why a step would be refused. -/
inductive Refusal where
  /-- An arm of `exec` without a meaning would answer it; safe, since the machine stops. No arm
  does. -/
  | notModelled (mnemonic : String)
  deriving DecidableEq, Repr

/-- What STATUS.ERR records (R230). The codes 7 to 15 are "never produced", so they are no
constructors (U15, log 13). -/
inductive ErrCode where
  /-- Code 0: no error. -/
  | none
  /-- Code 1: EmptyInputError (R231). -/
  | emptyInput
  /-- Code 2: ValidationError (R233). -/
  | validation
  /-- Code 3: SingularMatrixError (R232). -/
  | singularMatrix
  /-- Code 4: IllegalCommand (R234). -/
  | illegalCommand
  /-- Code 5: OperandError (R235). -/
  | operand
  /-- Code 6: RangeError (R236). -/
  | range
  deriving DecidableEq, Repr

/-- The states of the block processor (R31, R190). The value 7 is "never taken" (log 13). -/
inductive FsmState where
  /-- Value 0: after reset or RST. -/
  | start
  /-- Value 1: transient inside ENC and DEC. -/
  | validate
  /-- Value 2: transient inside DEC. -/
  | computeInverse
  /-- Value 3: transient inside ENC and DEC. -/
  | iterateBlocks
  /-- Value 4: the last ENC or DEC succeeded. -/
  | done
  /-- Value 5: the last ENC or DEC failed in Validate. -/
  | invalidMatrix
  /-- Value 6: the last ENC or DEC failed in Start. -/
  | emptyInput
  deriving DecidableEq, Repr

/-- The fields of STATUS that storage holds (R30). Bits 31:9 "read as 0; nothing writes them", so
none is stored; the register as a word is `Status.word`. -/
structure Status where
  err : ErrCode
  fsm : FsmState
  noinv : Bool
  kval : Bool
  deriving DecidableEq, Repr

/-- A response: `rsp_err` and `rsp` (R62). -/
structure Response where
  err : Bool
  data : Word
  deriving DecidableEq, Repr

/-- What the host can do to the hardware (R9): present a command word, or assert `rst`. -/
inductive HostEvent where
  /-- A word on `cmd_word`, accepted by the core (R60). -/
  | command (word : Word)
  /-- `rst` at a clock edge (R260). -/
  | reset
  deriving DecidableEq, Repr

/-- A byte memory: pairs of an address and a byte, addresses strictly rising. An address that is
not listed has not been written since power-up (log 6). -/
abbrev Memory := List Host.Cell

/-- The whole state (R20), with the response port, the host's coming events and the capacity of
TIN. Log 1, 2, 4. -/
@[ext]
structure State where
  /-- A, s16 (R22). -/
  a : BitVec 16
  /-- B, s16 (R22). -/
  b : BitVec 16
  /-- G, s16 (R23). -/
  g : BitVec 16
  /-- X, s16 (R23). -/
  x : BitVec 16
  /-- Y, s16 (R23). -/
  y : BitVec 16
  /-- R, s16 (R24). -/
  r : BitVec 16
  /-- DET, s32 (R25). -/
  det : BitVec 32
  /-- DETM, u5 (R25). -/
  detm : BitVec 5
  /-- DINV, u5 (R25). -/
  dinv : BitVec 5
  /-- TLEN, u16 (R28). -/
  tlen : BitVec 16
  /-- NLEN, u16 (R28). -/
  nlen : BitVec 16
  /-- OLEN, u16 (R28). -/
  olen : BitVec 16
  /-- BLK, u16 (R27). -/
  blk : BitVec 16
  /-- STATUS (R30). -/
  status : Status
  /-- K[0..8], s8 (R33). -/
  k : Mat3 (BitVec 8)
  /-- KI[0..8], u5 (R34). -/
  ki : Mat3 (BitVec 5)
  /-- AJ[0..8], u5 (R35). -/
  aj : Mat3 (BitVec 5)
  /-- V[0..2], s8 (R36). -/
  v : Vec3 (BitVec 8)
  /-- W[0..2], u5 (R37). -/
  w : Vec3 (BitVec 5)
  /-- TIN, NT and TOUT, by text address (R38, R64). -/
  mem : Memory
  /-- TMAX − 1 (R6). -/
  capacity : TextCapacity
  /-- The host events the core has not taken yet, the next one first (R18). -/
  events : List HostEvent
  /-- The response the last step gave, if it gave one (R60, R62). -/
  rsp : Option Response
  deriving DecidableEq, Repr

/-- The state after the first reset: R42, with no byte of text written since power-up (R262), no
host event waiting, no response, and the reference capacity (log 1, 2, 4). -/
def State.reset : State where
  a := 0
  b := 0
  g := 0
  x := 0
  y := 0
  r := 0
  det := 0
  detm := 0
  dinv := 0
  tlen := 0
  nlen := 0
  olen := 0
  blk := 0
  status := ⟨.none, .start, false, false⟩
  k := ⟨0, 0, 0, 0, 0, 0, 0, 0, 0⟩
  ki := ⟨0, 0, 0, 0, 0, 0, 0, 0, 0⟩
  aj := ⟨0, 0, 0, 0, 0, 0, 0, 0, 0⟩
  v := ⟨0, 0, 0⟩
  w := ⟨0, 0, 0⟩
  mem := []
  capacity := Config.referenceCapacity
  events := []
  rsp := Option.none

end Sys2Proof.Machine
end

