-- ==== Sys2Proof/Machine/Flags.lean ====
section
/-! DEFINITION. STATUS: the codes of its fields, the register as a word (R30), and the writes of
its fields (R29, R31, R32). -/

namespace Sys2Proof.Machine

/-- The code in STATUS.ERR (R230). -/
def errCode : ErrCode → BitVec 4
  | .none => 0
  | .emptyInput => 1
  | .validation => 2
  | .singularMatrix => 3
  | .illegalCommand => 4
  | .operand => 5
  | .range => 6

/-- The value in STATUS.FSM (R31). -/
def fsmCode : FsmState → BitVec 3
  | .start => 0
  | .validate => 1
  | .computeInverse => 2
  | .iterateBlocks => 3
  | .done => 4
  | .invalidMatrix => 5
  | .emptyInput => 6

/-- STATUS as a 32-bit register: ERR in 3:0, FSM in 6:4, NOINV in 7, KVAL in 8, zeros above
(R30). -/
def Status.word (u : Status) : Word :=
  0#23 ++ BitVec.ofBool u.kval ++ BitVec.ofBool u.noinv ++ fsmCode u.fsm ++ errCode u.err

/-- `STATUS.ERR <- e` (R32). -/
def State.setErr (s : State) (e : ErrCode) : State := { s with status := { s.status with err := e } }

/-- `STATUS.FSM <- f` (R31). -/
def State.setFsm (s : State) (f : FsmState) : State := { s with status := { s.status with fsm := f } }

/-- `STATUS.NOINV <- v` (R29). -/
def State.setNoinv (s : State) (v : Bool) : State := { s with status := { s.status with noinv := v } }

/-- `STATUS.KVAL <- v` (R29). -/
def State.setKval (s : State) (v : Bool) : State := { s with status := { s.status with kval := v } }

end Sys2Proof.Machine
end

