-- ==== Sys2Proof/Machine/Integers.lean ====
section
/-! DEFINITION. The integer functions of the `modular_inverse_gcd` unit (R12, R140, R143, R145):
exact, over the integers, with no width (R150). -/

namespace Sys2Proof.Machine

/-- `fdiv(n, m)` = floor(n/m) (R12). It is applied with m > 0 only (R141, log 9). -/
def fdiv (n m : Int) : Int := Int.fdiv n m

/-- `mod(n, m)` = n − m·fdiv(n, m), the true mathematical modulo (R12, R140). It is applied with
m > 0 only (R141, log 9). -/
def mod (n m : Int) : Int := n - m * fdiv n m

/-- The recursion of R143 with a bound on its depth, which structural recursion needs; R148 gives
the bound a + 1 (log 10). -/
def extendedGCDWithin : Nat → Int → Int → Int × Int × Int
  | 0, _, b => (b, 0, 1)
  | n + 1, a, b =>
    if a = 0 then (b, 0, 1)
    else
      match extendedGCDWithin n (mod b a) a with
      | (g, x1, y1) => (g, y1 - fdiv b a * x1, x1)

/-- `extendedGCD(a, b)` for a ≥ 0 and b ≥ 0: the triple (gcd, x, y) of the recursion of R143, that
very Bezout pair (R149, log 11). -/
def extendedGCD (a b : Int) : Int × Int × Int := extendedGCDWithin (a.toNat + 1) a b

/-- `modInverse(a, m)` for m > 0, `none` for "no inverse" (R145, U7). -/
def modInverse (a m : Int) : Option Int :=
  match extendedGCD (mod a m) m with
  | (g, x, _) => if g = 1 then some (mod x m) else none

end Sys2Proof.Machine
end

