-- ==== Sys2Proof/Machine/Matrix.lean ====
section
/-! DEFINITION. Banks by index (R15), and the integer functions of the matrix units: determinant
(R162), adjugate (R171), matrix-vector product modulo 26 (R181), the range test of a key (R164). -/

namespace Sys2Proof.Machine

/-- Entry i of a matrix bank, row by row (R15). -/
def matGet {α : Type} (m : Mat3 α) (i : Fin 9) : α :=
  match i with
  | 0 => m.a
  | 1 => m.b
  | 2 => m.c
  | 3 => m.d
  | 4 => m.e
  | 5 => m.f
  | 6 => m.g
  | 7 => m.h
  | 8 => m.i

/-- The bank with entry i replaced (R13). -/
def matSet {α : Type} (m : Mat3 α) (i : Fin 9) (v : α) : Mat3 α :=
  match i with
  | 0 => { m with a := v }
  | 1 => { m with b := v }
  | 2 => { m with c := v }
  | 3 => { m with d := v }
  | 4 => { m with e := v }
  | 5 => { m with f := v }
  | 6 => { m with g := v }
  | 7 => { m with h := v }
  | 8 => { m with i := v }

/-- Entry j of a vector bank (R15). -/
def vecGet {α : Type} (u : Vec3 α) (j : Fin 3) : α :=
  match j with
  | 0 => u.v0
  | 1 => u.v1
  | 2 => u.v2

/-- The bank with entry j replaced (R13). -/
def vecSet {α : Type} (u : Vec3 α) (j : Fin 3) (v : α) : Vec3 α :=
  match j with
  | 0 => { u with v0 := v }
  | 1 => { u with v1 := v }
  | 2 => { u with v2 := v }

/-- The bank with `f` applied to every entry. -/
def matMap {α β : Type} (f : α → β) (m : Mat3 α) : Mat3 β :=
  ⟨f m.a, f m.b, f m.c, f m.d, f m.e, f m.f, f m.g, f m.h, f m.i⟩

/-- The bank with `f` applied to every entry. -/
def vecMap {α β : Type} (f : α → β) (u : Vec3 α) : Vec3 β :=
  ⟨f u.v0, f u.v1, f u.v2⟩

/-- `det3(M)`, the cofactor expansion of R162. -/
def det3 (m : Mat3 Int) : Int :=
  m.a * (m.e * m.i - m.f * m.h) - m.b * (m.d * m.i - m.f * m.g) + m.c * (m.d * m.h - m.e * m.g)

/-- `adj(M)`, the transpose of the cofactor matrix, in the form R171 writes out. -/
def adj (m : Mat3 Int) : Mat3 Int where
  a := m.e * m.i - m.f * m.h
  b := -(m.b * m.i - m.c * m.h)
  c := m.b * m.f - m.c * m.e
  d := -(m.d * m.i - m.f * m.g)
  e := m.a * m.i - m.c * m.g
  f := -(m.a * m.f - m.c * m.d)
  g := m.d * m.h - m.e * m.g
  h := -(m.a * m.h - m.b * m.g)
  i := m.a * m.e - m.b * m.d

/-- `mvm(M, v)`: each row summed exactly and reduced once (R181). -/
def mvm (m : Mat3 Int) (u : Vec3 Int) : Vec3 Int where
  v0 := mod (m.a * u.v0 + m.b * u.v1 + m.c * u.v2) 26
  v1 := mod (m.d * u.v0 + m.e * u.v1 + m.f * u.v2) 26
  v2 := mod (m.g * u.v0 + m.h * u.v1 + m.i * u.v2) 26

/-- The integer is a residue, in [0, 25] (R17). -/
def isResidue (n : Int) : Bool := decide (0 ≤ n) && decide (n ≤ 25)

/-- Every entry of the key is in [0, 25] (R164). -/
def keyInRange (m : Mat3 Int) : Bool :=
  isResidue m.a && isResidue m.b && isResidue m.c && isResidue m.d && isResidue m.e &&
    isResidue m.f && isResidue m.g && isResidue m.h && isResidue m.i

/-- The four local values of DetStage (R165). -/
structure DetLocals where
  det : Int
  dm : Int
  dinv : Int
  coprime : Bool
  deriving DecidableEq, Repr

/-- What DetStage computes from the key (R165): `dinv` is `modInverse(dm, 26)`, 0 for
"no inverse". -/
def detLocals (m : Mat3 Int) : DetLocals :=
  match extendedGCD (mod (det3 m) 26) 26 with
  | (g, x, _) =>
    { det := det3 m
      dm := mod (det3 m) 26
      dinv := if g = 1 then mod x 26 else 0
      coprime := decide (g = 1) }

/-- `validateMatrix(M)` (R164). -/
def validateMatrix (m : Mat3 Int) : Bool := keyInRange m && (detLocals m).coprime

/-- The inverse matrix from the adjugate and the determinant's inverse: entry i is
`mod(adj(M)[i] * dinv, 26)` (R172, R173, R199). -/
def inverseEntries (m : Mat3 Int) (dinv : Int) : Mat3 Int :=
  matMap (fun n => mod (n * dinv) 26) (adj m)

/-- `matrixInverse3x3(M)`, `none` for SingularMatrixError (R173). -/
def matrixInverse3x3 (m : Mat3 Int) : Option (Mat3 Int) :=
  match modInverse (mod (det3 m) 26) 26 with
  | some dinv => some (inverseEntries m dinv)
  | none => none

end Sys2Proof.Machine
end

