-- ==== Sys2Proof/Machine/Operands.lean ====
section
/-! DEFINITION. The operands of the commands: TMAX, the register-number map (R21), the integer a
register holds, the ranges WR accepts (R122), and the banks as integer matrices (R11). -/

namespace Sys2Proof.Machine

/-- TMAX (R6): the capacity of TIN in bytes. -/
def State.tmax (s : State) : Nat := s.capacity.val + 1

/-- NMAX = 3·ceil(TMAX/3) (R6): the capacity of NT and of TOUT. -/
def State.nmax (s : State) : Nat := 3 * ((s.tmax + 2) / 3)

/-- The registers of R21. -/
inductive Reg where
  | status | a | b | g | x | y | r | det | detm | dinv | tlen | nlen | olen | blk
  | k (i : Fin 9)
  | ki (i : Fin 9)
  | aj (i : Fin 9)
  | v (j : Fin 3)
  | w (j : Fin 3)
  deriving DecidableEq, Repr

/-- The register of a register number, `none` if the number is unmapped (R21). -/
def regOfNumber (rn : Byte) : Option Reg :=
  match rn.toNat with
  | 0x00 => some .status
  | 0x01 => some .a
  | 0x02 => some .b
  | 0x03 => some .g
  | 0x04 => some .x
  | 0x05 => some .y
  | 0x06 => some .r
  | 0x07 => some .det
  | 0x08 => some .detm
  | 0x09 => some .dinv
  | 0x0A => some .tlen
  | 0x0B => some .nlen
  | 0x0C => some .olen
  | 0x0D => some .blk
  | n =>
    if 0x10 ≤ n ∧ n ≤ 0x18 then some (.k (Fin.ofNat 9 (n - 0x10)))
    else if 0x20 ≤ n ∧ n ≤ 0x28 then some (.ki (Fin.ofNat 9 (n - 0x20)))
    else if 0x30 ≤ n ∧ n ≤ 0x38 then some (.aj (Fin.ofNat 9 (n - 0x30)))
    else if 0x40 ≤ n ∧ n ≤ 0x42 then some (.v (Fin.ofNat 3 (n - 0x40)))
    else if 0x48 ≤ n ∧ n ≤ 0x4A then some (.w (Fin.ofNat 3 (n - 0x48)))
    else none

/-- The register number of a register (R21). -/
def regNumber : Reg → Byte
  | .status => 0x00
  | .a => 0x01
  | .b => 0x02
  | .g => 0x03
  | .x => 0x04
  | .y => 0x05
  | .r => 0x06
  | .det => 0x07
  | .detm => 0x08
  | .dinv => 0x09
  | .tlen => 0x0A
  | .nlen => 0x0B
  | .olen => 0x0C
  | .blk => 0x0D
  | .k i => BitVec.ofNat 8 (0x10 + i.val)
  | .ki i => BitVec.ofNat 8 (0x20 + i.val)
  | .aj i => BitVec.ofNat 8 (0x30 + i.val)
  | .v j => BitVec.ofNat 8 (0x40 + j.val)
  | .w j => BitVec.ofNat 8 (0x48 + j.val)

/-- `x[rn]`, the integer a register holds: signed for the sN registers, unsigned for the uN ones
(R11, R13, R21). -/
def State.regValue (s : State) : Reg → Int
  | .status => s.status.word.toNat
  | .a => s.a.toInt
  | .b => s.b.toInt
  | .g => s.g.toInt
  | .x => s.x.toInt
  | .y => s.y.toInt
  | .r => s.r.toInt
  | .det => s.det.toInt
  | .detm => s.detm.toNat
  | .dinv => s.dinv.toNat
  | .tlen => s.tlen.toNat
  | .nlen => s.nlen.toNat
  | .olen => s.olen.toNat
  | .blk => s.blk.toNat
  | .k i => (matGet s.k i).toInt
  | .ki i => (matGet s.ki i).toNat
  | .aj i => (matGet s.aj i).toNat
  | .v j => (vecGet s.v j).toInt
  | .w j => (vecGet s.w j).toNat

/-- The registers the host can write with WR (R21, column "host WR"). -/
inductive HostReg where
  | a | b | tlen
  | k (i : Fin 9)
  | v (j : Fin 3)
  deriving DecidableEq, Repr

/-- The host-writable register a register is, `none` for the read-only ones (R21). -/
def hostWritable : Reg → Option HostReg
  | .a => some .a
  | .b => some .b
  | .tlen => some .tlen
  | .k i => some (.k i)
  | .v j => some (.v j)
  | .status => none
  | .g => none
  | .x => none
  | .y => none
  | .r => none
  | .det => none
  | .detm => none
  | .dinv => none
  | .nlen => none
  | .olen => none
  | .blk => none
  | .ki _ => none
  | .aj _ => none
  | .w _ => none

/-- The register WR writes for a register number, `none` where WR raises IllegalCommand: the
number is unmapped or names a read-only register (R122). -/
def hostRegOfNumber (rn : Byte) : Option HostReg := (regOfNumber rn).bind hostWritable

/-- The least value WR accepts (R122). -/
def HostReg.lo : HostReg → Int
  | .a => -32768
  | .b => -32768
  | .tlen => 0
  | .k _ => -128
  | .v _ => -128

/-- The greatest value WR accepts (R122). -/
def State.hostRegHi (s : State) : HostReg → Int
  | .a => 32767
  | .b => 32767
  | .tlen => s.tmax
  | .k _ => 127
  | .v _ => 127

/-- `x[rn] <- v` for a host-writable register (R13, R122). -/
def State.writeHostReg (s : State) (q : HostReg) (v : Int) : State :=
  match q with
  | .a => { s with a := BitVec.ofInt 16 v }
  | .b => { s with b := BitVec.ofInt 16 v }
  | .tlen => { s with tlen := BitVec.ofInt 16 v }
  | .k i => { s with k := matSet s.k i (BitVec.ofInt 8 v) }
  | .v j => { s with v := vecSet s.v j (BitVec.ofInt 8 v) }

/-- The bank K as integers, each entry with its sign (R33). -/
def State.keyMatrix (s : State) : Mat3 Int := matMap BitVec.toInt s.k

/-- The bank KI as integers (R34). -/
def State.inverseBank (s : State) : Mat3 Int := matMap (fun n => (n.toNat : Int)) s.ki

/-- The bank V as integers, each entry with its sign (R36). -/
def State.vector (s : State) : Vec3 Int := vecMap BitVec.toInt s.v

/-- A residue as the content of a u5 register (R6, R21). -/
def residueBits (n : Int) : BitVec 5 := BitVec.ofInt 5 n

end Sys2Proof.Machine
end

