-- ==== Sys2Proof/Machine/Text.lean ====
section
/-! DEFINITION. Characters, the codec and the normaliser (R192 to R196), and the block transform
(R202). -/

namespace Sys2Proof.Machine

/-- `isUpper(b)` (R192). -/
def isUpper (c : Byte) : Bool := decide (0x41 ≤ c.toNat) && decide (c.toNat ≤ 0x5A)

/-- `isLower(b)` (R192). -/
def isLower (c : Byte) : Bool := decide (0x61 ≤ c.toNat) && decide (c.toNat ≤ 0x7A)

/-- `upper(b)` (R192). -/
def upper (c : Byte) : Byte := if isLower c then c - 0x20#8 else c

/-- `isLetter(b)` (R192). -/
def isLetter (c : Byte) : Bool := isUpper c || isLower c

/-- `isWS(b)`: tab, LF, VT, FF, CR, space (R192). -/
def isWhiteSpace (c : Byte) : Bool :=
  c == 0x09#8 || c == 0x0A#8 || c == 0x0B#8 || c == 0x0C#8 || c == 0x0D#8 || c == 0x20#8

/-- `letterToNumber(b)`, for a letter upper(b) − 0x41 (R193); for another byte a free value, which
no command reaches (log 8). -/
def letterToNumber (c : Byte) : Int :=
  if isLetter c then ((upper c).toNat : Int) - 0x41 else Config.nonLetterNumber c

/-- `numberToLetter(n)`, the byte 0x41 + n (R194). -/
def numberToLetter (n : Int) : Byte := BitVec.ofInt 8 (0x41 + n)

/-- `isEmptyInput(t)`: no byte, or white space only (R195). -/
def isEmptyInput (t : List Byte) : Bool := t.all isWhiteSpace

/-- The letters of a text, raised to upper case, in order (R196). -/
def lettersOf (t : List Byte) : List Byte := (t.filter isLetter).map upper

/-- The number of padding letters, `mod(-n, 3)` (R196). -/
def padLength (n : Nat) : Nat := (mod (-(n : Int)) 3).toNat

/-- `prepareText(t)`: the letters, padded with `Z` to a multiple of 3 (R196). -/
def prepareText (t : List Byte) : List Byte :=
  lettersOf t ++ List.replicate (padLength (lettersOf t).length) 0x5A#8

/-- One block: letters to numbers, `mvm`, numbers to letters (R202). -/
def cipherBlock (m : Mat3 Int) (p q r : Byte) : Vec3 Byte :=
  vecMap numberToLetter (mvm m ⟨letterToNumber p, letterToNumber q, letterToNumber r⟩)

/-- The blocks of a normalised text, left to right (R202, R67). A normalised text has a multiple
of 3 letters, so no letter is left over. -/
def cipherBlocks (m : Mat3 Int) : List Byte → List Byte
  | p :: q :: r :: rest =>
    let w := cipherBlock m p q r
    w.v0 :: w.v1 :: w.v2 :: cipherBlocks m rest
  | _ => []

end Sys2Proof.Machine
end

