-- ==== Sys2Proof/Machine/Ops.lean ====
section
/-! DEFINITION. The operations the commands share: the text memory (R64 to R66), completing,
raising and answering (R14, R62, R239), reset (R42, R260), DetStage (R165), and the stages of the
block processor (R197 to R203). -/

namespace Sys2Proof.Machine

/-! ### The text memory -/

/-- The byte written at an address since power-up, if one was. -/
def Memory.lookup : Memory → Nat → Option Byte
  | [], _ => none
  | (p, v) :: m, addr => if addr = p then some v else Memory.lookup m addr

/-- What an address that nothing has written reads as: the free value `tin0` (R262, log 5). -/
def unlistedByte (addr : Nat) : Byte := Config.tin0 addr

/-- The byte at an address. -/
def Memory.read (m : Memory) (addr : Nat) : Byte :=
  match Memory.lookup m addr with
  | some v => v
  | none => unlistedByte addr

/-- The memory with one byte written; the addresses stay strictly rising. -/
def Memory.write : Memory → Nat → Byte → Memory
  | [], addr, v => [(addr, v)]
  | (p, u) :: m, addr, v =>
    if addr < p then (addr, v) :: (p, u) :: m
    else if addr = p then (addr, v) :: m
    else (p, u) :: Memory.write m addr v

/-- The memory with a list of bytes written from an address upward. -/
def Memory.writeBytes : Memory → Nat → List Byte → Memory
  | m, _, [] => m
  | m, addr, v :: vs => Memory.writeBytes (Memory.write m addr v) (addr + 1) vs

/-- The canonical form: addresses strictly rising. An unlisted address has no byte of its own, so
every entry is a byte some command wrote (log 6). -/
def Memory.wf (m : Memory) : Bool := decide (m.Pairwise (fun p q => p.1 < q.1))

/-- `MemRead(addr, 1)` by the windows of R64: the byte, or `none` where the access raises
RangeError. -/
def State.memRead (s : State) (addr : Nat) : Option Byte :=
  if addr < s.tmax then some (Memory.read s.mem addr)
  else if Config.ntBase ≤ addr ∧ addr < Config.ntBase + s.nlen.toNat then
    some (Memory.read s.mem addr)
  else if Config.toutBase ≤ addr ∧ addr < Config.toutBase + s.olen.toNat then
    some (Memory.read s.mem addr)
  else none

/-- The state with one byte of the text memory written. -/
def State.storeByte (s : State) (addr : Nat) (v : Byte) : State :=
  { s with mem := Memory.write s.mem addr v }

/-- `MemWrite(addr, 1, v)` (R65, R66): only TIN can be written; `none` where the access raises
RangeError. -/
def State.memWrite (s : State) (addr : Nat) (v : Byte) : Option State :=
  if addr < s.tmax then some (s.storeByte addr v) else none

/-- The raw text TIN[0 .. TLEN-1] (R67). -/
def State.rawText (s : State) : List Byte := (List.range s.tlen.toNat).map (Memory.read s.mem)

/-! ### How a command ends -/

/-- A command other than a read succeeds: ERR ← 0, the response is (0, STATUS) (R14, R62). -/
def State.succeed (s : State) : State :=
  let t := s.setErr .none
  { t with rsp := some ⟨false, t.status.word⟩ }

/-- `raise e`, the hardware's whole "trap entry" (R14, R239): ERR ← the code, the response is
(1, STATUS). `s` holds what the command's rule writes in the failing case. -/
def State.raise (s : State) (e : ErrCode) : State :=
  let t := s.setErr e
  { t with rsp := some ⟨true, t.status.word⟩ }

/-- A successful RD or RDB: the response carries the data and nothing else is written (R62,
R239). -/
def State.answer (s : State) (v : Word) : State := { s with rsp := some ⟨false, v⟩ }

/-- The 32-bit two's complement pattern of an integer (R11). -/
def wordOfInt (v : Int) : Word := BitVec.ofInt 32 v

/-! ### Reset -/

/-- Every register, flag and bank at its reset value, the text memory kept (R42, R260, R262); the
capacity and the host's coming events are no registers. Log 7. -/
def State.resetCore (s : State) : State :=
  { State.reset with mem := s.mem, capacity := s.capacity, events := s.events, rsp := s.rsp }

/-! ### DetStage -/

/-- The register writes of DetStage (R165); its local values are `detLocals s.keyMatrix`. -/
def State.detStage (s : State) : State :=
  let d := detLocals s.keyMatrix
  { s with
    det := BitVec.ofInt 32 d.det
    detm := residueBits d.dm
    dinv := residueBits d.dinv }

/-- KI ← the inverse of K from the adjugate and `dinv` (R172, R199). -/
def State.writeInverse (s : State) : State :=
  { s with ki := matMap residueBits (inverseEntries s.keyMatrix (detLocals s.keyMatrix).dinv) }

/-! ### The stages of the block processor -/

/-- NLEN, OLEN, BLK ← 0: "the outputs of any earlier call are withdrawn" (R197). -/
def State.withdrawOutputs (s : State) : State := { s with nlen := 0, olen := 0, blk := 0 }

/-- Where a stage of the block processor leaves the command. -/
inductive Stage where
  /-- The command has ended by `raise`. -/
  | failed (s : State)
  /-- The command goes on. -/
  | go (s : State)
  deriving DecidableEq, Repr

/-- Validate (R198): DetStage, the range test, the coprimality test, KVAL. -/
def State.validateStage (s : State) : Stage :=
  let t := (s.setFsm .validate).detStage
  if keyInRange s.keyMatrix = false then
    .failed (((t.setKval false).setFsm .invalidMatrix).raise .validation)
  else if (detLocals s.keyMatrix).coprime = false then
    .failed (((t.setKval false).setFsm .invalidMatrix).raise .singularMatrix)
  else .go (t.setKval true)

/-- Start (R197) and, where the text is not empty, Validate. -/
def State.startStage (s : State) : Stage :=
  let t := (s.setFsm .start).withdrawOutputs
  if isEmptyInput s.rawText then .failed ((t.setFsm .emptyInput).raise .emptyInput)
  else t.validateStage

/-- ComputeInverse (R199). -/
def State.computeInverse (s : State) : State := (s.setFsm .computeInverse).writeInverse

/-- IterateBlocks (R202) with the matrix `m`: the normalised text into NT, its image into TOUT. -/
def State.iterateBlocks (s : State) (m : Mat3 Int) : State :=
  let n := prepareText s.rawText
  { s.setFsm .iterateBlocks with
    mem := Memory.writeBytes (Memory.writeBytes s.mem Config.ntBase n) Config.toutBase
      (cipherBlocks m n)
    nlen := BitVec.ofNat 16 n.length
    blk := BitVec.ofNat 16 (n.length / 3) }

/-- Done (R203). -/
def State.finish (s : State) : State := ({ s with olen := s.nlen }.setFsm .done).succeed

/-- The execution of a word that is no command (R127). -/
def State.illegalWord (s : State) : State := s.raise .illegalCommand

/-- A hardware reset between commands (R260): the reset state, no response. -/
def State.pinReset (s : State) : State := { s.resetCore with rsp := none }

/-- A step in which the host does nothing: the core is idle, holds its state and gives no response
(R8, R251, log 3). -/
def State.idle (s : State) : State := { s with rsp := none }

end Sys2Proof.Machine
end

