-- ==== Sys2Proof/Machine/Adjugate.lean ====
section
/-! DEFINITION. The commands of the `matrix_adjugate_mod26` unit: ADJ and MINV. -/

namespace Sys2Proof.Machine

/-- AJ ← the adjugate of K modulo 26 (R170). -/
def State.writeAdjugate (s : State) : State :=
  { s with aj := matMap (fun n => residueBits (mod n 26)) (adj s.keyMatrix) }

/-- ADJ (R170). -/
def execAdj (s : State) : Host.Outcome State Fault Refusal := .next s.writeAdjugate.succeed

/-- MINV (R172): DetStage has written DET, DETM and DINV also where SingularMatrixError is
raised. -/
def execMinv (s : State) : Host.Outcome State Fault Refusal :=
  if (detLocals s.keyMatrix).coprime = false then .next (s.detStage.raise .singularMatrix)
  else .next s.detStage.writeInverse.succeed

end Sys2Proof.Machine
end

