-- ==== Sys2Proof/Machine/Cipher.lean ====
section
/-! DEFINITION. The commands of the `hill_cipher_block_processor` unit: ENC and DEC. -/

namespace Sys2Proof.Machine

/-- ENC (R200): Start, Validate, IterateBlocks with K, Done. -/
def execEnc (s : State) : Host.Outcome State Fault Refusal :=
  match s.startStage with
  | .failed t => .next t
  | .go t => .next (t.iterateBlocks t.keyMatrix).finish

/-- DEC (R201): Start, Validate, ComputeInverse, IterateBlocks with the inverse just computed,
Done. -/
def execDec (s : State) : Host.Outcome State Fault Refusal :=
  match s.startStage with
  | .failed t => .next t
  | .go t => .next (t.computeInverse.iterateBlocks t.computeInverse.inverseBank).finish

end Sys2Proof.Machine
end

