-- ==== Sys2Proof/Machine/Determinant.lean ====
section
/-! DEFINITION. The commands of the `matrix_determinant_mod26` unit: DET and VAL. -/

namespace Sys2Proof.Machine

/-- DET and DETM ← the determinant of K and its residue (R160). -/
def State.writeDet (s : State) : State :=
  let d := det3 s.keyMatrix
  { s with det := BitVec.ofInt 32 d, detm := residueBits (mod d 26) }

/-- DET (R160): DET and DETM, not DINV. -/
def execDet (s : State) : Host.Outcome State Fault Refusal := .next s.writeDet.succeed

/-- VAL (R163): an invalid key is no error (R237). -/
def execVal (s : State) : Host.Outcome State Fault Refusal :=
  .next (s.detStage.setKval (validateMatrix s.keyMatrix)).succeed

end Sys2Proof.Machine
end

