-- ==== Sys2Proof/Machine/MatVec.lean ====
section
/-! DEFINITION. The command of the `matrix_vector_multiply_mod26` unit: MVM. -/

namespace Sys2Proof.Machine

/-- W ← mvm(M, V) (R180). -/
def State.writeProduct (s : State) (m : Mat3 Int) : State :=
  { s with w := vecMap residueBits (mvm m s.vector) }

/-- MVM bank (R180): bank 0 is K, bank 1 is KI. Another bank select is no MVM but an illegal word
(R96 (e)), which the decoder never gives; it takes the effect of R127 (log 12). -/
def execMvm (bank : Byte) (s : State) : Host.Outcome State Fault Refusal :=
  if bank = 0#8 then .next (s.writeProduct s.keyMatrix).succeed
  else if bank = 1#8 then .next (s.writeProduct s.inverseBank).succeed
  else .next s.illegalWord

end Sys2Proof.Machine
end

