-- ==== Sys2Proof/Machine/ModularArith.lean ====
section
/-! DEFINITION. The commands of the `modular_inverse_gcd` unit: MOD, XGCD and MODINV. -/

namespace Sys2Proof.Machine

/-- G, X, Y ← a triple (R144, R146). -/
def State.writeTriple (s : State) (t : Int × Int × Int) : State :=
  { s with
    g := BitVec.ofInt 16 t.1
    x := BitVec.ofInt 16 t.2.1
    y := BitVec.ofInt 16 t.2.2 }

/-- `R <- v` (R142, R146). -/
def State.writeR (s : State) (v : Int) : State := { s with r := BitVec.ofInt 16 v }

/-- MOD (R142). -/
def execMod (s : State) : Host.Outcome State Fault Refusal :=
  if s.b.toInt ≤ 0 then .next (s.raise .operand)
  else .next (s.writeR (mod s.a.toInt s.b.toInt)).succeed

/-- XGCD (R144). -/
def execXgcd (s : State) : Host.Outcome State Fault Refusal :=
  if s.a.toInt < 0 ∨ s.b.toInt < 0 then .next (s.raise .operand)
  else .next (s.writeTriple (extendedGCD s.a.toInt s.b.toInt)).succeed

/-- MODINV (R146). "No inverse" is no error (R237). -/
def execModinv (s : State) : Host.Outcome State Fault Refusal :=
  if s.b.toInt ≤ 0 then .next (s.raise .operand)
  else
    let t := extendedGCD (mod s.a.toInt s.b.toInt) s.b.toInt
    if t.1 ≠ 1 then .next (((s.writeTriple t).setNoinv true).writeR 0).succeed
    else .next (((s.writeTriple t).setNoinv false).writeR (mod t.2.1 s.b.toInt)).succeed

end Sys2Proof.Machine
end

