-- ==== Sys2Proof/Machine/System.lean ====
section
/-! DEFINITION. The system commands NOP and RST. -/

namespace Sys2Proof.Machine

/-- NOP (R120). -/
def execNop (s : State) : Host.Outcome State Fault Refusal := .next s.succeed

/-- RST (R121, R261): the reset state with TIN kept, and a response. -/
def execRst (s : State) : Host.Outcome State Fault Refusal := .next s.resetCore.succeed

end Sys2Proof.Machine
end

