-- ==== Sys2Proof/Machine/Transfer.lean ====
section
/-! DEFINITION. The transfer commands WR, RD, WRB and RDB. -/

namespace Sys2Proof.Machine

/-- WR rn, imm16 (R122): IllegalCommand before RangeError (R238). -/
def execWr (rn : Byte) (imm : Half) (s : State) : Host.Outcome State Fault Refusal :=
  match hostRegOfNumber rn with
  | none => .next (s.raise .illegalCommand)
  | some q =>
    if imm.toInt < q.lo ∨ s.hostRegHi q < imm.toInt then .next (s.raise .range)
    else .next (s.writeHostReg q imm.toInt).succeed

/-- RD rn (R123). -/
def execRd (rn : Byte) (s : State) : Host.Outcome State Fault Refusal :=
  match regOfNumber rn with
  | none => .next (s.raise .illegalCommand)
  | some q => .next (s.answer (wordOfInt (s.regValue q)))

/-- WRB addr, byte (R124). -/
def execWrb (addr : Half) (byte : Byte) (s : State) : Host.Outcome State Fault Refusal :=
  match s.memWrite addr.toNat byte with
  | none => .next (s.raise .range)
  | some t => .next t.succeed

/-- RDB addr (R125). -/
def execRdb (addr : Half) (s : State) : Host.Outcome State Fault Refusal :=
  match s.memRead addr.toNat with
  | none => .next (s.raise .range)
  | some v => .next (s.answer (v.zeroExtend 32))

end Sys2Proof.Machine
end

