-- ==== Sys2Proof/Machine/Dispatch.lean ====
section
/-! DEFINITION. Which meaning each command has. -/

namespace Sys2Proof.Machine

/-- One command on one state (R18). -/
def exec (i : Instr) (s : State) : Host.Outcome State Fault Refusal :=
  match i with
  | .nop => Sys2Proof.Machine.execNop s
  | .rst => Sys2Proof.Machine.execRst s
  | .wr rn imm => Sys2Proof.Machine.execWr rn imm s
  | .rd rn => Sys2Proof.Machine.execRd rn s
  | .wrb addr byte => Sys2Proof.Machine.execWrb addr byte s
  | .rdb addr => Sys2Proof.Machine.execRdb addr s
  | .mod => Sys2Proof.Machine.execMod s
  | .xgcd => Sys2Proof.Machine.execXgcd s
  | .modinv => Sys2Proof.Machine.execModinv s
  | .det => Sys2Proof.Machine.execDet s
  | .val => Sys2Proof.Machine.execVal s
  | .adj => Sys2Proof.Machine.execAdj s
  | .minv => Sys2Proof.Machine.execMinv s
  | .mvm bank => Sys2Proof.Machine.execMvm bank s
  | .enc => Sys2Proof.Machine.execEnc s
  | .dec => Sys2Proof.Machine.execDec s

end Sys2Proof.Machine
end

