-- ==== Sys2Proof/Machine/Step.lean ====
section
/-! DEFINITION. One step: the core takes the next host event (R18). -/

namespace Sys2Proof.Machine

/-- The execution of a command word (R95): decode, then the command's rule, or R127. -/
def execWord (w : Word) (s : State) : Host.Outcome State Fault Refusal :=
  match decode w with
  | .ok i => exec i s
  | .error _ => .next s.illegalWord

/-- One step. The next host event leaves the list; a command word is executed, a reset resets; with
no event the core is idle (R8, R18, R260, log 1, 3). -/
def step (s : State) : Host.Outcome State Fault Refusal :=
  match s.events with
  | [] => .next s.idle
  | .reset :: es => .next { s with events := es }.pinReset
  | .command w :: es => execWord w { s with events := es }

/-- The state in which the host's next event is the given command word (log 1). -/
def State.withFetchWord (s : State) (nbits w : Nat) : State :=
  { s with events := .command (commandWord nbits w) :: s.events }

end Sys2Proof.Machine
end

