-- ==== Sys2Proof/Machine/Assembler.lean ====
section
/-! DEFINITION. The assembler's side of the command set: the register names of R98 and the
pseudo-instructions of R99, each an abbreviation for a list of commands. The core knows none of
them. -/

namespace Sys2Proof.Machine

/-- The name of a register as a register operand (R98): the name of R21 without brackets. -/
def regName : Reg → String
  | .status => "STATUS"
  | .a => "A"
  | .b => "B"
  | .g => "G"
  | .x => "X"
  | .y => "Y"
  | .r => "R"
  | .det => "DET"
  | .detm => "DETM"
  | .dinv => "DINV"
  | .tlen => "TLEN"
  | .nlen => "NLEN"
  | .olen => "OLEN"
  | .blk => "BLK"
  | .k i => "K" ++ toString i.val
  | .ki i => "KI" ++ toString i.val
  | .aj i => "AJ" ++ toString i.val
  | .v j => "V" ++ toString j.val
  | .w j => "W" ++ toString j.val

/-- `WR reg, value` (R98): the value as 16-bit two's complement. DESIGN CHOICE (log 20): of a value
outside [-32768, 32767], which has no such pattern (`LDA 70000`, `SETLEN 65541`), the low 16 bits
are encoded. -/
def asmWr (q : Reg) (v : Int) : Instr := .wr (regNumber q) (BitVec.ofInt 16 v)

/-- `RD reg` (R98). -/
def asmRd (q : Reg) : Instr := .rd (regNumber q)

/-- The pseudo-instructions of R99. -/
inductive Pseudo where
  | rds
  | lda (v : Int)
  | ldb (v : Int)
  | setlen (n : Int)
  | ldk (r c : Fin 3) (v : Int)
  | ldkm (m : Mat3 Int)
  | ldvv (u : Vec3 Int)
  | text (t : List Byte)
  | rdk
  | rdki
  | rdaj
  | rdw
  | rdout (n : Nat)
  | rdnt (n : Nat)
  deriving DecidableEq, Repr

/-- Bank index 3·r + c (R15). -/
def bankIndex (r c : Fin 3) : Fin 9 := Fin.ofNat 9 (3 * r.val + c.val)

/-- `WRB` of every byte of a text, from an address upward (R99, TEXT). R99 has texts of at most TMAX
bytes; of an address that does not fit 16 bits the low 16 bits are encoded, a DESIGN CHOICE
(log 20). -/
def asmBytes : Nat → List Byte → List Instr
  | _, [] => []
  | addr, v :: vs => .wrb (BitVec.ofNat 16 addr) v :: asmBytes (addr + 1) vs

/-- `RDB` of `n` addresses from `base` upward (R99, RDOUT and RDNT). R99 puts no bound on `n`; of an
address that does not fit 16 bits the low 16 bits are encoded, a DESIGN CHOICE (log 20). -/
def asmReads (base n : Nat) : List Instr :=
  (List.range n).map (fun i => .rdb (BitVec.ofNat 16 (base + i)))

/-- The expansion of a pseudo-instruction, "in that order" (R99). -/
def expand : Pseudo → List Instr
  | .rds => [asmRd .status]
  | .lda v => [asmWr .a v]
  | .ldb v => [asmWr .b v]
  | .setlen n => [asmWr .tlen n]
  | .ldk r c v => [asmWr (.k (bankIndex r c)) v]
  | .ldkm m =>
    [asmWr (.k 0) m.a, asmWr (.k 1) m.b, asmWr (.k 2) m.c, asmWr (.k 3) m.d, asmWr (.k 4) m.e,
     asmWr (.k 5) m.f, asmWr (.k 6) m.g, asmWr (.k 7) m.h, asmWr (.k 8) m.i]
  | .ldvv u => [asmWr (.v 0) u.v0, asmWr (.v 1) u.v1, asmWr (.v 2) u.v2]
  | .text t => asmBytes 0 t ++ [asmWr .tlen t.length]
  | .rdk => (List.finRange 9).map (fun i => asmRd (.k i))
  | .rdki => (List.finRange 9).map (fun i => asmRd (.ki i))
  | .rdaj => (List.finRange 9).map (fun i => asmRd (.aj i))
  | .rdw => (List.finRange 3).map (fun j => asmRd (.w j))
  | .rdout n => asmReads Config.toutBase n
  | .rdnt n => asmReads Config.ntBase n

end Sys2Proof.Machine
end

