-- ==== Sys2Proof/Safety.lean ====
section
/-! DEFINITION. The terms claims use: the invariant of every reachable state (R41), how a command
ends, and the registers, banks and texts of a state as the mathematics of the spec reads them.
None of these definitions calls a meaning. -/

namespace Sys2Proof.Machine

/-! ### How a command ends -/

/-- `s` after a command other than a read has succeeded with no further write: ERR = 0 and the
response (0, STATUS) (R14, R62). -/
def State.afterSuccess (s : State) : State :=
  { s with
    status := { s.status with err := .none }
    rsp := some ⟨false, Status.word { s.status with err := .none }⟩ }

/-- `s` after a command has raised an error with no further write: ERR = the code and the response
(1, STATUS) (R14, R239). -/
def State.afterError (s : State) (e : ErrCode) : State :=
  { s with
    status := { s.status with err := e }
    rsp := some ⟨true, Status.word { s.status with err := e }⟩ }

/-- `s` after a successful read: the response carries the data, nothing else is written (R70,
R239). -/
def State.afterRead (s : State) (v : Word) : State := { s with rsp := some ⟨false, v⟩ }

/-! ### Registers and banks as mathematics -/

/-- The key matrix, each entry with its sign (R33). -/
def State.keyOf (s : State) : Matrix (Fin 3) (Fin 3) ℤ :=
  !![s.k.a.toInt, s.k.b.toInt, s.k.c.toInt;
     s.k.d.toInt, s.k.e.toInt, s.k.f.toInt;
     s.k.g.toInt, s.k.h.toInt, s.k.i.toInt]

/-- The bank KI as a matrix (R34). -/
def State.inverseOf (s : State) : Matrix (Fin 3) (Fin 3) ℤ :=
  !![(s.ki.a.toNat : ℤ), s.ki.b.toNat, s.ki.c.toNat;
     s.ki.d.toNat, s.ki.e.toNat, s.ki.f.toNat;
     s.ki.g.toNat, s.ki.h.toNat, s.ki.i.toNat]

/-- The bank AJ as a matrix (R35). -/
def State.adjugateOf (s : State) : Matrix (Fin 3) (Fin 3) ℤ :=
  !![(s.aj.a.toNat : ℤ), s.aj.b.toNat, s.aj.c.toNat;
     s.aj.d.toNat, s.aj.e.toNat, s.aj.f.toNat;
     s.aj.g.toNat, s.aj.h.toNat, s.aj.i.toNat]

/-- The bank V as a column vector, each entry with its sign (R36). -/
def State.vectorOf (s : State) : Fin 3 → ℤ := ![s.v.v0.toInt, s.v.v1.toInt, s.v.v2.toInt]

/-- The bank W as a column vector (R37). -/
def State.productOf (s : State) : Fin 3 → ℤ := ![(s.w.v0.toNat : ℤ), s.w.v1.toNat, s.w.v2.toNat]

/-- Every entry of K is in [0, 25] (R164). -/
def State.KeyInRange (s : State) : Prop := ∀ r c, 0 ≤ s.keyOf r c ∧ s.keyOf r c ≤ 25

/-- gcd(mod(det3(K), 26), 26) = 1 (R164). -/
def State.KeyCoprime (s : State) : Prop := Int.gcd (s.keyOf.det % 26) 26 = 1

/-- What DetStage leaves in DET, DETM and DINV for the key of `s` (R25, R165): the determinant, its
residue, and the residue's inverse modulo 26, or 0 when there is none. -/
def DetStageWritten (s t : State) : Prop :=
  t.det.toInt = s.keyOf.det ∧ (t.detm.toNat : ℤ) = s.keyOf.det % 26 ∧ t.dinv.toNat ≤ 25 ∧
    (s.KeyCoprime → ((t.detm.toNat : ℤ) * t.dinv.toNat) % 26 = 1) ∧
    (¬ s.KeyCoprime → t.dinv.toNat = 0)

/-- KI of `t` is the adjugate of K of `s` times DINV of `t`, entry by entry modulo 26 (R172). -/
def InverseWritten (s t : State) : Prop :=
  ∀ r c, t.inverseOf r c = (s.keyOf.adjugate r c * t.dinv.toNat) % 26

/-! ### Texts -/

/-- TIN[0 .. TLEN-1], TIN[0] first (R28, R67). -/
def State.inputText (s : State) : List Byte :=
  (List.range s.tlen.toNat).map (fun i => Memory.read s.mem i)

/-- The code of a lower-case letter, `a` to `z` (R192). -/
abbrev isLowerCode (c : Byte) : Prop := 0x61 ≤ c.toNat ∧ c.toNat ≤ 0x7A

/-- The code of a letter, `A` to `Z` or `a` to `z` (R192). -/
abbrev isLetterCode (c : Byte) : Prop := (0x41 ≤ c.toNat ∧ c.toNat ≤ 0x5A) ∨ isLowerCode c

/-- A letter raised to upper case by its code, any other byte as it is (R192). -/
def upperCode (c : Byte) : Byte := if isLowerCode c then BitVec.ofNat 8 (c.toNat - 0x20) else c

/-- The code of tab, LF, VT, FF, CR or space (R192). -/
abbrev isSpaceCode (c : Byte) : Prop := c.toNat ∈ [0x09, 0x0A, 0x0B, 0x0C, 0x0D, 0x20]

/-- The normal form of a text by the codes of its bytes: the letters in order, raised, and `Z` up
to a multiple of 3 (R196). -/
def normalForm (t : List Byte) : List Byte :=
  (t.filter (fun c => isLetterCode c)).map upperCode ++
    List.replicate ((-((t.filter (fun c => isLetterCode c)).length : ℤ)) % 3).toNat 0x5A#8

/-- The raw text is empty or white space only (R195). -/
def State.EmptyText (s : State) : Prop := ∀ c ∈ s.inputText, isSpaceCode c

/-- NT[0 .. NLEN-1] (R38). -/
def State.normalisedText (s : State) : List Byte :=
  (List.range s.nlen.toNat).map (fun i => Memory.read s.mem (Config.ntBase + i))

/-- TOUT[0 .. OLEN-1] (R38). -/
def State.outputText (s : State) : List Byte :=
  (List.range s.olen.toNat).map (fun i => Memory.read s.mem (Config.toutBase + i))

/-- The number of the letter at a text address, as the block processor reads it from NT (R193). -/
def State.letterAt (s : State) (addr : Nat) : ℤ := ((Memory.read s.mem addr).toNat : ℤ) - 0x41

/-- The vector of block j of NT (R202). -/
def State.blockAt (s : State) (base j : Nat) : Fin 3 → ℤ :=
  ![s.letterAt (base + 3 * j), s.letterAt (base + 3 * j + 1), s.letterAt (base + 3 * j + 2)]

/-- The byte is one of 'A' .. 'Z' (R41 (g)). -/
abbrev isCapital (c : Byte) : Prop := 0x41 ≤ c.toNat ∧ c.toNat ≤ 0x5A

/-- What a successful ENC or DEC with matrix `m` leaves in the text memory and its lengths
(R200 to R203): NT is the normalised text, TOUT its image block by block, and every byte outside
the two is as before. -/
def BlocksWritten (m : Matrix (Fin 3) (Fin 3) ℤ) (s t : State) : Prop :=
  t.nlen.toNat = (normalForm s.inputText).length ∧ t.olen = t.nlen ∧
    t.blk.toNat = t.nlen.toNat / 3 ∧ t.normalisedText = normalForm s.inputText ∧
    (∀ j, j < t.blk.toNat →
      t.blockAt Config.toutBase j = fun r => (m.mulVec (t.blockAt Config.ntBase j)) r % 26) ∧
    ∀ addr, (addr < Config.ntBase ∨ Config.ntBase + t.nlen.toNat ≤ addr) →
      (addr < Config.toutBase ∨ Config.toutBase + t.olen.toNat ≤ addr) →
      Memory.read t.mem addr = Memory.read s.mem addr

/-- The three failing cases of ENC and DEC, in their order (R231, R232, R233, R238): what each
writes, and that it writes nothing else. -/
def CipherFailures (i : Instr) (s : State) : Prop :=
  (s.EmptyText →
    exec i s = .next (State.afterError
      { s with nlen := 0, olen := 0, blk := 0, status := { s.status with fsm := .emptyInput } }
      .emptyInput)) ∧
  (¬ s.EmptyText → ¬ s.KeyInRange →
    ∃ t, exec i s = .next t ∧ DetStageWritten s t ∧
      t = State.afterError
        { s with
          nlen := 0, olen := 0, blk := 0, det := t.det, detm := t.detm, dinv := t.dinv
          status := { s.status with fsm := .invalidMatrix, kval := false } } .validation) ∧
  (¬ s.EmptyText → s.KeyInRange → ¬ s.KeyCoprime →
    ∃ t, exec i s = .next t ∧ DetStageWritten s t ∧
      t = State.afterError
        { s with
          nlen := 0, olen := 0, blk := 0, det := t.det, detm := t.detm, dinv := t.dinv
          status := { s.status with fsm := .invalidMatrix, kval := false } } .singularMatrix)

/-! ### The flags -/

/-- The command writes NOINV: RST, and a MODINV that raises no error (R29). -/
def WritesNoinv (i : Instr) (s : State) : Prop := i = .rst ∨ (i = .modinv ∧ 0 < s.b.toInt)

/-- The command writes KVAL: RST, VAL, and an ENC or DEC of a text that is not empty (R29). -/
def WritesKval (i : Instr) (s : State) : Prop :=
  i = .rst ∨ i = .val ∨ (i ∈ [Instr.enc, .dec] ∧ ¬ s.EmptyText)

/-- The response of the command, if it succeeds, carries data that is not STATUS (R62). -/
def AnswersData (i : Instr) : Prop := (∃ rn : Byte, rn ≠ 0x00 ∧ i = .rd rn) ∨ ∃ addr, i = .rdb addr

/-! ### The invariant -/

/-- The value R42 gives every register, flag and bank after a reset, and that nothing but TIN can
be read from the text memory. -/
def State.AtReset (s : State) : Prop :=
  s.status.word = 0 ∧ s.a = 0 ∧ s.b = 0 ∧ s.g = 0 ∧ s.x = 0 ∧ s.y = 0 ∧ s.r = 0 ∧
    s.det = 0 ∧ s.detm = 0 ∧ s.dinv = 0 ∧ s.tlen = 0 ∧ s.nlen = 0 ∧ s.olen = 0 ∧ s.blk = 0 ∧
    (∀ i, matGet s.k i = 0) ∧ (∀ i, matGet s.ki i = 0) ∧ (∀ i, matGet s.aj i = 0) ∧
    (∀ j, vecGet s.v j = 0) ∧ (∀ j, vecGet s.w j = 0) ∧
    ∀ addr, s.tmax ≤ addr → s.memRead addr = none

/-- What holds of every reachable state: R41 but for its clause (c), which speaks of the command
that wrote last (`DetStageWritten` states it after each such command), and the canonical form of the
text memory, whose entries lie in TIN, NT or TOUT. -/
structure State.Inv (s : State) : Prop where
  /-- R41 (a). -/
  detmAgrees : (s.detm.toNat : ℤ) = s.det.toInt % 26
  /-- R41 (b). -/
  dinvResidue : s.dinv.toNat ≤ 25
  /-- R41 (b). -/
  kiResidues : ∀ i, (matGet s.ki i).toNat ≤ 25
  /-- R41 (b). -/
  ajResidues : ∀ i, (matGet s.aj i).toNat ≤ 25
  /-- R41 (b). -/
  wResidues : ∀ j, (vecGet s.w j).toNat ≤ 25
  /-- R41 (d). -/
  gNonneg : 0 ≤ s.g.toInt
  /-- R41 (d). -/
  rNonneg : 0 ≤ s.r.toInt
  /-- R41 (e). -/
  tlenBound : s.tlen.toNat ≤ s.tmax
  /-- R41 (e). -/
  nlenBlocks : s.nlen.toNat % 3 = 0
  /-- R41 (e). -/
  nlenBound : s.nlen.toNat ≤ s.nmax
  /-- R41 (e): the two are written together. -/
  olenAgrees : s.olen = s.nlen
  /-- R41 (f). -/
  blkAgrees : s.blk.toNat = s.olen.toNat / 3
  /-- R41 (g). -/
  ntCapitals : ∀ c ∈ s.normalisedText, isCapital c
  /-- R41 (g). -/
  toutCapitals : ∀ c ∈ s.outputText, isCapital c
  /-- R41 (h): FSM is Start, Done, InvalidMatrix or EmptyInput. -/
  fsmRests : s.status.fsm ≠ .validate ∧ s.status.fsm ≠ .computeInverse ∧
    s.status.fsm ≠ .iterateBlocks
  /-- R41 (i). -/
  failedEmpty : s.status.fsm = .invalidMatrix ∨ s.status.fsm = .emptyInput → s.nlen = 0
  /-- The canonical form of the text memory (log 6). -/
  memCanonical : Memory.wf s.mem = true
  /-- R38, R64: every byte written lies in one of the three memories. -/
  memPlaces : ∀ p ∈ s.mem, p.1 < s.tmax ∨
    (Config.ntBase ≤ p.1 ∧ p.1 < Config.ntBase + s.nmax) ∨
    (Config.toutBase ≤ p.1 ∧ p.1 < Config.toutBase + s.nmax)

/-- The states a machine of the given capacity, never written since power-up, reaches under a list
of host events (R18). -/
inductive Reachable : State → Prop where
  /-- Reset, with any capacity (R6) and any list of events to come. -/
  | start (c : TextCapacity) (es : List HostEvent) :
      Reachable { State.reset with capacity := c, events := es }
  /-- One more step. -/
  | next {s t : State} : Reachable s → step s = .next t → Reachable t

end Sys2Proof.Machine
end

