-- ==== Sys2Proof/Certificates/Slice0/Obligations.lean ====
section
/-! DEFINITION. The statements for the provers. Each docstring names the rule of spec/ it states;
where a clause rests on a choice of the model it names the log entry. -/

open Sys2Proof Sys2Proof.Machine

/-! ### Encoding and the step -/

/-- R95: decode gives every well-formed command back from its word. -/
def Obligations.DecodeOfEncodeIsTheCommand : Prop :=
  ∀ i : Instr, i.wellFormed = true → decode (encode i) = .ok i

/-- R94, R95: a word is decoded exactly when a row of the opcode map accepts it, the row is unique
and is the command's own, and the word is the command's encoding. -/
def Obligations.DecoderIsTheOpcodeMap : Prop :=
  ∀ w : Word,
    (∀ row ∈ opcodeMap, ∀ row' ∈ opcodeMap,
      row.accepts w = true → row'.accepts w = true → row = row') ∧
    (∀ i, decode w = .ok i → i.wellFormed = true ∧ encode i = w ∧
      ∃ row ∈ opcodeMap, row.accepts w = true ∧ row.mnemonic = i.mnemonic) ∧
    ∀ e, decode w = .error e → ∀ row ∈ opcodeMap, row.accepts w = false

/-- R96: which words are illegal, clause by clause, on the fields of the word. -/
def Obligations.IllegalWordsAreThoseOfTheRule : Prop :=
  ∀ w : Word, (∃ e, decode w = .error e) ↔
    ((opField w).toNat ∉ [0x01, 0x02, 0x10, 0x11, 0x12, 0x13, 0x20, 0x21, 0x22, 0x30, 0x31, 0x32,
        0x33, 0x34, 0x40, 0x41] ∨
      ((opField w).toNat ∈ [0x01, 0x02, 0x20, 0x21, 0x22, 0x30, 0x31, 0x32, 0x33, 0x40, 0x41] ∧
        (f8Field w ≠ 0 ∨ f16Field w ≠ 0)) ∨
      ((opField w).toNat ∈ [0x11, 0x34] ∧ f16Field w ≠ 0) ∨
      ((opField w).toNat = 0x13 ∧ f8Field w ≠ 0) ∨
      ((opField w).toNat = 0x34 ∧ f8Field w ≠ 0 ∧ f8Field w ≠ 1))

/-- Words written out from R94 and R98 decode to the commands they stand for. -/
def Obligations.WrittenWordsDecode : Prop :=
  decode 0x01000000#32 = .ok .nop ∧
    decode 0x1014FFFD#32 = .ok (.wr 0x14#8 0xFFFD#16) ∧
    decode 0x11060000#32 = .ok (.rd 0x06#8) ∧
    decode 0x124C0002#32 = .ok (.wrb 0x0002#16 0x4C#8) ∧
    decode 0x13008000#32 = .ok (.rdb 0x8000#16) ∧
    decode 0x22000000#32 = .ok .modinv ∧
    decode 0x34010000#32 = .ok (.mvm 1#8) ∧
    decode 0x41000000#32 = .ok .dec

/-- A step at a state whose next host event is a command word runs the decoded command on the
state without that event (R18, R95; the event list is log 1). -/
def Obligations.StepRunsTheDecodedCommand : Prop :=
  ∀ (s : State) (w : Word) (es : List HostEvent) (i : Instr),
    s.events = .command w :: es → decode w = .ok i → step s = exec i { s with events := es }

/-- R127: an illegal word writes ERR ← 4 and nothing else, responds (1, STATUS), and the next
command can follow. -/
def Obligations.IllegalWordRaisesIllegalCommand : Prop :=
  ∀ (s : State) (w : Word) (es : List HostEvent) (e : DecodeError),
    s.events = .command w :: es → decode w = .error e →
      step s = .next (State.afterError { s with events := es } .illegalCommand)

/-- R62: every accepted command gets exactly one response; it carries STATUS, with `rsp_err` = 1
exactly when ERR of the command is not 0, but for a read that succeeds. -/
def Obligations.EveryCommandGetsOneResponse : Prop :=
  ∀ (s : State) (w : Word) (es : List HostEvent), s.events = .command w :: es →
    ∃ t p, step s = .next t ∧ t.events = es ∧ t.rsp = some p ∧
      (p.err = true → p.data = t.status.word ∧ t.status.err ≠ .none) ∧
      (p.err = false → (∀ rn, decode w ≠ .ok (.rd rn)) → (∀ a, decode w ≠ .ok (.rdb a)) →
        p.data = t.status.word ∧ t.status.err = .none) ∧
      (∀ rn, decode w = .ok (.rd rn) → p.err = false →
        ∃ q, regOfNumber rn = some q ∧ p.data = BitVec.ofInt 32 (s.regValue q)) ∧
      (∀ a, decode w = .ok (.rdb a) → p.err = false →
        ∃ v, s.memRead a.toNat = some v ∧ p.data = v.zeroExtend 32)

/-- R8, R260, R272: with no event the core changes nothing of its state, and `rst` gives the reset
state without a response. That an idle step and a reset leave no response on the port, and that a reset and RST
keep the bytes of NT and TOUT too, which nothing can then read, is the model's choice (log 2, 3,
7). -/
def Obligations.IdleAndResetSteps : Prop :=
  ∀ s : State,
    (s.events = [] → step s = .next { s with rsp := none }) ∧
    (∀ es, s.events = .reset :: es →
      ∃ t, step s = .next t ∧ t.AtReset ∧ t.mem = s.mem ∧ t.capacity = s.capacity ∧
        t.events = es ∧ t.rsp = none) ∧
    ∃ t, exec .rst s = .next t ∧ t.mem = s.mem

/-- The machine never stops: every state accepts every event (R18, R241). -/
def Obligations.EveryStepAnswersANextState : Prop := ∀ s : State, ∃ t, step s = .next t

/-! ### Reset and the invariant -/

/-- R42: the state after a hardware reset and after RST. Every register, flag and bank has the
value R42 gives, at power-up the bytes of TIN are those of the unspecified `tin0` (R262), and a
later reset and RST leave them. -/
def Obligations.ResetStateHoldsItsValues : Prop :=
  State.reset.AtReset ∧
    (∀ addr, addr < State.reset.tmax → State.reset.memRead addr = some (Config.tin0 addr)) ∧
    (∀ (s : State) (es : List HostEvent), s.events = .reset :: es →
      ∃ t, step s = .next t ∧ t.AtReset ∧
        ∀ addr, addr < s.tmax → t.memRead addr = s.memRead addr) ∧
    ∀ s : State, ∃ t, exec .rst s = .next t ∧ t.AtReset ∧
      ∀ addr, addr < s.tmax → t.memRead addr = s.memRead addr

/-- R121: RST. -/
def Obligations.RstResetsAndKeepsTheText : Prop :=
  decode 0x02000000#32 = .ok .rst ∧
    ∀ s : State, ∃ t, exec .rst s = .next t ∧ t.AtReset ∧
      (∀ addr, addr < s.tmax → t.memRead addr = s.memRead addr) ∧
      t.capacity = s.capacity ∧ t.events = s.events ∧ t.rsp = some ⟨false, 0⟩

/-- The invariant holds at reset (R41, R42). -/
def Obligations.ResetHoldsTheInvariant : Prop := State.reset.Inv

/-- R41: every step keeps the invariant, from every state that has it. -/
def Obligations.EveryStepKeepsTheInvariant : Prop :=
  ∀ s t : State, s.Inv → step s = .next t → t.Inv

/-- R41: the invariant holds of every reachable state, for every capacity. -/
def Obligations.ReachableStatesHoldTheInvariant : Prop := ∀ s : State, Reachable s → s.Inv

/-- R30: the fields of STATUS stand at their bits and bits 31:9 read as 0; the codes of ERR are
those of R230 and the values of FSM those of R31. The host can read it and cannot write it. -/
def Obligations.StatusFieldsStandAtTheirBits : Prop :=
  [ErrCode.none, .emptyInput, .validation, .singularMatrix, .illegalCommand, .operand,
      .range].map errCode = [0, 1, 2, 3, 4, 5, 6] ∧
  [FsmState.start, .validate, .computeInverse, .iterateBlocks, .done, .invalidMatrix,
      .emptyInput].map fsmCode = [0, 1, 2, 3, 4, 5, 6] ∧
  (∀ (s : State) (imm : Half), exec (.wr 0x00 imm) s = .next (s.afterError .illegalCommand) ∧
    exec (.rd 0x00) s = .next (s.afterRead s.status.word)) ∧
  ∀ u : Status,
    u.word.extractLsb' 0 4 = errCode u.err ∧ u.word.extractLsb' 4 3 = fsmCode u.fsm ∧
      u.word.extractLsb' 7 1 = BitVec.ofBool u.noinv ∧
      u.word.extractLsb' 8 1 = BitVec.ofBool u.kval ∧ u.word.extractLsb' 9 23 = 0

/-! ### System and transfer commands -/

/-- R120: NOP. -/
def Obligations.NopOnlyClearsTheError : Prop :=
  decode 0x01000000#32 = .ok .nop ∧ ∀ s : State, exec .nop s = .next s.afterSuccess

/-- R122: WR to each host-writable register, and what it raises elsewhere. -/
def Obligations.WrWritesTheHostWritableRegisters : Prop :=
  (∀ rn imm, decode (0x10#8 ++ rn ++ imm) = .ok (.wr rn imm)) ∧
  ∀ (s : State) (imm : Half),
    exec (.wr 0x01 imm) s = .next { s with a := imm }.afterSuccess ∧
    exec (.wr 0x02 imm) s = .next { s with b := imm }.afterSuccess ∧
    (imm.toInt < 0 ∨ (s.tmax : ℤ) < imm.toInt →
      exec (.wr 0x0A imm) s = .next (s.afterError .range)) ∧
    (0 ≤ imm.toInt ∧ imm.toInt ≤ s.tmax →
      exec (.wr 0x0A imm) s = .next { s with tlen := imm }.afterSuccess) ∧
    (∀ rn : Byte, 0x10 ≤ rn.toNat → rn.toNat ≤ 0x18 →
      (imm.toInt < -128 ∨ 127 < imm.toInt → exec (.wr rn imm) s = .next (s.afterError .range)) ∧
      (-128 ≤ imm.toInt ∧ imm.toInt ≤ 127 →
        ∃ t, exec (.wr rn imm) s = .next t ∧ t = ({ s with k := t.k } : State).afterSuccess ∧
          ∀ i : Fin 9, (matGet t.k i).toInt =
            if rn.toNat = 0x10 + i.val then imm.toInt else (matGet s.k i).toInt)) ∧
    (∀ rn : Byte, 0x40 ≤ rn.toNat → rn.toNat ≤ 0x42 →
      (imm.toInt < -128 ∨ 127 < imm.toInt → exec (.wr rn imm) s = .next (s.afterError .range)) ∧
      (-128 ≤ imm.toInt ∧ imm.toInt ≤ 127 →
        ∃ t, exec (.wr rn imm) s = .next t ∧ t = ({ s with v := t.v } : State).afterSuccess ∧
          ∀ j : Fin 3, (vecGet t.v j).toInt =
            if rn.toNat = 0x40 + j.val then imm.toInt else (vecGet s.v j).toInt)) ∧
    (∀ rn : Byte, rn.toNat ∉ [0x01, 0x02, 0x0A] → ¬ (0x10 ≤ rn.toNat ∧ rn.toNat ≤ 0x18) →
      ¬ (0x40 ≤ rn.toNat ∧ rn.toNat ≤ 0x42) →
      exec (.wr rn imm) s = .next (s.afterError .illegalCommand))

/-- R123: RD of each mapped register, with the extension of its type, and of an unmapped number.
No state is written by a read that succeeds. -/
def Obligations.RdReadsEveryMappedRegister : Prop :=
  (∀ rn : Byte, decode (0x11#8 ++ rn ++ 0#16) = .ok (.rd rn)) ∧
  ∀ s : State,
    exec (.rd 0x00) s = .next (s.afterRead s.status.word) ∧
    exec (.rd 0x01) s = .next (s.afterRead (s.a.signExtend 32)) ∧
    exec (.rd 0x02) s = .next (s.afterRead (s.b.signExtend 32)) ∧
    exec (.rd 0x03) s = .next (s.afterRead (s.g.signExtend 32)) ∧
    exec (.rd 0x04) s = .next (s.afterRead (s.x.signExtend 32)) ∧
    exec (.rd 0x05) s = .next (s.afterRead (s.y.signExtend 32)) ∧
    exec (.rd 0x06) s = .next (s.afterRead (s.r.signExtend 32)) ∧
    exec (.rd 0x07) s = .next (s.afterRead s.det) ∧
    exec (.rd 0x08) s = .next (s.afterRead (s.detm.zeroExtend 32)) ∧
    exec (.rd 0x09) s = .next (s.afterRead (s.dinv.zeroExtend 32)) ∧
    exec (.rd 0x0A) s = .next (s.afterRead (s.tlen.zeroExtend 32)) ∧
    exec (.rd 0x0B) s = .next (s.afterRead (s.nlen.zeroExtend 32)) ∧
    exec (.rd 0x0C) s = .next (s.afterRead (s.olen.zeroExtend 32)) ∧
    exec (.rd 0x0D) s = .next (s.afterRead (s.blk.zeroExtend 32)) ∧
    (∀ i : Fin 9, ∀ rn : Byte, rn.toNat = 0x10 + i.val →
      exec (.rd rn) s = .next (s.afterRead ((matGet s.k i).signExtend 32))) ∧
    (∀ i : Fin 9, ∀ rn : Byte, rn.toNat = 0x20 + i.val →
      exec (.rd rn) s = .next (s.afterRead ((matGet s.ki i).zeroExtend 32))) ∧
    (∀ i : Fin 9, ∀ rn : Byte, rn.toNat = 0x30 + i.val →
      exec (.rd rn) s = .next (s.afterRead ((matGet s.aj i).zeroExtend 32))) ∧
    (∀ j : Fin 3, ∀ rn : Byte, rn.toNat = 0x40 + j.val →
      exec (.rd rn) s = .next (s.afterRead ((vecGet s.v j).signExtend 32))) ∧
    (∀ j : Fin 3, ∀ rn : Byte, rn.toNat = 0x48 + j.val →
      exec (.rd rn) s = .next (s.afterRead ((vecGet s.w j).zeroExtend 32))) ∧
    (∀ rn : Byte, (rn.toNat ∈ [0x0E, 0x0F] ∨ (0x19 ≤ rn.toNat ∧ rn.toNat ≤ 0x1F) ∨
        (0x29 ≤ rn.toNat ∧ rn.toNat ≤ 0x2F) ∨ (0x39 ≤ rn.toNat ∧ rn.toNat ≤ 0x3F) ∨
        (0x43 ≤ rn.toNat ∧ rn.toNat ≤ 0x47) ∨ 0x4B ≤ rn.toNat) →
      exec (.rd rn) s = .next (s.afterError .illegalCommand))

/-- R124: WRB stores one byte of TIN, every other byte reads as before, and no other address can
be written. -/
def Obligations.WrbStoresOneByteOfTin : Prop :=
  (∀ (addr : Half) (v : Byte), decode (0x12#8 ++ v ++ addr) = .ok (.wrb addr v)) ∧
  ∀ (s : State) (addr : Half) (v : Byte),
    (addr.toNat < s.tmax →
      ∃ t, exec (.wrb addr v) s = .next t ∧ t = ({ s with mem := t.mem } : State).afterSuccess ∧
        Memory.read t.mem addr.toNat = v ∧
        ∀ other, other ≠ addr.toNat → Memory.read t.mem other = Memory.read s.mem other) ∧
    (s.tmax ≤ addr.toNat → exec (.wrb addr v) s = .next (s.afterError .range))

/-- R125: RDB reads TIN below TMAX, NT below NLEN and TOUT below OLEN, and raises RangeError at
every other address. No state is written by a read that succeeds. -/
def Obligations.RdbReadsTheThreeWindows : Prop :=
  (∀ addr : Half, decode (0x13#8 ++ 0#8 ++ addr) = .ok (.rdb addr)) ∧
  ∀ (s : State) (addr : Half),
    ((addr.toNat < s.tmax ∨ (0x4000 ≤ addr.toNat ∧ addr.toNat < 0x4000 + s.nlen.toNat) ∨
        (0x8000 ≤ addr.toNat ∧ addr.toNat < 0x8000 + s.olen.toNat)) →
      exec (.rdb addr) s =
        .next (s.afterRead ((Memory.read s.mem addr.toNat).zeroExtend 32))) ∧
    (¬ (addr.toNat < s.tmax ∨ (0x4000 ≤ addr.toNat ∧ addr.toNat < 0x4000 + s.nlen.toNat) ∨
        (0x8000 ≤ addr.toNat ∧ addr.toNat < 0x8000 + s.olen.toNat)) →
      exec (.rdb addr) s = .next (s.afterError .range))

/-! ### The modular_inverse_gcd unit -/

/-- R140: `mod(n, m)` for m > 0 is the integer in [0, m) congruent to n. -/
def Obligations.ModIsTheTrueModulo : Prop :=
  ∀ n m : ℤ, 0 < m →
    (0 ≤ mod n m ∧ mod n m < m ∧ m ∣ n - mod n m ∧ mod n m = n - m * ⌊(n : ℚ) / m⌋) ∧
    (∀ r, 0 ≤ r → r < m → m ∣ n - r → r = mod n m) ∧ (0 ≤ n → mod n m = Int.tmod n m) ∧
    mod (-3) 26 = 23 ∧ Int.tmod (-3) 26 = -3

/-- R143: `extendedGCD` satisfies its recursion, and its result is a Bezout triple. -/
def Obligations.ExtendedGcdFollowsItsRecursion : Prop :=
  (∀ b : ℤ, 0 ≤ b → extendedGCD 0 b = (b, 0, 1)) ∧
  ∀ a b : ℤ, 0 < a → 0 ≤ b →
    (extendedGCD a b =
      ((extendedGCD (b % a) a).1,
        (extendedGCD (b % a) a).2.2 - (b / a) * (extendedGCD (b % a) a).2.1,
        (extendedGCD (b % a) a).2.1)) ∧
    a * (extendedGCD a b).2.1 + b * (extendedGCD a b).2.2 = (extendedGCD a b).1 ∧
    (extendedGCD a b).1 = Int.gcd a b

/-- R147: the size of the results. -/
def Obligations.ExtendedGcdResultsFitTheirRegisters : Prop :=
  extendedGCD 0 0 = (0, 0, 1) ∧
  ∀ a b : ℤ, 0 ≤ a → 0 ≤ b →
    ((a ≠ 0 ∨ b ≠ 0) → (extendedGCD a b).1 = Int.gcd a b ∧ (extendedGCD a b).1 ≤ max a b ∧
      (0 < a → |(extendedGCD a b).2.1| ≤ max 1 (b / Int.gcd a b) ∧
        |(extendedGCD a b).2.2| ≤ max 1 (a / Int.gcd a b)) ∧
      (a = 0 → (extendedGCD a b).2.1 = 0 ∧ (extendedGCD a b).2.2 = 1)) ∧
    (extendedGCD a b).1 ≤ max 1 (max a b) ∧ |(extendedGCD a b).2.1| ≤ max 1 (max a b) ∧
    |(extendedGCD a b).2.2| ≤ max 1 (max a b) ∧
    (a ≤ 32767 → b ≤ 32767 → max 1 (max a b) ≤ 32767)

/-- R142: MOD. -/
def Obligations.ModWritesTheModulo : Prop :=
  decode 0x20000000#32 = .ok .mod ∧
  ∀ s : State,
    (0 < s.b.toInt →
      ∃ t, exec .mod s = .next t ∧ t = ({ s with r := t.r } : State).afterSuccess ∧
        t.r.toInt = s.a.toInt % s.b.toInt) ∧
    (s.b.toInt ≤ 0 → exec .mod s = .next (s.afterError .operand))

/-- R144: XGCD. -/
def Obligations.XgcdWritesTheTriple : Prop :=
  decode 0x21000000#32 = .ok .xgcd ∧
  ∀ s : State,
    (0 ≤ s.a.toInt → 0 ≤ s.b.toInt →
      ∃ t, exec .xgcd s = .next t ∧
        t = ({ s with g := t.g, x := t.x, y := t.y } : State).afterSuccess ∧
        (t.g.toInt, t.x.toInt, t.y.toInt) = extendedGCD s.a.toInt s.b.toInt ∧
        t.g.toInt = Int.gcd s.a.toInt s.b.toInt ∧
        s.a.toInt * t.x.toInt + s.b.toInt * t.y.toInt = t.g.toInt) ∧
    (s.a.toInt < 0 ∨ s.b.toInt < 0 → exec .xgcd s = .next (s.afterError .operand))

/-- R146: MODINV. -/
def Obligations.ModinvWritesTheInverse : Prop :=
  decode 0x22000000#32 = .ok .modinv ∧
  ∀ s : State,
    (0 < s.b.toInt →
      ∃ t, exec .modinv s = .next t ∧
        t = ({ s with
              g := t.g, x := t.x, y := t.y, r := t.r
              status := { s.status with noinv := t.status.noinv } } : State).afterSuccess ∧
        (t.g.toInt, t.x.toInt, t.y.toInt) =
          extendedGCD (s.a.toInt % s.b.toInt) s.b.toInt ∧
        t.g.toInt = Int.gcd s.a.toInt s.b.toInt ∧
        (t.g.toInt ≠ 1 → t.status.noinv = true ∧ t.r = 0) ∧
        (t.g.toInt = 1 → t.status.noinv = false ∧ t.r.toInt = t.x.toInt % s.b.toInt ∧
          (s.a.toInt * t.r.toInt) % s.b.toInt = 1 % s.b.toInt)) ∧
    (s.b.toInt ≤ 0 → exec .modinv s = .next (s.afterError .operand))

/-- R151: the modular inverse modulo 26, property and table. -/
def Obligations.InversesModulo26 : Prop :=
  (∀ a : ℤ, 1 ≤ a → a ≤ 25 →
    (modInverse a 26 = none ↔ Int.gcd a 26 ≠ 1) ∧
    ∀ v, modInverse a 26 = some v → mod (a * v) 26 = 1) ∧
  [1, 3, 5, 7, 9, 11, 15, 17, 19, 21, 23, 25].map (fun a => modInverse a 26) =
    [1, 9, 21, 15, 3, 19, 7, 23, 11, 5, 17, 25].map some ∧
  ∀ a ∈ [0, 2, 4, 6, 8, 10, 12, 13, 14, 16, 18, 20, 22, 24], modInverse a 26 = none

/-! ### The matrix units -/

/-- R160: DET. -/
def Obligations.DetWritesTheDeterminant : Prop :=
  decode 0x30000000#32 = .ok .det ∧
  ∀ s : State, ∃ t, exec .det s = .next t ∧
    t = ({ s with det := t.det, detm := t.detm } : State).afterSuccess ∧
    t.det.toInt = s.keyOf.det ∧ (t.detm.toNat : ℤ) = s.keyOf.det % 26

/-- R161: the size of the determinant, for the entries K can hold and for a valid key, with the
extreme values and the matrices of corner entries that reach them in magnitude. -/
def Obligations.DeterminantSize : Prop :=
  (∀ m : Mat3 ℤ, (∀ i, -128 ≤ matGet m i ∧ matGet m i ≤ 127) →
    |det3 m| ≤ 8388225 ∧ |det3 m| ≤ 12582912) ∧
  (∃ m : Mat3 ℤ, (∀ i, matGet m i = -128 ∨ matGet m i = 127) ∧ |det3 m| = 8388225) ∧
  (∀ m : Mat3 ℤ, (∀ i, 0 ≤ matGet m i ∧ matGet m i ≤ 25) →
    |det3 m| ≤ 31250 ∧ |det3 m| ≤ 46875) ∧
  ∃ m : Mat3 ℤ, (∀ i, matGet m i = 0 ∨ matGet m i = 25) ∧ |det3 m| = 31250

/-- R163: VAL. -/
def Obligations.ValWritesTheValidity : Prop :=
  decode 0x31000000#32 = .ok .val ∧
  ∀ s : State, ∃ t, exec .val s = .next t ∧
    t = ({ s with
          det := t.det, detm := t.detm, dinv := t.dinv
          status := { s.status with kval := t.status.kval } } : State).afterSuccess ∧
    DetStageWritten s t ∧ (t.status.kval = true ↔ s.KeyInRange ∧ s.KeyCoprime)

/-- R166: reducing the entries first changes nothing modulo 26. -/
def Obligations.ReducingFirstKeepsTheResidue : Prop :=
  ∀ m : Mat3 ℤ,
    mod (det3 m) 26 = mod (det3 (matMap (fun n => mod n 26) m)) 26 ∧
    (detLocals m).dinv = (detLocals (matMap (fun n => mod n 26) m)).dinv ∧
    (keyInRange m = true → det3 m = det3 (matMap (fun n => mod n 26) m))

/-- R168: a key with two equal rows has determinant 0, is not valid, and MINV, ENC and DEC on a
text that is not empty fail with SingularMatrixError; a key whose determinant is even or 13 modulo
26 is not valid either. -/
def Obligations.EqualRowsAreRejected : Prop :=
  extendedGCD 0 26 = (26, 0, 1) ∧
  (∀ s : State, (∃ r r', r ≠ r' ∧ s.keyOf r = s.keyOf r') →
    (∃ t, exec .val s = .next t ∧ t.det = 0 ∧ t.detm = 0 ∧ t.dinv = 0 ∧ t.status.kval = false) ∧
    (∃ t, exec .minv s = .next t ∧ t.status.err = .singularMatrix) ∧
    (s.KeyInRange → ¬ s.EmptyText → ∀ i ∈ [Instr.enc, Instr.dec],
      ∃ t, exec i s = .next t ∧ t.status.err = .singularMatrix)) ∧
  ∀ s : State, s.keyOf.det % 2 = 0 ∨ s.keyOf.det % 26 = 13 →
    ∃ t, exec .val s = .next t ∧ t.dinv = 0 ∧ t.status.kval = false

/-- R170: ADJ. -/
def Obligations.AdjWritesTheAdjugate : Prop :=
  decode 0x32000000#32 = .ok .adj ∧
  ∀ s : State, ∃ t, exec .adj s = .next t ∧ t = ({ s with aj := t.aj } : State).afterSuccess ∧
    ∀ r c, t.adjugateOf r c = s.keyOf.adjugate r c % 26

/-- R172: MINV. -/
def Obligations.MinvWritesTheInverse : Prop :=
  decode 0x33000000#32 = .ok .minv ∧
  ∀ s : State,
    (s.KeyCoprime →
      ∃ t, exec .minv s = .next t ∧
        t = ({ s with det := t.det, detm := t.detm, dinv := t.dinv, ki := t.ki }
              : State).afterSuccess ∧
        DetStageWritten s t ∧ InverseWritten s t) ∧
    (¬ s.KeyCoprime →
      ∃ t, exec .minv s = .next t ∧
        t = ({ s with det := t.det, detm := t.detm, dinv := t.dinv }
              : State).afterError .singularMatrix ∧
        DetStageWritten s t)

/-- R174: after a MINV that succeeds, K and KI are inverse to one another modulo 26, and MVM's
function with KI undoes the one with K. -/
def Obligations.InverseBankInvertsTheKey : Prop :=
  ∀ s t : State, exec .minv s = .next t → t.status.err = .none →
    (∀ r c, (t.keyOf * t.inverseOf) r c % 26 = if r = c then 1 else 0) ∧
    (∀ r c, (t.inverseOf * t.keyOf) r c % 26 = if r = c then 1 else 0) ∧
    ∀ v : Vec3 ℤ, mvm t.inverseBank (mvm t.keyMatrix v) = vecMap (fun n => mod n 26) v

/-- R175: KI is AJ times DINV, and neither reducing the adjugate nor reducing the entries of the
key first changes AJ, DETM or KI. -/
def Obligations.InverseIsAdjugateTimesDinv : Prop :=
  (∀ (m : Mat3 ℤ) (dinv : ℤ),
    inverseEntries m dinv = matMap (fun n => mod (mod n 26 * dinv) 26) (adj m) ∧
    inverseEntries m dinv = inverseEntries (matMap (fun n => mod n 26) m) dinv ∧
    matMap (fun n => mod n 26) (adj m) =
      matMap (fun n => mod n 26) (adj (matMap (fun n => mod n 26) m)) ∧
    (detLocals m).dm = (detLocals (matMap (fun n => mod n 26) m)).dm ∧
    (detLocals m).dinv = (detLocals (matMap (fun n => mod n 26) m)).dinv) ∧
  ∀ s t u : State, exec .minv s = .next t → t.status.err = .none → exec .adj t = .next u →
    ∀ r c, u.inverseOf r c = (u.adjugateOf r c * u.dinv.toNat) % 26

/-- R176: MINV succeeds exactly when DETM is one of the twelve residues coprime with 26. -/
def Obligations.MinvSucceedsOnTwelveResidues : Prop :=
  ∀ s t : State, exec .minv s = .next t →
    (t.status.err = .none ↔ t.detm.toNat ∈ [1, 3, 5, 7, 9, 11, 15, 17, 19, 21, 23, 25])

/-- R180: MVM with each bank. A word with another bank select is illegal. -/
def Obligations.MvmWritesTheProduct : Prop :=
  decode 0x34000000#32 = .ok (.mvm 0) ∧ decode 0x34010000#32 = .ok (.mvm 1) ∧
  (∀ bank : Byte, bank ≠ 0 → bank ≠ 1 → ∃ e, decode (0x34#8 ++ bank ++ 0#16) = .error e) ∧
  ∀ s : State,
    (∃ t, exec (.mvm 0) s = .next t ∧ t = ({ s with w := t.w } : State).afterSuccess ∧
      ∀ r, t.productOf r = s.keyOf.mulVec s.vectorOf r % 26) ∧
    ∃ t, exec (.mvm 1) s = .next t ∧ t = ({ s with w := t.w } : State).afterSuccess ∧
      ∀ r, t.productOf r = s.inverseOf.mulVec s.vectorOf r % 26

/-- R182: the laws of mvm. -/
def Obligations.LawsOfTheProduct : Prop :=
  (∀ (m : Mat3 ℤ) (v : Vec3 ℤ),
    mvm m v = mvm (matMap (fun n => mod n 26) m) (vecMap (fun n => mod n 26) v)) ∧
  (∀ (s t : State) (v : Vec3 ℤ), exec .minv s = .next t → t.status.err = .none →
    mvm t.inverseBank (mvm t.keyMatrix v) = vecMap (fun n => mod n 26) v ∧
    mvm t.keyMatrix (mvm t.inverseBank v) = vecMap (fun n => mod n 26) v ∧
    ((∀ j, 0 ≤ vecGet v j ∧ vecGet v j ≤ 25) → mvm t.inverseBank (mvm t.keyMatrix v) = v)) ∧
  ∀ (m m' : Mat3 ℤ) (v : Vec3 ℤ),
    (m.a = m'.a → m.b = m'.b → m.c = m'.c → (mvm m v).v0 = (mvm m' v).v0) ∧
    (m.d = m'.d → m.e = m'.e → m.f = m'.f → (mvm m v).v1 = (mvm m' v).v1) ∧
    (m.g = m'.g → m.h = m'.h → m.i = m'.i → (mvm m v).v2 = (mvm m' v).v2)

/-! ### Text -/

/-- R194: the two codec functions are inverse on their domains; the number of a letter is its
raised code less 0x41 (R193). -/
def Obligations.CodecIsABijection : Prop :=
  (∀ n : ℤ, 0 ≤ n → n ≤ 25 →
    ((numberToLetter n).toNat : ℤ) = 0x41 + n ∧ letterToNumber (numberToLetter n) = n) ∧
  ∀ c : Byte, isLetterCode c →
    letterToNumber c = (upperCode c).toNat - 0x41 ∧ numberToLetter (letterToNumber c) = upperCode c

/-- R196: the normaliser, with the letters and the raising by the byte codes of R192. -/
def Obligations.PrepareTextNormalises : Prop :=
  ∀ t : List Byte,
    prepareText t = normalForm t ∧
    (∀ c ∈ prepareText t, isCapital c) ∧ (prepareText t).length % 3 = 0 ∧
    (prepareText t).length ≤ 3 * ((t.length + 2) / 3) ∧
    ((∀ c ∈ t, ¬ isLetterCode c) → prepareText t = []) ∧
    prepareText (prepareText t) = prepareText t

/-- R208: no normalised text overflows NT and TOUT, and no text is too long for ENC or DEC. -/
def Obligations.NormalisedTextFits : Prop :=
  ∀ s : State, s.tlen.toNat ≤ s.tmax →
    (s.inputText.filter (fun c => isLetterCode c)).length ≤ s.tlen.toNat ∧
    (normalForm s.inputText).length ≤ s.nmax ∧ (normalForm s.inputText).length / 3 ≤ s.nmax / 3 ∧
    ∀ t, ∀ i ∈ [Instr.enc, Instr.dec], exec i s = .next t →
      t.nlen.toNat ≤ s.nmax ∧ t.blk.toNat ≤ s.nmax / 3 ∧
        t.status.err ∈ [.none, .emptyInput, .validation, .singularMatrix]

/-! ### The block processor -/

/-- R200: ENC, every path. TLEN ≤ TMAX is a clause of the invariant. -/
def Obligations.EncEncrypts : Prop :=
  decode 0x40000000#32 = .ok .enc ∧
  ∀ s : State, CipherFailures .enc s ∧
    (s.tlen.toNat ≤ s.tmax → ¬ s.EmptyText → s.KeyInRange → s.KeyCoprime →
      ∃ t, exec .enc s = .next t ∧
        t = ({ s with
              mem := t.mem, nlen := t.nlen, olen := t.olen, blk := t.blk
              det := t.det, detm := t.detm, dinv := t.dinv
              status := { s.status with fsm := .done, kval := true } } : State).afterSuccess ∧
        DetStageWritten s t ∧ BlocksWritten s.keyOf s t)

/-- R201: DEC, every path. TLEN ≤ TMAX is a clause of the invariant. -/
def Obligations.DecDecrypts : Prop :=
  decode 0x41000000#32 = .ok .dec ∧
  ∀ s : State, CipherFailures .dec s ∧
    (s.tlen.toNat ≤ s.tmax → ¬ s.EmptyText → s.KeyInRange → s.KeyCoprime →
      ∃ t, exec .dec s = .next t ∧
        t = ({ s with
              mem := t.mem, nlen := t.nlen, olen := t.olen, blk := t.blk
              det := t.det, detm := t.detm, dinv := t.dinv, ki := t.ki
              status := { s.status with fsm := .done, kval := true } } : State).afterSuccess ∧
        DetStageWritten s t ∧ InverseWritten s t ∧ BlocksWritten t.inverseOf s t)

/-- R204: a failing ENC or DEC leaves nothing of NT or TOUT readable, whatever an earlier command
left, and a succeeding one leaves both complete. -/
def Obligations.NoPartialOutput : Prop :=
  ∀ (s t : State), ∀ i ∈ [Instr.enc, Instr.dec], s.tlen.toNat ≤ s.tmax → exec i s = .next t →
    (t.status.err ≠ .none → t.nlen = 0 ∧ t.olen = 0 ∧
      ∀ addr, t.tmax ≤ addr → t.memRead addr = none) ∧
    (t.status.err = .none → t.normalisedText = normalForm s.inputText ∧
      t.outputText.length = (normalForm s.inputText).length)

/-- R205: a text without letters that is not empty input. -/
def Obligations.LetterlessTextGivesEmptyOutput : Prop :=
  ∀ s : State, ∀ i ∈ [Instr.enc, Instr.dec], ¬ s.EmptyText →
    (∀ c ∈ s.inputText, ¬ isLetterCode c) → s.KeyInRange → s.KeyCoprime →
    isEmptyInput s.rawText = false ∧ prepareText s.rawText = [] ∧
      ∃ t, exec i s = .next t ∧ t.rsp = some ⟨false, t.status.word⟩ ∧ t.status.err = .none ∧
        t.nlen = 0 ∧ t.olen = 0 ∧ t.blk = 0 ∧ t.status.fsm = .done

/-- R206: the round trip. ENC succeeds on a text with a letter; in any state with the same key
whose raw text is that ciphertext, DEC succeeds and gives the normalised plaintext. For a text
without a letter it does not hold: ENC fails, or its ciphertext is empty and DEC of it fails. -/
def Obligations.DecryptionUndoesEncryption : Prop :=
  (∀ s : State, s.tlen.toNat ≤ s.tmax → (∃ c ∈ s.inputText, isLetterCode c) → s.KeyInRange →
    s.KeyCoprime →
    ∃ t, exec .enc s = .next t ∧ t.status.err = .none ∧
      t.normalisedText = normalForm s.inputText ∧
      ∀ u : State, u.k = s.k → u.inputText = t.outputText →
        ∃ v, exec .dec u = .next v ∧ v.status.err = .none ∧
          v.outputText = normalForm s.inputText) ∧
  (∀ s : State, s.EmptyText → ∃ t, exec .enc s = .next t ∧ t.status.err = .emptyInput) ∧
  ∀ s : State, ¬ s.EmptyText → (∀ c ∈ s.inputText, ¬ isLetterCode c) → s.KeyInRange →
    s.KeyCoprime →
    ∃ t, exec .enc s = .next t ∧ t.status.err = .none ∧ t.outputText = [] ∧
      ∀ u : State, u.inputText = t.outputText →
        ∃ v, exec .dec u = .next v ∧ v.status.err = .emptyInput

/-- R210: what ENC and DEC have in common with the matrix commands. -/
def Obligations.CipherAgreesWithTheMatrixUnits : Prop :=
  (∀ s t m v : State, exec .dec s = .next t → t.status.err = .none → exec .minv s = .next m →
    exec .val s = .next v →
    t.ki = m.ki ∧ t.det = v.det ∧ t.detm = v.detm ∧ t.dinv = v.dinv) ∧
  ∀ s t p : State, s.tlen.toNat ≤ s.tmax → exec .enc s = .next t → t.status.err = .none →
    t.nlen = 3 → s.vectorOf = t.blockAt Config.ntBase 0 → exec (.mvm 0) s = .next p →
    p.productOf = t.blockAt Config.toutBase 0

/-- R67, R183, R200: the document's worked encryption, `VELES` with its key. -/
def Obligations.WorkedEncryption : Prop :=
  ∀ s : State, s.k = ⟨6, 24, 1, 13, 16, 10, 20, 17, 15⟩ → s.tlen.toNat ≤ s.tmax →
    s.inputText = [0x56, 0x45, 0x4C, 0x45, 0x53] →
    ∃ t, exec .enc s = .next t ∧ t.normalisedText = [0x56, 0x45, 0x4C, 0x45, 0x53, 0x5A] ∧
      t.outputText = [0x5A, 0x46, 0x44, 0x4E, 0x53, 0x48] ∧ t.det = 441 ∧ t.detm = 25 ∧
      t.dinv = 25

/-! ### Rules of the whole machine -/

/-- R22, R33, R36, R65: only the host writes A, B, K, V, TLEN and TIN. -/
def Obligations.OperandsAreWrittenByTheHostOnly : Prop :=
  ∀ (i : Instr) (s t : State), exec i s = .next t →
    ((∀ rn imm, i ≠ .wr rn imm) → i ≠ .rst →
      t.a = s.a ∧ t.b = s.b ∧ t.k = s.k ∧ t.v = s.v ∧ t.tlen = s.tlen) ∧
    ((∀ addr v, i ≠ .wrb addr v) →
      ∀ addr, addr < s.tmax → Memory.read t.mem addr = Memory.read s.mem addr) ∧
    t.tmax = s.tmax

/-- The column "written by the core in" of R21, and R29, R31, R34, R35, R37: each result register,
flag and bank is written by the commands named and by no other. -/
def Obligations.ResultsAreWrittenByTheirCommandsOnly : Prop :=
  ∀ (i : Instr) (s t : State), exec i s = .next t → i ≠ .rst →
    (i ∉ [.xgcd, .modinv] → t.g = s.g ∧ t.x = s.x ∧ t.y = s.y) ∧
    (i ∉ [.mod, .modinv] → t.r = s.r) ∧
    (i ∉ [.det, .val, .minv, .enc, .dec] → t.det = s.det ∧ t.detm = s.detm) ∧
    (i ∉ [.val, .minv, .enc, .dec] → t.dinv = s.dinv) ∧
    (i ∉ [.enc, .dec] → t.nlen = s.nlen ∧ t.olen = s.olen ∧ t.blk = s.blk ∧
      t.status.fsm = s.status.fsm) ∧
    (i ∉ [.minv, .dec] → t.ki = s.ki) ∧ (i ≠ .adj → t.aj = s.aj) ∧
    ((∀ bank, i ≠ .mvm bank) → t.w = s.w) ∧
    (i ≠ .modinv → t.status.noinv = s.status.noinv) ∧
    (i ∉ [.val, .enc, .dec] → t.status.kval = s.status.kval)

/-- R41 (c), as a rule of one step: VAL, MINV, and an ENC or DEC of a text that is not empty leave
a DINV that is 0 or the inverse of DETM, and every command but DET keeps it so. -/
def Obligations.DinvAgreesUntilDet : Prop :=
  ∀ (i : Instr) (s t : State), exec i s = .next t →
    (i ∈ [.val, .minv] ∨ (i ∈ [.enc, .dec] ∧ ¬ s.EmptyText) ∨
      (i ≠ .det ∧ (s.dinv.toNat = 0 ∨ (s.detm.toNat * s.dinv.toNat) % 26 = 1))) →
    t.dinv.toNat = 0 ∨ (t.detm.toNat * t.dinv.toNat) % 26 = 1

/-- The column "raised by" of R230: which command can raise which error, and which none. -/
def Obligations.ErrorsAreRaisedByTheirCommandsOnly : Prop :=
  ∀ (i : Instr) (s t : State) (d : Word), i.wellFormed = true → exec i s = .next t →
    t.rsp = some ⟨true, d⟩ →
    (t.status.err = .emptyInput → i ∈ [.enc, .dec]) ∧
    (t.status.err = .validation → i ∈ [.enc, .dec]) ∧
    (t.status.err = .singularMatrix → i ∈ [.minv, .enc, .dec]) ∧
    (t.status.err = .illegalCommand → (∃ rn imm, i = .wr rn imm) ∨ ∃ rn, i = .rd rn) ∧
    (t.status.err = .operand → i ∈ [.mod, .xgcd, .modinv]) ∧
    (t.status.err = .range → (∃ rn imm, i = .wr rn imm) ∨ (∃ addr v, i = .wrb addr v) ∨
      ∃ addr, i = .rdb addr) ∧
    t.status.err ≠ .none ∧ i ∉ [.nop, .rst, .det, .val, .adj, .mvm 0, .mvm 1]

/-- R29: the two flags, who writes them, with what, and that no command reads them. Two runs of a
command from states that differ in NOINV and KVAL only end in states that differ in these and in
the response only. A flag that the command writes is the same in both; a flag that it does not
write is in each run what it was. The responses have the same `rsp_err`; data other than STATUS is
the same, and where the data is STATUS it is the STATUS of its own run. -/
def Obligations.NoCommandReadsTheFlags : Prop :=
  (State.reset.status.noinv = false ∧ State.reset.status.kval = false) ∧
  ∀ (i : Instr) (s t t' : State) (n v : Bool), exec i s = .next t →
    exec i { s with status := { s.status with noinv := n, kval := v } } = .next t' →
    t' = { t with
            status := { t.status with noinv := t'.status.noinv, kval := t'.status.kval }
            rsp := t'.rsp } ∧
    (WritesNoinv i s → t'.status.noinv = t.status.noinv) ∧
    (¬ WritesNoinv i s → t.status.noinv = s.status.noinv ∧ t'.status.noinv = n) ∧
    (WritesKval i s → t'.status.kval = t.status.kval) ∧
    (¬ WritesKval i s → t.status.kval = s.status.kval ∧ t'.status.kval = v) ∧
    (i = .rst → t.status.noinv = false ∧ t.status.kval = false) ∧
    (i = .modinv → 0 < s.b.toInt →
      (t.status.noinv = true ↔ Int.gcd s.a.toInt s.b.toInt ≠ 1)) ∧
    (i ∈ [.val, .enc, .dec] → WritesKval i s →
      (t.status.kval = true ↔ s.KeyInRange ∧ s.KeyCoprime)) ∧
    ∃ e, t.rsp.map (·.err) = some e ∧ t'.rsp.map (·.err) = some e ∧
      (e = false → AnswersData i → t'.rsp = t.rsp) ∧
      (¬ (e = false ∧ AnswersData i) →
        t.rsp = some ⟨e, t.status.word⟩ ∧ t'.rsp = some ⟨e, t'.status.word⟩)

/-- ENC and DEC read the raw text and the key and nothing else (R200 (g), R202): their outcome and
all their results are the same in two states that agree on these. DET, DETM, DINV and KVAL are
results where the text is not empty, KI where a DEC succeeds. -/
def Obligations.CipherReadsTextAndKeyOnly : Prop :=
  ∀ (i : Instr) (s s' t t' : State), i ∈ [Instr.enc, Instr.dec] → s.k = s'.k →
    s.inputText = s'.inputText → s.tlen.toNat ≤ s.tmax → s'.tlen.toNat ≤ s'.tmax →
    exec i s = .next t → exec i s' = .next t' →
    t.status.err = t'.status.err ∧ t.status.fsm = t'.status.fsm ∧ t.nlen = t'.nlen ∧
      t.olen = t'.olen ∧ t.blk = t'.blk ∧ t.normalisedText = t'.normalisedText ∧
      t.outputText = t'.outputText ∧ t.rsp.map (·.err) = t'.rsp.map (·.err) ∧
      (¬ s.EmptyText → t.det = t'.det ∧ t.detm = t'.detm ∧ t.dinv = t'.dinv ∧
        t.status.kval = t'.status.kval) ∧
      (i = .dec → t.status.err = .none → t.ki = t'.ki)

/-! ### Characters and the raw text -/

/-- R192: the character classes and the raising are those of the byte codes, no byte outside
0x61..0x7A is changed by raising, and none becomes a letter by it. -/
def Obligations.CharacterClassesAreByteCodes : Prop :=
  ∀ c : Byte,
    (isUpper c = true ↔ 0x41 ≤ c.toNat ∧ c.toNat ≤ 0x5A) ∧
    (isLower c = true ↔ 0x61 ≤ c.toNat ∧ c.toNat ≤ 0x7A) ∧
    (isLetter c = true ↔ (0x41 ≤ c.toNat ∧ c.toNat ≤ 0x5A) ∨ (0x61 ≤ c.toNat ∧ c.toNat ≤ 0x7A)) ∧
    (isWhiteSpace c = true ↔ c.toNat ∈ [0x09, 0x0A, 0x0B, 0x0C, 0x0D, 0x20]) ∧
    (0x61 ≤ c.toNat → c.toNat ≤ 0x7A → (upper c).toNat = c.toNat - 0x20) ∧
    (¬ (0x61 ≤ c.toNat ∧ c.toNat ≤ 0x7A) → upper c = c) ∧
    (isLetter (upper c) = true → isLetter c = true) ∧
    (isLetter c = false → prepareText [c] = [])

/-- R195: which texts are empty input, by the byte codes of R192. A text with a byte that is no
white space is not, be it a letter or not. -/
def Obligations.EmptyInputIsWhiteSpaceOnly : Prop :=
  isEmptyInput [] = true ∧ isEmptyInput [0x31, 0x32, 0x33] = false ∧
    isEmptyInput [0x3F, 0x21] = false ∧
    (∀ t : List Byte, isEmptyInput t = true ↔
      ∀ c ∈ t, c.toNat ∈ [0x09, 0x0A, 0x0B, 0x0C, 0x0D, 0x20]) ∧
    ∀ s : State, isEmptyInput s.rawText = true ↔ s.EmptyText

/-- R28, R67: the raw text ENC and DEC take is TIN[0 .. TLEN-1] in address order, as RDB reads it,
and the normalised text and the output stand in their windows in the same order. The premise
TLEN ≤ TMAX is a clause of the invariant. -/
def Obligations.TextsStandInAddressOrder : Prop :=
  ∀ s : State,
    s.rawText = s.inputText ∧ s.rawText.length = s.tlen.toNat ∧
    (s.tlen.toNat ≤ s.tmax → ∀ i, i < s.tlen.toNat → s.rawText[i]? = s.memRead i) ∧
    (s.normalisedText.length = s.nlen.toNat ∧
      ∀ i, i < s.nlen.toNat → s.normalisedText[i]? = s.memRead (0x4000 + i)) ∧
    s.outputText.length = s.olen.toNat ∧
      ∀ i, i < s.olen.toNat → s.outputText[i]? = s.memRead (0x8000 + i)
end

