-- ==== Sys2Proof/Laws/Integers.lean ====
section
/-! SUPPORT. The two division primitives as Lean's own for a positive modulus, and the writes of a
register that lose nothing (R7). -/

namespace Sys2Proof.Machine

theorem fdiv_eq_ediv (n : Int) {m : Int} (h : 0 < m) : fdiv n m = n / m :=
  Int.fdiv_eq_ediv_of_nonneg n h.le

theorem mod_eq_emod (n : Int) {m : Int} (h : 0 < m) : mod n m = n % m := by
  rw [mod, fdiv_eq_ediv n h, Int.emod_def]

@[simp] theorem mod_26 (n : Int) : mod n 26 = n % 26 := mod_eq_emod n (by decide)

/-- What a true modulo lies between (R140). -/
theorem mod_bounds (n : Int) {m : Int} (h : 0 < m) : 0 ≤ mod n m ∧ mod n m < m := by
  rw [mod_eq_emod n h]
  exact ⟨Int.emod_nonneg n h.ne', Int.emod_lt_of_pos n h⟩

/-- An s16 value is stored in a 16-bit register without loss. -/
theorem toInt_ofInt_16 {n : Int} (h : -32768 ≤ n) (h' : n ≤ 32767) :
    (BitVec.ofInt 16 n).toInt = n :=
  BitVec.toInt_ofInt_eq_self (by decide) (by simpa using h) (by simp; omega)

/-- An s32 value is stored in a 32-bit register without loss. -/
theorem toInt_ofInt_32 {n : Int} (h : -2147483648 ≤ n) (h' : n ≤ 2147483647) :
    (BitVec.ofInt 32 n).toInt = n :=
  BitVec.toInt_ofInt_eq_self (by decide) (by simpa using h) (by simp; omega)

/-- An s8 value is stored in an 8-bit register without loss. -/
theorem toInt_ofInt_8 {n : Int} (h : -128 ≤ n) (h' : n ≤ 127) :
    (BitVec.ofInt 8 n).toInt = n :=
  BitVec.toInt_ofInt_eq_self (by decide) (by simpa using h) (by simp; omega)

/-- A residue is stored in a 5-bit register without loss. -/
theorem toNat_residueBits {n : Int} (h : 0 ≤ n) (h' : n < 32) :
    ((residueBits n).toNat : Int) = n := by
  rw [residueBits, BitVec.toNat_ofInt]
  omega

/-- A value reduced modulo 26 is stored in a 5-bit register without loss. -/
@[simp] theorem toNat_residueBits_mod (n : Int) :
    ((residueBits (n % 26)).toNat : Int) = n % 26 :=
  toNat_residueBits (by omega) (by omega)

/-- A register holding a value reduced modulo 26 holds a residue. -/
theorem residueBits_mod_le (n : Int) : (residueBits (n % 26)).toNat ≤ 25 := by
  have := toNat_residueBits_mod n
  omega

/-- The range of an s16 register. -/
theorem toInt_16_bounds (v : BitVec 16) : -32768 ≤ v.toInt ∧ v.toInt ≤ 32767 := by
  have h := BitVec.le_toInt v
  have h' := BitVec.toInt_lt (x := v)
  simp at h h'
  omega

/-- The range of an s8 register. -/
theorem toInt_8_bounds (v : BitVec 8) : -128 ≤ v.toInt ∧ v.toInt ≤ 127 := by
  have h := BitVec.le_toInt v
  have h' := BitVec.toInt_lt (x := v)
  simp at h h'
  omega

end Sys2Proof.Machine
end

