-- ==== Sys2Proof/Laws/State.lean ====
section
/-! SUPPORT. One lemma per field of State per shared update, and the views of a state that an
update does not touch. Each is true by rfl, written `by rfl` so that simp rewrites with it and does
not unfold with it. -/

namespace Sys2Proof.Machine

variable (s : State)

/-- What Start writes for an empty text, before it raises EmptyInputError (R197). -/
def State.noText (s : State) : State :=
  { s with nlen := 0, olen := 0, blk := 0, status := { s.status with fsm := .emptyInput } }

/-- What Start and Validate write for a text and a bad key, before Validate raises its error
(R197, R198). -/
def State.badKey (s : State) : State :=
  { s.detStage with
    nlen := 0, olen := 0, blk := 0
    status := { s.status with fsm := .invalidMatrix, kval := false } }

/-- The state in which a text and a valid key leave Start and Validate (R197, R198). -/
def State.validated (s : State) : State :=
  { s.detStage with
    nlen := 0, olen := 0, blk := 0, status := { s.status with fsm := .validate, kval := true } }

/-! ### `setErr` -/

@[simp] theorem setErr_a (e : ErrCode) : (s.setErr e).a = s.a := by rfl
@[simp] theorem setErr_b (e : ErrCode) : (s.setErr e).b = s.b := by rfl
@[simp] theorem setErr_g (e : ErrCode) : (s.setErr e).g = s.g := by rfl
@[simp] theorem setErr_x (e : ErrCode) : (s.setErr e).x = s.x := by rfl
@[simp] theorem setErr_y (e : ErrCode) : (s.setErr e).y = s.y := by rfl
@[simp] theorem setErr_r (e : ErrCode) : (s.setErr e).r = s.r := by rfl
@[simp] theorem setErr_det (e : ErrCode) : (s.setErr e).det = s.det := by rfl
@[simp] theorem setErr_detm (e : ErrCode) : (s.setErr e).detm = s.detm := by rfl
@[simp] theorem setErr_dinv (e : ErrCode) : (s.setErr e).dinv = s.dinv := by rfl
@[simp] theorem setErr_tlen (e : ErrCode) : (s.setErr e).tlen = s.tlen := by rfl
@[simp] theorem setErr_nlen (e : ErrCode) : (s.setErr e).nlen = s.nlen := by rfl
@[simp] theorem setErr_olen (e : ErrCode) : (s.setErr e).olen = s.olen := by rfl
@[simp] theorem setErr_blk (e : ErrCode) : (s.setErr e).blk = s.blk := by rfl
@[simp] theorem setErr_status (e : ErrCode) :
    (s.setErr e).status =
      { s.status with err := e } := by rfl
@[simp] theorem setErr_k (e : ErrCode) : (s.setErr e).k = s.k := by rfl
@[simp] theorem setErr_ki (e : ErrCode) : (s.setErr e).ki = s.ki := by rfl
@[simp] theorem setErr_aj (e : ErrCode) : (s.setErr e).aj = s.aj := by rfl
@[simp] theorem setErr_v (e : ErrCode) : (s.setErr e).v = s.v := by rfl
@[simp] theorem setErr_w (e : ErrCode) : (s.setErr e).w = s.w := by rfl
@[simp] theorem setErr_mem (e : ErrCode) : (s.setErr e).mem = s.mem := by rfl
@[simp] theorem setErr_capacity (e : ErrCode) : (s.setErr e).capacity = s.capacity := by rfl
@[simp] theorem setErr_events (e : ErrCode) : (s.setErr e).events = s.events := by rfl
@[simp] theorem setErr_rsp (e : ErrCode) : (s.setErr e).rsp = s.rsp := by rfl
@[simp] theorem setErr_keyMatrix (e : ErrCode) : (s.setErr e).keyMatrix = s.keyMatrix := by rfl
@[simp] theorem setErr_inverseBank (e : ErrCode) : (s.setErr e).inverseBank = s.inverseBank := by rfl
@[simp] theorem setErr_vector (e : ErrCode) : (s.setErr e).vector = s.vector := by rfl
@[simp] theorem setErr_rawText (e : ErrCode) : (s.setErr e).rawText = s.rawText := by rfl
@[simp] theorem setErr_tmax (e : ErrCode) : (s.setErr e).tmax = s.tmax := by rfl
@[simp] theorem setErr_nmax (e : ErrCode) : (s.setErr e).nmax = s.nmax := by rfl

/-! ### `setFsm` -/

@[simp] theorem setFsm_a (f : FsmState) : (s.setFsm f).a = s.a := by rfl
@[simp] theorem setFsm_b (f : FsmState) : (s.setFsm f).b = s.b := by rfl
@[simp] theorem setFsm_g (f : FsmState) : (s.setFsm f).g = s.g := by rfl
@[simp] theorem setFsm_x (f : FsmState) : (s.setFsm f).x = s.x := by rfl
@[simp] theorem setFsm_y (f : FsmState) : (s.setFsm f).y = s.y := by rfl
@[simp] theorem setFsm_r (f : FsmState) : (s.setFsm f).r = s.r := by rfl
@[simp] theorem setFsm_det (f : FsmState) : (s.setFsm f).det = s.det := by rfl
@[simp] theorem setFsm_detm (f : FsmState) : (s.setFsm f).detm = s.detm := by rfl
@[simp] theorem setFsm_dinv (f : FsmState) : (s.setFsm f).dinv = s.dinv := by rfl
@[simp] theorem setFsm_tlen (f : FsmState) : (s.setFsm f).tlen = s.tlen := by rfl
@[simp] theorem setFsm_nlen (f : FsmState) : (s.setFsm f).nlen = s.nlen := by rfl
@[simp] theorem setFsm_olen (f : FsmState) : (s.setFsm f).olen = s.olen := by rfl
@[simp] theorem setFsm_blk (f : FsmState) : (s.setFsm f).blk = s.blk := by rfl
@[simp] theorem setFsm_status (f : FsmState) :
    (s.setFsm f).status =
      { s.status with fsm := f } := by rfl
@[simp] theorem setFsm_k (f : FsmState) : (s.setFsm f).k = s.k := by rfl
@[simp] theorem setFsm_ki (f : FsmState) : (s.setFsm f).ki = s.ki := by rfl
@[simp] theorem setFsm_aj (f : FsmState) : (s.setFsm f).aj = s.aj := by rfl
@[simp] theorem setFsm_v (f : FsmState) : (s.setFsm f).v = s.v := by rfl
@[simp] theorem setFsm_w (f : FsmState) : (s.setFsm f).w = s.w := by rfl
@[simp] theorem setFsm_mem (f : FsmState) : (s.setFsm f).mem = s.mem := by rfl
@[simp] theorem setFsm_capacity (f : FsmState) : (s.setFsm f).capacity = s.capacity := by rfl
@[simp] theorem setFsm_events (f : FsmState) : (s.setFsm f).events = s.events := by rfl
@[simp] theorem setFsm_rsp (f : FsmState) : (s.setFsm f).rsp = s.rsp := by rfl
@[simp] theorem setFsm_keyMatrix (f : FsmState) : (s.setFsm f).keyMatrix = s.keyMatrix := by rfl
@[simp] theorem setFsm_inverseBank (f : FsmState) : (s.setFsm f).inverseBank = s.inverseBank := by rfl
@[simp] theorem setFsm_vector (f : FsmState) : (s.setFsm f).vector = s.vector := by rfl
@[simp] theorem setFsm_rawText (f : FsmState) : (s.setFsm f).rawText = s.rawText := by rfl
@[simp] theorem setFsm_tmax (f : FsmState) : (s.setFsm f).tmax = s.tmax := by rfl
@[simp] theorem setFsm_nmax (f : FsmState) : (s.setFsm f).nmax = s.nmax := by rfl

/-! ### `setNoinv` -/

@[simp] theorem setNoinv_a (n : Bool) : (s.setNoinv n).a = s.a := by rfl
@[simp] theorem setNoinv_b (n : Bool) : (s.setNoinv n).b = s.b := by rfl
@[simp] theorem setNoinv_g (n : Bool) : (s.setNoinv n).g = s.g := by rfl
@[simp] theorem setNoinv_x (n : Bool) : (s.setNoinv n).x = s.x := by rfl
@[simp] theorem setNoinv_y (n : Bool) : (s.setNoinv n).y = s.y := by rfl
@[simp] theorem setNoinv_r (n : Bool) : (s.setNoinv n).r = s.r := by rfl
@[simp] theorem setNoinv_det (n : Bool) : (s.setNoinv n).det = s.det := by rfl
@[simp] theorem setNoinv_detm (n : Bool) : (s.setNoinv n).detm = s.detm := by rfl
@[simp] theorem setNoinv_dinv (n : Bool) : (s.setNoinv n).dinv = s.dinv := by rfl
@[simp] theorem setNoinv_tlen (n : Bool) : (s.setNoinv n).tlen = s.tlen := by rfl
@[simp] theorem setNoinv_nlen (n : Bool) : (s.setNoinv n).nlen = s.nlen := by rfl
@[simp] theorem setNoinv_olen (n : Bool) : (s.setNoinv n).olen = s.olen := by rfl
@[simp] theorem setNoinv_blk (n : Bool) : (s.setNoinv n).blk = s.blk := by rfl
@[simp] theorem setNoinv_status (n : Bool) :
    (s.setNoinv n).status =
      { s.status with noinv := n } := by rfl
@[simp] theorem setNoinv_k (n : Bool) : (s.setNoinv n).k = s.k := by rfl
@[simp] theorem setNoinv_ki (n : Bool) : (s.setNoinv n).ki = s.ki := by rfl
@[simp] theorem setNoinv_aj (n : Bool) : (s.setNoinv n).aj = s.aj := by rfl
@[simp] theorem setNoinv_v (n : Bool) : (s.setNoinv n).v = s.v := by rfl
@[simp] theorem setNoinv_w (n : Bool) : (s.setNoinv n).w = s.w := by rfl
@[simp] theorem setNoinv_mem (n : Bool) : (s.setNoinv n).mem = s.mem := by rfl
@[simp] theorem setNoinv_capacity (n : Bool) : (s.setNoinv n).capacity = s.capacity := by rfl
@[simp] theorem setNoinv_events (n : Bool) : (s.setNoinv n).events = s.events := by rfl
@[simp] theorem setNoinv_rsp (n : Bool) : (s.setNoinv n).rsp = s.rsp := by rfl
@[simp] theorem setNoinv_keyMatrix (n : Bool) : (s.setNoinv n).keyMatrix = s.keyMatrix := by rfl
@[simp] theorem setNoinv_inverseBank (n : Bool) : (s.setNoinv n).inverseBank = s.inverseBank := by rfl
@[simp] theorem setNoinv_vector (n : Bool) : (s.setNoinv n).vector = s.vector := by rfl
@[simp] theorem setNoinv_rawText (n : Bool) : (s.setNoinv n).rawText = s.rawText := by rfl
@[simp] theorem setNoinv_tmax (n : Bool) : (s.setNoinv n).tmax = s.tmax := by rfl
@[simp] theorem setNoinv_nmax (n : Bool) : (s.setNoinv n).nmax = s.nmax := by rfl

/-! ### `setKval` -/

@[simp] theorem setKval_a (n : Bool) : (s.setKval n).a = s.a := by rfl
@[simp] theorem setKval_b (n : Bool) : (s.setKval n).b = s.b := by rfl
@[simp] theorem setKval_g (n : Bool) : (s.setKval n).g = s.g := by rfl
@[simp] theorem setKval_x (n : Bool) : (s.setKval n).x = s.x := by rfl
@[simp] theorem setKval_y (n : Bool) : (s.setKval n).y = s.y := by rfl
@[simp] theorem setKval_r (n : Bool) : (s.setKval n).r = s.r := by rfl
@[simp] theorem setKval_det (n : Bool) : (s.setKval n).det = s.det := by rfl
@[simp] theorem setKval_detm (n : Bool) : (s.setKval n).detm = s.detm := by rfl
@[simp] theorem setKval_dinv (n : Bool) : (s.setKval n).dinv = s.dinv := by rfl
@[simp] theorem setKval_tlen (n : Bool) : (s.setKval n).tlen = s.tlen := by rfl
@[simp] theorem setKval_nlen (n : Bool) : (s.setKval n).nlen = s.nlen := by rfl
@[simp] theorem setKval_olen (n : Bool) : (s.setKval n).olen = s.olen := by rfl
@[simp] theorem setKval_blk (n : Bool) : (s.setKval n).blk = s.blk := by rfl
@[simp] theorem setKval_status (n : Bool) :
    (s.setKval n).status =
      { s.status with kval := n } := by rfl
@[simp] theorem setKval_k (n : Bool) : (s.setKval n).k = s.k := by rfl
@[simp] theorem setKval_ki (n : Bool) : (s.setKval n).ki = s.ki := by rfl
@[simp] theorem setKval_aj (n : Bool) : (s.setKval n).aj = s.aj := by rfl
@[simp] theorem setKval_v (n : Bool) : (s.setKval n).v = s.v := by rfl
@[simp] theorem setKval_w (n : Bool) : (s.setKval n).w = s.w := by rfl
@[simp] theorem setKval_mem (n : Bool) : (s.setKval n).mem = s.mem := by rfl
@[simp] theorem setKval_capacity (n : Bool) : (s.setKval n).capacity = s.capacity := by rfl
@[simp] theorem setKval_events (n : Bool) : (s.setKval n).events = s.events := by rfl
@[simp] theorem setKval_rsp (n : Bool) : (s.setKval n).rsp = s.rsp := by rfl
@[simp] theorem setKval_keyMatrix (n : Bool) : (s.setKval n).keyMatrix = s.keyMatrix := by rfl
@[simp] theorem setKval_inverseBank (n : Bool) : (s.setKval n).inverseBank = s.inverseBank := by rfl
@[simp] theorem setKval_vector (n : Bool) : (s.setKval n).vector = s.vector := by rfl
@[simp] theorem setKval_rawText (n : Bool) : (s.setKval n).rawText = s.rawText := by rfl
@[simp] theorem setKval_tmax (n : Bool) : (s.setKval n).tmax = s.tmax := by rfl
@[simp] theorem setKval_nmax (n : Bool) : (s.setKval n).nmax = s.nmax := by rfl

/-! ### `succeed` -/

@[simp] theorem succeed_a : s.succeed.a = s.a := by rfl
@[simp] theorem succeed_b : s.succeed.b = s.b := by rfl
@[simp] theorem succeed_g : s.succeed.g = s.g := by rfl
@[simp] theorem succeed_x : s.succeed.x = s.x := by rfl
@[simp] theorem succeed_y : s.succeed.y = s.y := by rfl
@[simp] theorem succeed_r : s.succeed.r = s.r := by rfl
@[simp] theorem succeed_det : s.succeed.det = s.det := by rfl
@[simp] theorem succeed_detm : s.succeed.detm = s.detm := by rfl
@[simp] theorem succeed_dinv : s.succeed.dinv = s.dinv := by rfl
@[simp] theorem succeed_tlen : s.succeed.tlen = s.tlen := by rfl
@[simp] theorem succeed_nlen : s.succeed.nlen = s.nlen := by rfl
@[simp] theorem succeed_olen : s.succeed.olen = s.olen := by rfl
@[simp] theorem succeed_blk : s.succeed.blk = s.blk := by rfl
@[simp] theorem succeed_status : s.succeed.status = { s.status with err := .none } := by rfl
@[simp] theorem succeed_k : s.succeed.k = s.k := by rfl
@[simp] theorem succeed_ki : s.succeed.ki = s.ki := by rfl
@[simp] theorem succeed_aj : s.succeed.aj = s.aj := by rfl
@[simp] theorem succeed_v : s.succeed.v = s.v := by rfl
@[simp] theorem succeed_w : s.succeed.w = s.w := by rfl
@[simp] theorem succeed_mem : s.succeed.mem = s.mem := by rfl
@[simp] theorem succeed_capacity : s.succeed.capacity = s.capacity := by rfl
@[simp] theorem succeed_events : s.succeed.events = s.events := by rfl
@[simp] theorem succeed_rsp :
    s.succeed.rsp =
      some ⟨false, Status.word { s.status with err := .none }⟩ := by rfl
@[simp] theorem succeed_keyMatrix : s.succeed.keyMatrix = s.keyMatrix := by rfl
@[simp] theorem succeed_inverseBank : s.succeed.inverseBank = s.inverseBank := by rfl
@[simp] theorem succeed_vector : s.succeed.vector = s.vector := by rfl
@[simp] theorem succeed_rawText : s.succeed.rawText = s.rawText := by rfl
@[simp] theorem succeed_tmax : s.succeed.tmax = s.tmax := by rfl
@[simp] theorem succeed_nmax : s.succeed.nmax = s.nmax := by rfl

/-! ### `raise` -/

@[simp] theorem raise_a (e : ErrCode) : (s.raise e).a = s.a := by rfl
@[simp] theorem raise_b (e : ErrCode) : (s.raise e).b = s.b := by rfl
@[simp] theorem raise_g (e : ErrCode) : (s.raise e).g = s.g := by rfl
@[simp] theorem raise_x (e : ErrCode) : (s.raise e).x = s.x := by rfl
@[simp] theorem raise_y (e : ErrCode) : (s.raise e).y = s.y := by rfl
@[simp] theorem raise_r (e : ErrCode) : (s.raise e).r = s.r := by rfl
@[simp] theorem raise_det (e : ErrCode) : (s.raise e).det = s.det := by rfl
@[simp] theorem raise_detm (e : ErrCode) : (s.raise e).detm = s.detm := by rfl
@[simp] theorem raise_dinv (e : ErrCode) : (s.raise e).dinv = s.dinv := by rfl
@[simp] theorem raise_tlen (e : ErrCode) : (s.raise e).tlen = s.tlen := by rfl
@[simp] theorem raise_nlen (e : ErrCode) : (s.raise e).nlen = s.nlen := by rfl
@[simp] theorem raise_olen (e : ErrCode) : (s.raise e).olen = s.olen := by rfl
@[simp] theorem raise_blk (e : ErrCode) : (s.raise e).blk = s.blk := by rfl
@[simp] theorem raise_status (e : ErrCode) :
    (s.raise e).status =
      { s.status with err := e } := by rfl
@[simp] theorem raise_k (e : ErrCode) : (s.raise e).k = s.k := by rfl
@[simp] theorem raise_ki (e : ErrCode) : (s.raise e).ki = s.ki := by rfl
@[simp] theorem raise_aj (e : ErrCode) : (s.raise e).aj = s.aj := by rfl
@[simp] theorem raise_v (e : ErrCode) : (s.raise e).v = s.v := by rfl
@[simp] theorem raise_w (e : ErrCode) : (s.raise e).w = s.w := by rfl
@[simp] theorem raise_mem (e : ErrCode) : (s.raise e).mem = s.mem := by rfl
@[simp] theorem raise_capacity (e : ErrCode) : (s.raise e).capacity = s.capacity := by rfl
@[simp] theorem raise_events (e : ErrCode) : (s.raise e).events = s.events := by rfl
@[simp] theorem raise_rsp (e : ErrCode) :
    (s.raise e).rsp =
      some ⟨true, Status.word { s.status with err := e }⟩ := by rfl
@[simp] theorem raise_keyMatrix (e : ErrCode) : (s.raise e).keyMatrix = s.keyMatrix := by rfl
@[simp] theorem raise_inverseBank (e : ErrCode) : (s.raise e).inverseBank = s.inverseBank := by rfl
@[simp] theorem raise_vector (e : ErrCode) : (s.raise e).vector = s.vector := by rfl
@[simp] theorem raise_rawText (e : ErrCode) : (s.raise e).rawText = s.rawText := by rfl
@[simp] theorem raise_tmax (e : ErrCode) : (s.raise e).tmax = s.tmax := by rfl
@[simp] theorem raise_nmax (e : ErrCode) : (s.raise e).nmax = s.nmax := by rfl

/-! ### `answer` -/

@[simp] theorem answer_a (u : Word) : (s.answer u).a = s.a := by rfl
@[simp] theorem answer_b (u : Word) : (s.answer u).b = s.b := by rfl
@[simp] theorem answer_g (u : Word) : (s.answer u).g = s.g := by rfl
@[simp] theorem answer_x (u : Word) : (s.answer u).x = s.x := by rfl
@[simp] theorem answer_y (u : Word) : (s.answer u).y = s.y := by rfl
@[simp] theorem answer_r (u : Word) : (s.answer u).r = s.r := by rfl
@[simp] theorem answer_det (u : Word) : (s.answer u).det = s.det := by rfl
@[simp] theorem answer_detm (u : Word) : (s.answer u).detm = s.detm := by rfl
@[simp] theorem answer_dinv (u : Word) : (s.answer u).dinv = s.dinv := by rfl
@[simp] theorem answer_tlen (u : Word) : (s.answer u).tlen = s.tlen := by rfl
@[simp] theorem answer_nlen (u : Word) : (s.answer u).nlen = s.nlen := by rfl
@[simp] theorem answer_olen (u : Word) : (s.answer u).olen = s.olen := by rfl
@[simp] theorem answer_blk (u : Word) : (s.answer u).blk = s.blk := by rfl
@[simp] theorem answer_status (u : Word) : (s.answer u).status = s.status := by rfl
@[simp] theorem answer_k (u : Word) : (s.answer u).k = s.k := by rfl
@[simp] theorem answer_ki (u : Word) : (s.answer u).ki = s.ki := by rfl
@[simp] theorem answer_aj (u : Word) : (s.answer u).aj = s.aj := by rfl
@[simp] theorem answer_v (u : Word) : (s.answer u).v = s.v := by rfl
@[simp] theorem answer_w (u : Word) : (s.answer u).w = s.w := by rfl
@[simp] theorem answer_mem (u : Word) : (s.answer u).mem = s.mem := by rfl
@[simp] theorem answer_capacity (u : Word) : (s.answer u).capacity = s.capacity := by rfl
@[simp] theorem answer_events (u : Word) : (s.answer u).events = s.events := by rfl
@[simp] theorem answer_rsp (u : Word) : (s.answer u).rsp = some ⟨false, u⟩ := by rfl
@[simp] theorem answer_keyMatrix (u : Word) : (s.answer u).keyMatrix = s.keyMatrix := by rfl
@[simp] theorem answer_inverseBank (u : Word) : (s.answer u).inverseBank = s.inverseBank := by rfl
@[simp] theorem answer_vector (u : Word) : (s.answer u).vector = s.vector := by rfl
@[simp] theorem answer_rawText (u : Word) : (s.answer u).rawText = s.rawText := by rfl
@[simp] theorem answer_tmax (u : Word) : (s.answer u).tmax = s.tmax := by rfl
@[simp] theorem answer_nmax (u : Word) : (s.answer u).nmax = s.nmax := by rfl

/-! ### `afterSuccess` -/

@[simp] theorem afterSuccess_a : s.afterSuccess.a = s.a := by rfl
@[simp] theorem afterSuccess_b : s.afterSuccess.b = s.b := by rfl
@[simp] theorem afterSuccess_g : s.afterSuccess.g = s.g := by rfl
@[simp] theorem afterSuccess_x : s.afterSuccess.x = s.x := by rfl
@[simp] theorem afterSuccess_y : s.afterSuccess.y = s.y := by rfl
@[simp] theorem afterSuccess_r : s.afterSuccess.r = s.r := by rfl
@[simp] theorem afterSuccess_det : s.afterSuccess.det = s.det := by rfl
@[simp] theorem afterSuccess_detm : s.afterSuccess.detm = s.detm := by rfl
@[simp] theorem afterSuccess_dinv : s.afterSuccess.dinv = s.dinv := by rfl
@[simp] theorem afterSuccess_tlen : s.afterSuccess.tlen = s.tlen := by rfl
@[simp] theorem afterSuccess_nlen : s.afterSuccess.nlen = s.nlen := by rfl
@[simp] theorem afterSuccess_olen : s.afterSuccess.olen = s.olen := by rfl
@[simp] theorem afterSuccess_blk : s.afterSuccess.blk = s.blk := by rfl
@[simp] theorem afterSuccess_status :
    s.afterSuccess.status =
      { s.status with err := .none } := by rfl
@[simp] theorem afterSuccess_k : s.afterSuccess.k = s.k := by rfl
@[simp] theorem afterSuccess_ki : s.afterSuccess.ki = s.ki := by rfl
@[simp] theorem afterSuccess_aj : s.afterSuccess.aj = s.aj := by rfl
@[simp] theorem afterSuccess_v : s.afterSuccess.v = s.v := by rfl
@[simp] theorem afterSuccess_w : s.afterSuccess.w = s.w := by rfl
@[simp] theorem afterSuccess_mem : s.afterSuccess.mem = s.mem := by rfl
@[simp] theorem afterSuccess_capacity : s.afterSuccess.capacity = s.capacity := by rfl
@[simp] theorem afterSuccess_events : s.afterSuccess.events = s.events := by rfl
@[simp] theorem afterSuccess_rsp :
    s.afterSuccess.rsp =
      some ⟨false, Status.word { s.status with err := .none }⟩ := by rfl
@[simp] theorem afterSuccess_keyMatrix : s.afterSuccess.keyMatrix = s.keyMatrix := by rfl
@[simp] theorem afterSuccess_inverseBank : s.afterSuccess.inverseBank = s.inverseBank := by rfl
@[simp] theorem afterSuccess_vector : s.afterSuccess.vector = s.vector := by rfl
@[simp] theorem afterSuccess_rawText : s.afterSuccess.rawText = s.rawText := by rfl
@[simp] theorem afterSuccess_tmax : s.afterSuccess.tmax = s.tmax := by rfl
@[simp] theorem afterSuccess_nmax : s.afterSuccess.nmax = s.nmax := by rfl

/-! ### `afterError` -/

@[simp] theorem afterError_a (e : ErrCode) : (s.afterError e).a = s.a := by rfl
@[simp] theorem afterError_b (e : ErrCode) : (s.afterError e).b = s.b := by rfl
@[simp] theorem afterError_g (e : ErrCode) : (s.afterError e).g = s.g := by rfl
@[simp] theorem afterError_x (e : ErrCode) : (s.afterError e).x = s.x := by rfl
@[simp] theorem afterError_y (e : ErrCode) : (s.afterError e).y = s.y := by rfl
@[simp] theorem afterError_r (e : ErrCode) : (s.afterError e).r = s.r := by rfl
@[simp] theorem afterError_det (e : ErrCode) : (s.afterError e).det = s.det := by rfl
@[simp] theorem afterError_detm (e : ErrCode) : (s.afterError e).detm = s.detm := by rfl
@[simp] theorem afterError_dinv (e : ErrCode) : (s.afterError e).dinv = s.dinv := by rfl
@[simp] theorem afterError_tlen (e : ErrCode) : (s.afterError e).tlen = s.tlen := by rfl
@[simp] theorem afterError_nlen (e : ErrCode) : (s.afterError e).nlen = s.nlen := by rfl
@[simp] theorem afterError_olen (e : ErrCode) : (s.afterError e).olen = s.olen := by rfl
@[simp] theorem afterError_blk (e : ErrCode) : (s.afterError e).blk = s.blk := by rfl
@[simp] theorem afterError_status (e : ErrCode) :
    (s.afterError e).status =
      { s.status with err := e } := by rfl
@[simp] theorem afterError_k (e : ErrCode) : (s.afterError e).k = s.k := by rfl
@[simp] theorem afterError_ki (e : ErrCode) : (s.afterError e).ki = s.ki := by rfl
@[simp] theorem afterError_aj (e : ErrCode) : (s.afterError e).aj = s.aj := by rfl
@[simp] theorem afterError_v (e : ErrCode) : (s.afterError e).v = s.v := by rfl
@[simp] theorem afterError_w (e : ErrCode) : (s.afterError e).w = s.w := by rfl
@[simp] theorem afterError_mem (e : ErrCode) : (s.afterError e).mem = s.mem := by rfl
@[simp] theorem afterError_capacity (e : ErrCode) : (s.afterError e).capacity = s.capacity := by rfl
@[simp] theorem afterError_events (e : ErrCode) : (s.afterError e).events = s.events := by rfl
@[simp] theorem afterError_rsp (e : ErrCode) :
    (s.afterError e).rsp =
      some ⟨true, Status.word { s.status with err := e }⟩ := by rfl
@[simp] theorem afterError_keyMatrix (e : ErrCode) : (s.afterError e).keyMatrix = s.keyMatrix := by rfl
@[simp] theorem afterError_inverseBank (e : ErrCode) : (s.afterError e).inverseBank = s.inverseBank := by rfl
@[simp] theorem afterError_vector (e : ErrCode) : (s.afterError e).vector = s.vector := by rfl
@[simp] theorem afterError_rawText (e : ErrCode) : (s.afterError e).rawText = s.rawText := by rfl
@[simp] theorem afterError_tmax (e : ErrCode) : (s.afterError e).tmax = s.tmax := by rfl
@[simp] theorem afterError_nmax (e : ErrCode) : (s.afterError e).nmax = s.nmax := by rfl

/-! ### `afterRead` -/

@[simp] theorem afterRead_a (u : Word) : (s.afterRead u).a = s.a := by rfl
@[simp] theorem afterRead_b (u : Word) : (s.afterRead u).b = s.b := by rfl
@[simp] theorem afterRead_g (u : Word) : (s.afterRead u).g = s.g := by rfl
@[simp] theorem afterRead_x (u : Word) : (s.afterRead u).x = s.x := by rfl
@[simp] theorem afterRead_y (u : Word) : (s.afterRead u).y = s.y := by rfl
@[simp] theorem afterRead_r (u : Word) : (s.afterRead u).r = s.r := by rfl
@[simp] theorem afterRead_det (u : Word) : (s.afterRead u).det = s.det := by rfl
@[simp] theorem afterRead_detm (u : Word) : (s.afterRead u).detm = s.detm := by rfl
@[simp] theorem afterRead_dinv (u : Word) : (s.afterRead u).dinv = s.dinv := by rfl
@[simp] theorem afterRead_tlen (u : Word) : (s.afterRead u).tlen = s.tlen := by rfl
@[simp] theorem afterRead_nlen (u : Word) : (s.afterRead u).nlen = s.nlen := by rfl
@[simp] theorem afterRead_olen (u : Word) : (s.afterRead u).olen = s.olen := by rfl
@[simp] theorem afterRead_blk (u : Word) : (s.afterRead u).blk = s.blk := by rfl
@[simp] theorem afterRead_status (u : Word) : (s.afterRead u).status = s.status := by rfl
@[simp] theorem afterRead_k (u : Word) : (s.afterRead u).k = s.k := by rfl
@[simp] theorem afterRead_ki (u : Word) : (s.afterRead u).ki = s.ki := by rfl
@[simp] theorem afterRead_aj (u : Word) : (s.afterRead u).aj = s.aj := by rfl
@[simp] theorem afterRead_v (u : Word) : (s.afterRead u).v = s.v := by rfl
@[simp] theorem afterRead_w (u : Word) : (s.afterRead u).w = s.w := by rfl
@[simp] theorem afterRead_mem (u : Word) : (s.afterRead u).mem = s.mem := by rfl
@[simp] theorem afterRead_capacity (u : Word) : (s.afterRead u).capacity = s.capacity := by rfl
@[simp] theorem afterRead_events (u : Word) : (s.afterRead u).events = s.events := by rfl
@[simp] theorem afterRead_rsp (u : Word) : (s.afterRead u).rsp = some ⟨false, u⟩ := by rfl
@[simp] theorem afterRead_keyMatrix (u : Word) : (s.afterRead u).keyMatrix = s.keyMatrix := by rfl
@[simp] theorem afterRead_inverseBank (u : Word) : (s.afterRead u).inverseBank = s.inverseBank := by rfl
@[simp] theorem afterRead_vector (u : Word) : (s.afterRead u).vector = s.vector := by rfl
@[simp] theorem afterRead_rawText (u : Word) : (s.afterRead u).rawText = s.rawText := by rfl
@[simp] theorem afterRead_tmax (u : Word) : (s.afterRead u).tmax = s.tmax := by rfl
@[simp] theorem afterRead_nmax (u : Word) : (s.afterRead u).nmax = s.nmax := by rfl

/-! ### `withdrawOutputs` -/

@[simp] theorem withdrawOutputs_a : s.withdrawOutputs.a = s.a := by rfl
@[simp] theorem withdrawOutputs_b : s.withdrawOutputs.b = s.b := by rfl
@[simp] theorem withdrawOutputs_g : s.withdrawOutputs.g = s.g := by rfl
@[simp] theorem withdrawOutputs_x : s.withdrawOutputs.x = s.x := by rfl
@[simp] theorem withdrawOutputs_y : s.withdrawOutputs.y = s.y := by rfl
@[simp] theorem withdrawOutputs_r : s.withdrawOutputs.r = s.r := by rfl
@[simp] theorem withdrawOutputs_det : s.withdrawOutputs.det = s.det := by rfl
@[simp] theorem withdrawOutputs_detm : s.withdrawOutputs.detm = s.detm := by rfl
@[simp] theorem withdrawOutputs_dinv : s.withdrawOutputs.dinv = s.dinv := by rfl
@[simp] theorem withdrawOutputs_tlen : s.withdrawOutputs.tlen = s.tlen := by rfl
@[simp] theorem withdrawOutputs_nlen : s.withdrawOutputs.nlen = 0 := by rfl
@[simp] theorem withdrawOutputs_olen : s.withdrawOutputs.olen = 0 := by rfl
@[simp] theorem withdrawOutputs_blk : s.withdrawOutputs.blk = 0 := by rfl
@[simp] theorem withdrawOutputs_status : s.withdrawOutputs.status = s.status := by rfl
@[simp] theorem withdrawOutputs_k : s.withdrawOutputs.k = s.k := by rfl
@[simp] theorem withdrawOutputs_ki : s.withdrawOutputs.ki = s.ki := by rfl
@[simp] theorem withdrawOutputs_aj : s.withdrawOutputs.aj = s.aj := by rfl
@[simp] theorem withdrawOutputs_v : s.withdrawOutputs.v = s.v := by rfl
@[simp] theorem withdrawOutputs_w : s.withdrawOutputs.w = s.w := by rfl
@[simp] theorem withdrawOutputs_mem : s.withdrawOutputs.mem = s.mem := by rfl
@[simp] theorem withdrawOutputs_capacity : s.withdrawOutputs.capacity = s.capacity := by rfl
@[simp] theorem withdrawOutputs_events : s.withdrawOutputs.events = s.events := by rfl
@[simp] theorem withdrawOutputs_rsp : s.withdrawOutputs.rsp = s.rsp := by rfl
@[simp] theorem withdrawOutputs_keyMatrix : s.withdrawOutputs.keyMatrix = s.keyMatrix := by rfl
@[simp] theorem withdrawOutputs_inverseBank : s.withdrawOutputs.inverseBank = s.inverseBank := by rfl
@[simp] theorem withdrawOutputs_vector : s.withdrawOutputs.vector = s.vector := by rfl
@[simp] theorem withdrawOutputs_rawText : s.withdrawOutputs.rawText = s.rawText := by rfl
@[simp] theorem withdrawOutputs_tmax : s.withdrawOutputs.tmax = s.tmax := by rfl
@[simp] theorem withdrawOutputs_nmax : s.withdrawOutputs.nmax = s.nmax := by rfl

/-! ### `detStage` -/

@[simp] theorem detStage_a : s.detStage.a = s.a := by rfl
@[simp] theorem detStage_b : s.detStage.b = s.b := by rfl
@[simp] theorem detStage_g : s.detStage.g = s.g := by rfl
@[simp] theorem detStage_x : s.detStage.x = s.x := by rfl
@[simp] theorem detStage_y : s.detStage.y = s.y := by rfl
@[simp] theorem detStage_r : s.detStage.r = s.r := by rfl
@[simp] theorem detStage_det :
    s.detStage.det =
      BitVec.ofInt 32 (detLocals s.keyMatrix).det := by rfl
@[simp] theorem detStage_detm : s.detStage.detm = residueBits (detLocals s.keyMatrix).dm := by rfl
@[simp] theorem detStage_dinv : s.detStage.dinv = residueBits (detLocals s.keyMatrix).dinv := by rfl
@[simp] theorem detStage_tlen : s.detStage.tlen = s.tlen := by rfl
@[simp] theorem detStage_nlen : s.detStage.nlen = s.nlen := by rfl
@[simp] theorem detStage_olen : s.detStage.olen = s.olen := by rfl
@[simp] theorem detStage_blk : s.detStage.blk = s.blk := by rfl
@[simp] theorem detStage_status : s.detStage.status = s.status := by rfl
@[simp] theorem detStage_k : s.detStage.k = s.k := by rfl
@[simp] theorem detStage_ki : s.detStage.ki = s.ki := by rfl
@[simp] theorem detStage_aj : s.detStage.aj = s.aj := by rfl
@[simp] theorem detStage_v : s.detStage.v = s.v := by rfl
@[simp] theorem detStage_w : s.detStage.w = s.w := by rfl
@[simp] theorem detStage_mem : s.detStage.mem = s.mem := by rfl
@[simp] theorem detStage_capacity : s.detStage.capacity = s.capacity := by rfl
@[simp] theorem detStage_events : s.detStage.events = s.events := by rfl
@[simp] theorem detStage_rsp : s.detStage.rsp = s.rsp := by rfl
@[simp] theorem detStage_keyMatrix : s.detStage.keyMatrix = s.keyMatrix := by rfl
@[simp] theorem detStage_inverseBank : s.detStage.inverseBank = s.inverseBank := by rfl
@[simp] theorem detStage_vector : s.detStage.vector = s.vector := by rfl
@[simp] theorem detStage_rawText : s.detStage.rawText = s.rawText := by rfl
@[simp] theorem detStage_tmax : s.detStage.tmax = s.tmax := by rfl
@[simp] theorem detStage_nmax : s.detStage.nmax = s.nmax := by rfl

/-! ### `writeInverse` -/

@[simp] theorem writeInverse_a : s.writeInverse.a = s.a := by rfl
@[simp] theorem writeInverse_b : s.writeInverse.b = s.b := by rfl
@[simp] theorem writeInverse_g : s.writeInverse.g = s.g := by rfl
@[simp] theorem writeInverse_x : s.writeInverse.x = s.x := by rfl
@[simp] theorem writeInverse_y : s.writeInverse.y = s.y := by rfl
@[simp] theorem writeInverse_r : s.writeInverse.r = s.r := by rfl
@[simp] theorem writeInverse_det : s.writeInverse.det = s.det := by rfl
@[simp] theorem writeInverse_detm : s.writeInverse.detm = s.detm := by rfl
@[simp] theorem writeInverse_dinv : s.writeInverse.dinv = s.dinv := by rfl
@[simp] theorem writeInverse_tlen : s.writeInverse.tlen = s.tlen := by rfl
@[simp] theorem writeInverse_nlen : s.writeInverse.nlen = s.nlen := by rfl
@[simp] theorem writeInverse_olen : s.writeInverse.olen = s.olen := by rfl
@[simp] theorem writeInverse_blk : s.writeInverse.blk = s.blk := by rfl
@[simp] theorem writeInverse_status : s.writeInverse.status = s.status := by rfl
@[simp] theorem writeInverse_k : s.writeInverse.k = s.k := by rfl
@[simp] theorem writeInverse_ki :
    s.writeInverse.ki =
      matMap residueBits (inverseEntries s.keyMatrix (detLocals s.keyMatrix).dinv) := by rfl
@[simp] theorem writeInverse_aj : s.writeInverse.aj = s.aj := by rfl
@[simp] theorem writeInverse_v : s.writeInverse.v = s.v := by rfl
@[simp] theorem writeInverse_w : s.writeInverse.w = s.w := by rfl
@[simp] theorem writeInverse_mem : s.writeInverse.mem = s.mem := by rfl
@[simp] theorem writeInverse_capacity : s.writeInverse.capacity = s.capacity := by rfl
@[simp] theorem writeInverse_events : s.writeInverse.events = s.events := by rfl
@[simp] theorem writeInverse_rsp : s.writeInverse.rsp = s.rsp := by rfl
@[simp] theorem writeInverse_keyMatrix : s.writeInverse.keyMatrix = s.keyMatrix := by rfl
@[simp] theorem writeInverse_vector : s.writeInverse.vector = s.vector := by rfl
@[simp] theorem writeInverse_rawText : s.writeInverse.rawText = s.rawText := by rfl
@[simp] theorem writeInverse_tmax : s.writeInverse.tmax = s.tmax := by rfl
@[simp] theorem writeInverse_nmax : s.writeInverse.nmax = s.nmax := by rfl

/-! ### `storeByte` -/

@[simp] theorem storeByte_a (addr : Nat) (v : Byte) : (s.storeByte addr v).a = s.a := by rfl
@[simp] theorem storeByte_b (addr : Nat) (v : Byte) : (s.storeByte addr v).b = s.b := by rfl
@[simp] theorem storeByte_g (addr : Nat) (v : Byte) : (s.storeByte addr v).g = s.g := by rfl
@[simp] theorem storeByte_x (addr : Nat) (v : Byte) : (s.storeByte addr v).x = s.x := by rfl
@[simp] theorem storeByte_y (addr : Nat) (v : Byte) : (s.storeByte addr v).y = s.y := by rfl
@[simp] theorem storeByte_r (addr : Nat) (v : Byte) : (s.storeByte addr v).r = s.r := by rfl
@[simp] theorem storeByte_det (addr : Nat) (v : Byte) : (s.storeByte addr v).det = s.det := by rfl
@[simp] theorem storeByte_detm (addr : Nat) (v : Byte) :
    (s.storeByte addr v).detm =
      s.detm := by rfl
@[simp] theorem storeByte_dinv (addr : Nat) (v : Byte) :
    (s.storeByte addr v).dinv =
      s.dinv := by rfl
@[simp] theorem storeByte_tlen (addr : Nat) (v : Byte) :
    (s.storeByte addr v).tlen =
      s.tlen := by rfl
@[simp] theorem storeByte_nlen (addr : Nat) (v : Byte) :
    (s.storeByte addr v).nlen =
      s.nlen := by rfl
@[simp] theorem storeByte_olen (addr : Nat) (v : Byte) :
    (s.storeByte addr v).olen =
      s.olen := by rfl
@[simp] theorem storeByte_blk (addr : Nat) (v : Byte) : (s.storeByte addr v).blk = s.blk := by rfl
@[simp] theorem storeByte_status (addr : Nat) (v : Byte) :
    (s.storeByte addr v).status =
      s.status := by rfl
@[simp] theorem storeByte_k (addr : Nat) (v : Byte) : (s.storeByte addr v).k = s.k := by rfl
@[simp] theorem storeByte_ki (addr : Nat) (v : Byte) : (s.storeByte addr v).ki = s.ki := by rfl
@[simp] theorem storeByte_aj (addr : Nat) (v : Byte) : (s.storeByte addr v).aj = s.aj := by rfl
@[simp] theorem storeByte_v (addr : Nat) (v : Byte) : (s.storeByte addr v).v = s.v := by rfl
@[simp] theorem storeByte_w (addr : Nat) (v : Byte) : (s.storeByte addr v).w = s.w := by rfl
@[simp] theorem storeByte_mem (addr : Nat) (v : Byte) :
    (s.storeByte addr v).mem =
      Memory.write s.mem addr v := by rfl
@[simp] theorem storeByte_capacity (addr : Nat) (v : Byte) :
    (s.storeByte addr v).capacity =
      s.capacity := by rfl
@[simp] theorem storeByte_events (addr : Nat) (v : Byte) :
    (s.storeByte addr v).events =
      s.events := by rfl
@[simp] theorem storeByte_rsp (addr : Nat) (v : Byte) : (s.storeByte addr v).rsp = s.rsp := by rfl
@[simp] theorem storeByte_keyMatrix (addr : Nat) (v : Byte) : (s.storeByte addr v).keyMatrix = s.keyMatrix := by rfl
@[simp] theorem storeByte_inverseBank (addr : Nat) (v : Byte) : (s.storeByte addr v).inverseBank = s.inverseBank := by rfl
@[simp] theorem storeByte_vector (addr : Nat) (v : Byte) : (s.storeByte addr v).vector = s.vector := by rfl
@[simp] theorem storeByte_tmax (addr : Nat) (v : Byte) : (s.storeByte addr v).tmax = s.tmax := by rfl
@[simp] theorem storeByte_nmax (addr : Nat) (v : Byte) : (s.storeByte addr v).nmax = s.nmax := by rfl

/-! ### `noText` -/

@[simp] theorem noText_a : s.noText.a = s.a := by rfl
@[simp] theorem noText_b : s.noText.b = s.b := by rfl
@[simp] theorem noText_g : s.noText.g = s.g := by rfl
@[simp] theorem noText_x : s.noText.x = s.x := by rfl
@[simp] theorem noText_y : s.noText.y = s.y := by rfl
@[simp] theorem noText_r : s.noText.r = s.r := by rfl
@[simp] theorem noText_det : s.noText.det = s.det := by rfl
@[simp] theorem noText_detm : s.noText.detm = s.detm := by rfl
@[simp] theorem noText_dinv : s.noText.dinv = s.dinv := by rfl
@[simp] theorem noText_tlen : s.noText.tlen = s.tlen := by rfl
@[simp] theorem noText_nlen : s.noText.nlen = 0 := by rfl
@[simp] theorem noText_olen : s.noText.olen = 0 := by rfl
@[simp] theorem noText_blk : s.noText.blk = 0 := by rfl
@[simp] theorem noText_status : s.noText.status = { s.status with fsm := .emptyInput } := by rfl
@[simp] theorem noText_k : s.noText.k = s.k := by rfl
@[simp] theorem noText_ki : s.noText.ki = s.ki := by rfl
@[simp] theorem noText_aj : s.noText.aj = s.aj := by rfl
@[simp] theorem noText_v : s.noText.v = s.v := by rfl
@[simp] theorem noText_w : s.noText.w = s.w := by rfl
@[simp] theorem noText_mem : s.noText.mem = s.mem := by rfl
@[simp] theorem noText_capacity : s.noText.capacity = s.capacity := by rfl
@[simp] theorem noText_events : s.noText.events = s.events := by rfl
@[simp] theorem noText_rsp : s.noText.rsp = s.rsp := by rfl
@[simp] theorem noText_keyMatrix : s.noText.keyMatrix = s.keyMatrix := by rfl
@[simp] theorem noText_inverseBank : s.noText.inverseBank = s.inverseBank := by rfl
@[simp] theorem noText_vector : s.noText.vector = s.vector := by rfl
@[simp] theorem noText_rawText : s.noText.rawText = s.rawText := by rfl
@[simp] theorem noText_tmax : s.noText.tmax = s.tmax := by rfl
@[simp] theorem noText_nmax : s.noText.nmax = s.nmax := by rfl

/-! ### `badKey` -/

@[simp] theorem badKey_a : s.badKey.a = s.a := by rfl
@[simp] theorem badKey_b : s.badKey.b = s.b := by rfl
@[simp] theorem badKey_g : s.badKey.g = s.g := by rfl
@[simp] theorem badKey_x : s.badKey.x = s.x := by rfl
@[simp] theorem badKey_y : s.badKey.y = s.y := by rfl
@[simp] theorem badKey_r : s.badKey.r = s.r := by rfl
@[simp] theorem badKey_det : s.badKey.det = s.detStage.det := by rfl
@[simp] theorem badKey_detm : s.badKey.detm = s.detStage.detm := by rfl
@[simp] theorem badKey_dinv : s.badKey.dinv = s.detStage.dinv := by rfl
@[simp] theorem badKey_tlen : s.badKey.tlen = s.tlen := by rfl
@[simp] theorem badKey_nlen : s.badKey.nlen = 0 := by rfl
@[simp] theorem badKey_olen : s.badKey.olen = 0 := by rfl
@[simp] theorem badKey_blk : s.badKey.blk = 0 := by rfl
@[simp] theorem badKey_status :
    s.badKey.status =
      { s.status with fsm := .invalidMatrix, kval := false } := by rfl
@[simp] theorem badKey_k : s.badKey.k = s.k := by rfl
@[simp] theorem badKey_ki : s.badKey.ki = s.ki := by rfl
@[simp] theorem badKey_aj : s.badKey.aj = s.aj := by rfl
@[simp] theorem badKey_v : s.badKey.v = s.v := by rfl
@[simp] theorem badKey_w : s.badKey.w = s.w := by rfl
@[simp] theorem badKey_mem : s.badKey.mem = s.mem := by rfl
@[simp] theorem badKey_capacity : s.badKey.capacity = s.capacity := by rfl
@[simp] theorem badKey_events : s.badKey.events = s.events := by rfl
@[simp] theorem badKey_rsp : s.badKey.rsp = s.rsp := by rfl
@[simp] theorem badKey_keyMatrix : s.badKey.keyMatrix = s.keyMatrix := by rfl
@[simp] theorem badKey_inverseBank : s.badKey.inverseBank = s.inverseBank := by rfl
@[simp] theorem badKey_vector : s.badKey.vector = s.vector := by rfl
@[simp] theorem badKey_rawText : s.badKey.rawText = s.rawText := by rfl
@[simp] theorem badKey_tmax : s.badKey.tmax = s.tmax := by rfl
@[simp] theorem badKey_nmax : s.badKey.nmax = s.nmax := by rfl

/-! ### `writeDet` -/

@[simp] theorem writeDet_a : s.writeDet.a = s.a := by rfl
@[simp] theorem writeDet_b : s.writeDet.b = s.b := by rfl
@[simp] theorem writeDet_g : s.writeDet.g = s.g := by rfl
@[simp] theorem writeDet_x : s.writeDet.x = s.x := by rfl
@[simp] theorem writeDet_y : s.writeDet.y = s.y := by rfl
@[simp] theorem writeDet_r : s.writeDet.r = s.r := by rfl
@[simp] theorem writeDet_det : s.writeDet.det = BitVec.ofInt 32 (det3 s.keyMatrix) := by rfl
@[simp] theorem writeDet_detm : s.writeDet.detm = residueBits (mod (det3 s.keyMatrix) 26) := by rfl
@[simp] theorem writeDet_dinv : s.writeDet.dinv = s.dinv := by rfl
@[simp] theorem writeDet_tlen : s.writeDet.tlen = s.tlen := by rfl
@[simp] theorem writeDet_nlen : s.writeDet.nlen = s.nlen := by rfl
@[simp] theorem writeDet_olen : s.writeDet.olen = s.olen := by rfl
@[simp] theorem writeDet_blk : s.writeDet.blk = s.blk := by rfl
@[simp] theorem writeDet_status : s.writeDet.status = s.status := by rfl
@[simp] theorem writeDet_k : s.writeDet.k = s.k := by rfl
@[simp] theorem writeDet_ki : s.writeDet.ki = s.ki := by rfl
@[simp] theorem writeDet_aj : s.writeDet.aj = s.aj := by rfl
@[simp] theorem writeDet_v : s.writeDet.v = s.v := by rfl
@[simp] theorem writeDet_w : s.writeDet.w = s.w := by rfl
@[simp] theorem writeDet_mem : s.writeDet.mem = s.mem := by rfl
@[simp] theorem writeDet_capacity : s.writeDet.capacity = s.capacity := by rfl
@[simp] theorem writeDet_events : s.writeDet.events = s.events := by rfl
@[simp] theorem writeDet_rsp : s.writeDet.rsp = s.rsp := by rfl
@[simp] theorem writeDet_keyMatrix : s.writeDet.keyMatrix = s.keyMatrix := by rfl
@[simp] theorem writeDet_inverseBank : s.writeDet.inverseBank = s.inverseBank := by rfl
@[simp] theorem writeDet_vector : s.writeDet.vector = s.vector := by rfl
@[simp] theorem writeDet_rawText : s.writeDet.rawText = s.rawText := by rfl
@[simp] theorem writeDet_tmax : s.writeDet.tmax = s.tmax := by rfl
@[simp] theorem writeDet_nmax : s.writeDet.nmax = s.nmax := by rfl

/-! ### `writeAdjugate` -/

@[simp] theorem writeAdjugate_a : s.writeAdjugate.a = s.a := by rfl
@[simp] theorem writeAdjugate_b : s.writeAdjugate.b = s.b := by rfl
@[simp] theorem writeAdjugate_g : s.writeAdjugate.g = s.g := by rfl
@[simp] theorem writeAdjugate_x : s.writeAdjugate.x = s.x := by rfl
@[simp] theorem writeAdjugate_y : s.writeAdjugate.y = s.y := by rfl
@[simp] theorem writeAdjugate_r : s.writeAdjugate.r = s.r := by rfl
@[simp] theorem writeAdjugate_det : s.writeAdjugate.det = s.det := by rfl
@[simp] theorem writeAdjugate_detm : s.writeAdjugate.detm = s.detm := by rfl
@[simp] theorem writeAdjugate_dinv : s.writeAdjugate.dinv = s.dinv := by rfl
@[simp] theorem writeAdjugate_tlen : s.writeAdjugate.tlen = s.tlen := by rfl
@[simp] theorem writeAdjugate_nlen : s.writeAdjugate.nlen = s.nlen := by rfl
@[simp] theorem writeAdjugate_olen : s.writeAdjugate.olen = s.olen := by rfl
@[simp] theorem writeAdjugate_blk : s.writeAdjugate.blk = s.blk := by rfl
@[simp] theorem writeAdjugate_status : s.writeAdjugate.status = s.status := by rfl
@[simp] theorem writeAdjugate_k : s.writeAdjugate.k = s.k := by rfl
@[simp] theorem writeAdjugate_ki : s.writeAdjugate.ki = s.ki := by rfl
@[simp] theorem writeAdjugate_aj :
    s.writeAdjugate.aj =
      matMap (fun n => residueBits (mod n 26)) (adj s.keyMatrix) := by rfl
@[simp] theorem writeAdjugate_v : s.writeAdjugate.v = s.v := by rfl
@[simp] theorem writeAdjugate_w : s.writeAdjugate.w = s.w := by rfl
@[simp] theorem writeAdjugate_mem : s.writeAdjugate.mem = s.mem := by rfl
@[simp] theorem writeAdjugate_capacity : s.writeAdjugate.capacity = s.capacity := by rfl
@[simp] theorem writeAdjugate_events : s.writeAdjugate.events = s.events := by rfl
@[simp] theorem writeAdjugate_rsp : s.writeAdjugate.rsp = s.rsp := by rfl
@[simp] theorem writeAdjugate_keyMatrix : s.writeAdjugate.keyMatrix = s.keyMatrix := by rfl
@[simp] theorem writeAdjugate_inverseBank : s.writeAdjugate.inverseBank = s.inverseBank := by rfl
@[simp] theorem writeAdjugate_vector : s.writeAdjugate.vector = s.vector := by rfl
@[simp] theorem writeAdjugate_rawText : s.writeAdjugate.rawText = s.rawText := by rfl
@[simp] theorem writeAdjugate_tmax : s.writeAdjugate.tmax = s.tmax := by rfl
@[simp] theorem writeAdjugate_nmax : s.writeAdjugate.nmax = s.nmax := by rfl

/-! ### `validated` -/

@[simp] theorem validated_a : s.validated.a = s.a := by rfl
@[simp] theorem validated_b : s.validated.b = s.b := by rfl
@[simp] theorem validated_g : s.validated.g = s.g := by rfl
@[simp] theorem validated_x : s.validated.x = s.x := by rfl
@[simp] theorem validated_y : s.validated.y = s.y := by rfl
@[simp] theorem validated_r : s.validated.r = s.r := by rfl
@[simp] theorem validated_det : s.validated.det = s.detStage.det := by rfl
@[simp] theorem validated_detm : s.validated.detm = s.detStage.detm := by rfl
@[simp] theorem validated_dinv : s.validated.dinv = s.detStage.dinv := by rfl
@[simp] theorem validated_tlen : s.validated.tlen = s.tlen := by rfl
@[simp] theorem validated_nlen : s.validated.nlen = 0 := by rfl
@[simp] theorem validated_olen : s.validated.olen = 0 := by rfl
@[simp] theorem validated_blk : s.validated.blk = 0 := by rfl
@[simp] theorem validated_status :
    s.validated.status =
      { s.status with fsm := .validate, kval := true } := by rfl
@[simp] theorem validated_k : s.validated.k = s.k := by rfl
@[simp] theorem validated_ki : s.validated.ki = s.ki := by rfl
@[simp] theorem validated_aj : s.validated.aj = s.aj := by rfl
@[simp] theorem validated_v : s.validated.v = s.v := by rfl
@[simp] theorem validated_w : s.validated.w = s.w := by rfl
@[simp] theorem validated_mem : s.validated.mem = s.mem := by rfl
@[simp] theorem validated_capacity : s.validated.capacity = s.capacity := by rfl
@[simp] theorem validated_events : s.validated.events = s.events := by rfl
@[simp] theorem validated_rsp : s.validated.rsp = s.rsp := by rfl
@[simp] theorem validated_keyMatrix : s.validated.keyMatrix = s.keyMatrix := by rfl
@[simp] theorem validated_inverseBank : s.validated.inverseBank = s.inverseBank := by rfl
@[simp] theorem validated_vector : s.validated.vector = s.vector := by rfl
@[simp] theorem validated_rawText : s.validated.rawText = s.rawText := by rfl
@[simp] theorem validated_tmax : s.validated.tmax = s.tmax := by rfl
@[simp] theorem validated_nmax : s.validated.nmax = s.nmax := by rfl

/-! ### `computeInverse` -/

@[simp] theorem computeInverse_a : s.computeInverse.a = s.a := by rfl
@[simp] theorem computeInverse_b : s.computeInverse.b = s.b := by rfl
@[simp] theorem computeInverse_g : s.computeInverse.g = s.g := by rfl
@[simp] theorem computeInverse_x : s.computeInverse.x = s.x := by rfl
@[simp] theorem computeInverse_y : s.computeInverse.y = s.y := by rfl
@[simp] theorem computeInverse_r : s.computeInverse.r = s.r := by rfl
@[simp] theorem computeInverse_det : s.computeInverse.det = s.det := by rfl
@[simp] theorem computeInverse_detm : s.computeInverse.detm = s.detm := by rfl
@[simp] theorem computeInverse_dinv : s.computeInverse.dinv = s.dinv := by rfl
@[simp] theorem computeInverse_tlen : s.computeInverse.tlen = s.tlen := by rfl
@[simp] theorem computeInverse_nlen : s.computeInverse.nlen = s.nlen := by rfl
@[simp] theorem computeInverse_olen : s.computeInverse.olen = s.olen := by rfl
@[simp] theorem computeInverse_blk : s.computeInverse.blk = s.blk := by rfl
@[simp] theorem computeInverse_status :
    s.computeInverse.status =
      { s.status with fsm := .computeInverse } := by rfl
@[simp] theorem computeInverse_k : s.computeInverse.k = s.k := by rfl
@[simp] theorem computeInverse_ki :
    s.computeInverse.ki =
      matMap residueBits (inverseEntries s.keyMatrix (detLocals s.keyMatrix).dinv) := by rfl
@[simp] theorem computeInverse_aj : s.computeInverse.aj = s.aj := by rfl
@[simp] theorem computeInverse_v : s.computeInverse.v = s.v := by rfl
@[simp] theorem computeInverse_w : s.computeInverse.w = s.w := by rfl
@[simp] theorem computeInverse_mem : s.computeInverse.mem = s.mem := by rfl
@[simp] theorem computeInverse_capacity : s.computeInverse.capacity = s.capacity := by rfl
@[simp] theorem computeInverse_events : s.computeInverse.events = s.events := by rfl
@[simp] theorem computeInverse_rsp : s.computeInverse.rsp = s.rsp := by rfl
@[simp] theorem computeInverse_keyMatrix : s.computeInverse.keyMatrix = s.keyMatrix := by rfl
@[simp] theorem computeInverse_vector : s.computeInverse.vector = s.vector := by rfl
@[simp] theorem computeInverse_rawText : s.computeInverse.rawText = s.rawText := by rfl
@[simp] theorem computeInverse_tmax : s.computeInverse.tmax = s.tmax := by rfl
@[simp] theorem computeInverse_nmax : s.computeInverse.nmax = s.nmax := by rfl

/-! ### `writeTriple` -/

@[simp] theorem writeTriple_a (t : Int × Int × Int) : (s.writeTriple t).a = s.a := by rfl
@[simp] theorem writeTriple_b (t : Int × Int × Int) : (s.writeTriple t).b = s.b := by rfl
@[simp] theorem writeTriple_g (t : Int × Int × Int) :
    (s.writeTriple t).g =
      BitVec.ofInt 16 t.1 := by rfl
@[simp] theorem writeTriple_x (t : Int × Int × Int) :
    (s.writeTriple t).x =
      BitVec.ofInt 16 t.2.1 := by rfl
@[simp] theorem writeTriple_y (t : Int × Int × Int) :
    (s.writeTriple t).y =
      BitVec.ofInt 16 t.2.2 := by rfl
@[simp] theorem writeTriple_r (t : Int × Int × Int) : (s.writeTriple t).r = s.r := by rfl
@[simp] theorem writeTriple_det (t : Int × Int × Int) : (s.writeTriple t).det = s.det := by rfl
@[simp] theorem writeTriple_detm (t : Int × Int × Int) : (s.writeTriple t).detm = s.detm := by rfl
@[simp] theorem writeTriple_dinv (t : Int × Int × Int) : (s.writeTriple t).dinv = s.dinv := by rfl
@[simp] theorem writeTriple_tlen (t : Int × Int × Int) : (s.writeTriple t).tlen = s.tlen := by rfl
@[simp] theorem writeTriple_nlen (t : Int × Int × Int) : (s.writeTriple t).nlen = s.nlen := by rfl
@[simp] theorem writeTriple_olen (t : Int × Int × Int) : (s.writeTriple t).olen = s.olen := by rfl
@[simp] theorem writeTriple_blk (t : Int × Int × Int) : (s.writeTriple t).blk = s.blk := by rfl
@[simp] theorem writeTriple_status (t : Int × Int × Int) :
    (s.writeTriple t).status =
      s.status := by rfl
@[simp] theorem writeTriple_k (t : Int × Int × Int) : (s.writeTriple t).k = s.k := by rfl
@[simp] theorem writeTriple_ki (t : Int × Int × Int) : (s.writeTriple t).ki = s.ki := by rfl
@[simp] theorem writeTriple_aj (t : Int × Int × Int) : (s.writeTriple t).aj = s.aj := by rfl
@[simp] theorem writeTriple_v (t : Int × Int × Int) : (s.writeTriple t).v = s.v := by rfl
@[simp] theorem writeTriple_w (t : Int × Int × Int) : (s.writeTriple t).w = s.w := by rfl
@[simp] theorem writeTriple_mem (t : Int × Int × Int) : (s.writeTriple t).mem = s.mem := by rfl
@[simp] theorem writeTriple_capacity (t : Int × Int × Int) :
    (s.writeTriple t).capacity =
      s.capacity := by rfl
@[simp] theorem writeTriple_events (t : Int × Int × Int) :
    (s.writeTriple t).events =
      s.events := by rfl
@[simp] theorem writeTriple_rsp (t : Int × Int × Int) : (s.writeTriple t).rsp = s.rsp := by rfl
@[simp] theorem writeTriple_keyMatrix (t : Int × Int × Int) : (s.writeTriple t).keyMatrix = s.keyMatrix := by rfl
@[simp] theorem writeTriple_inverseBank (t : Int × Int × Int) : (s.writeTriple t).inverseBank = s.inverseBank := by rfl
@[simp] theorem writeTriple_vector (t : Int × Int × Int) : (s.writeTriple t).vector = s.vector := by rfl
@[simp] theorem writeTriple_rawText (t : Int × Int × Int) : (s.writeTriple t).rawText = s.rawText := by rfl
@[simp] theorem writeTriple_tmax (t : Int × Int × Int) : (s.writeTriple t).tmax = s.tmax := by rfl
@[simp] theorem writeTriple_nmax (t : Int × Int × Int) : (s.writeTriple t).nmax = s.nmax := by rfl

/-! ### `writeR` -/

@[simp] theorem writeR_a (n : Int) : (s.writeR n).a = s.a := by rfl
@[simp] theorem writeR_b (n : Int) : (s.writeR n).b = s.b := by rfl
@[simp] theorem writeR_g (n : Int) : (s.writeR n).g = s.g := by rfl
@[simp] theorem writeR_x (n : Int) : (s.writeR n).x = s.x := by rfl
@[simp] theorem writeR_y (n : Int) : (s.writeR n).y = s.y := by rfl
@[simp] theorem writeR_r (n : Int) : (s.writeR n).r = BitVec.ofInt 16 n := by rfl
@[simp] theorem writeR_det (n : Int) : (s.writeR n).det = s.det := by rfl
@[simp] theorem writeR_detm (n : Int) : (s.writeR n).detm = s.detm := by rfl
@[simp] theorem writeR_dinv (n : Int) : (s.writeR n).dinv = s.dinv := by rfl
@[simp] theorem writeR_tlen (n : Int) : (s.writeR n).tlen = s.tlen := by rfl
@[simp] theorem writeR_nlen (n : Int) : (s.writeR n).nlen = s.nlen := by rfl
@[simp] theorem writeR_olen (n : Int) : (s.writeR n).olen = s.olen := by rfl
@[simp] theorem writeR_blk (n : Int) : (s.writeR n).blk = s.blk := by rfl
@[simp] theorem writeR_status (n : Int) : (s.writeR n).status = s.status := by rfl
@[simp] theorem writeR_k (n : Int) : (s.writeR n).k = s.k := by rfl
@[simp] theorem writeR_ki (n : Int) : (s.writeR n).ki = s.ki := by rfl
@[simp] theorem writeR_aj (n : Int) : (s.writeR n).aj = s.aj := by rfl
@[simp] theorem writeR_v (n : Int) : (s.writeR n).v = s.v := by rfl
@[simp] theorem writeR_w (n : Int) : (s.writeR n).w = s.w := by rfl
@[simp] theorem writeR_mem (n : Int) : (s.writeR n).mem = s.mem := by rfl
@[simp] theorem writeR_capacity (n : Int) : (s.writeR n).capacity = s.capacity := by rfl
@[simp] theorem writeR_events (n : Int) : (s.writeR n).events = s.events := by rfl
@[simp] theorem writeR_rsp (n : Int) : (s.writeR n).rsp = s.rsp := by rfl
@[simp] theorem writeR_keyMatrix (n : Int) : (s.writeR n).keyMatrix = s.keyMatrix := by rfl
@[simp] theorem writeR_inverseBank (n : Int) : (s.writeR n).inverseBank = s.inverseBank := by rfl
@[simp] theorem writeR_vector (n : Int) : (s.writeR n).vector = s.vector := by rfl
@[simp] theorem writeR_rawText (n : Int) : (s.writeR n).rawText = s.rawText := by rfl
@[simp] theorem writeR_tmax (n : Int) : (s.writeR n).tmax = s.tmax := by rfl
@[simp] theorem writeR_nmax (n : Int) : (s.writeR n).nmax = s.nmax := by rfl

/-! ### `writeProduct` -/

@[simp] theorem writeProduct_a (m : Mat3 Int) : (s.writeProduct m).a = s.a := by rfl
@[simp] theorem writeProduct_b (m : Mat3 Int) : (s.writeProduct m).b = s.b := by rfl
@[simp] theorem writeProduct_g (m : Mat3 Int) : (s.writeProduct m).g = s.g := by rfl
@[simp] theorem writeProduct_x (m : Mat3 Int) : (s.writeProduct m).x = s.x := by rfl
@[simp] theorem writeProduct_y (m : Mat3 Int) : (s.writeProduct m).y = s.y := by rfl
@[simp] theorem writeProduct_r (m : Mat3 Int) : (s.writeProduct m).r = s.r := by rfl
@[simp] theorem writeProduct_det (m : Mat3 Int) : (s.writeProduct m).det = s.det := by rfl
@[simp] theorem writeProduct_detm (m : Mat3 Int) : (s.writeProduct m).detm = s.detm := by rfl
@[simp] theorem writeProduct_dinv (m : Mat3 Int) : (s.writeProduct m).dinv = s.dinv := by rfl
@[simp] theorem writeProduct_tlen (m : Mat3 Int) : (s.writeProduct m).tlen = s.tlen := by rfl
@[simp] theorem writeProduct_nlen (m : Mat3 Int) : (s.writeProduct m).nlen = s.nlen := by rfl
@[simp] theorem writeProduct_olen (m : Mat3 Int) : (s.writeProduct m).olen = s.olen := by rfl
@[simp] theorem writeProduct_blk (m : Mat3 Int) : (s.writeProduct m).blk = s.blk := by rfl
@[simp] theorem writeProduct_status (m : Mat3 Int) : (s.writeProduct m).status = s.status := by rfl
@[simp] theorem writeProduct_k (m : Mat3 Int) : (s.writeProduct m).k = s.k := by rfl
@[simp] theorem writeProduct_ki (m : Mat3 Int) : (s.writeProduct m).ki = s.ki := by rfl
@[simp] theorem writeProduct_aj (m : Mat3 Int) : (s.writeProduct m).aj = s.aj := by rfl
@[simp] theorem writeProduct_v (m : Mat3 Int) : (s.writeProduct m).v = s.v := by rfl
@[simp] theorem writeProduct_w (m : Mat3 Int) :
    (s.writeProduct m).w =
      vecMap residueBits (mvm m s.vector) := by rfl
@[simp] theorem writeProduct_mem (m : Mat3 Int) : (s.writeProduct m).mem = s.mem := by rfl
@[simp] theorem writeProduct_capacity (m : Mat3 Int) :
    (s.writeProduct m).capacity =
      s.capacity := by rfl
@[simp] theorem writeProduct_events (m : Mat3 Int) : (s.writeProduct m).events = s.events := by rfl
@[simp] theorem writeProduct_rsp (m : Mat3 Int) : (s.writeProduct m).rsp = s.rsp := by rfl
@[simp] theorem writeProduct_keyMatrix (m : Mat3 Int) : (s.writeProduct m).keyMatrix = s.keyMatrix := by rfl
@[simp] theorem writeProduct_inverseBank (m : Mat3 Int) : (s.writeProduct m).inverseBank = s.inverseBank := by rfl
@[simp] theorem writeProduct_vector (m : Mat3 Int) : (s.writeProduct m).vector = s.vector := by rfl
@[simp] theorem writeProduct_rawText (m : Mat3 Int) : (s.writeProduct m).rawText = s.rawText := by rfl
@[simp] theorem writeProduct_tmax (m : Mat3 Int) : (s.writeProduct m).tmax = s.tmax := by rfl
@[simp] theorem writeProduct_nmax (m : Mat3 Int) : (s.writeProduct m).nmax = s.nmax := by rfl

/-! ### `iterateBlocks` -/

@[simp] theorem iterateBlocks_a (m : Mat3 Int) : (s.iterateBlocks m).a = s.a := by rfl
@[simp] theorem iterateBlocks_b (m : Mat3 Int) : (s.iterateBlocks m).b = s.b := by rfl
@[simp] theorem iterateBlocks_g (m : Mat3 Int) : (s.iterateBlocks m).g = s.g := by rfl
@[simp] theorem iterateBlocks_x (m : Mat3 Int) : (s.iterateBlocks m).x = s.x := by rfl
@[simp] theorem iterateBlocks_y (m : Mat3 Int) : (s.iterateBlocks m).y = s.y := by rfl
@[simp] theorem iterateBlocks_r (m : Mat3 Int) : (s.iterateBlocks m).r = s.r := by rfl
@[simp] theorem iterateBlocks_det (m : Mat3 Int) : (s.iterateBlocks m).det = s.det := by rfl
@[simp] theorem iterateBlocks_detm (m : Mat3 Int) : (s.iterateBlocks m).detm = s.detm := by rfl
@[simp] theorem iterateBlocks_dinv (m : Mat3 Int) : (s.iterateBlocks m).dinv = s.dinv := by rfl
@[simp] theorem iterateBlocks_tlen (m : Mat3 Int) : (s.iterateBlocks m).tlen = s.tlen := by rfl
@[simp] theorem iterateBlocks_nlen (m : Mat3 Int) :
    (s.iterateBlocks m).nlen =
      BitVec.ofNat 16 (prepareText s.rawText).length := by rfl
@[simp] theorem iterateBlocks_olen (m : Mat3 Int) : (s.iterateBlocks m).olen = s.olen := by rfl
@[simp] theorem iterateBlocks_blk (m : Mat3 Int) :
    (s.iterateBlocks m).blk =
      BitVec.ofNat 16 ((prepareText s.rawText).length / 3) := by rfl
@[simp] theorem iterateBlocks_status (m : Mat3 Int) :
    (s.iterateBlocks m).status =
      { s.status with fsm := .iterateBlocks } := by rfl
@[simp] theorem iterateBlocks_k (m : Mat3 Int) : (s.iterateBlocks m).k = s.k := by rfl
@[simp] theorem iterateBlocks_ki (m : Mat3 Int) : (s.iterateBlocks m).ki = s.ki := by rfl
@[simp] theorem iterateBlocks_aj (m : Mat3 Int) : (s.iterateBlocks m).aj = s.aj := by rfl
@[simp] theorem iterateBlocks_v (m : Mat3 Int) : (s.iterateBlocks m).v = s.v := by rfl
@[simp] theorem iterateBlocks_w (m : Mat3 Int) : (s.iterateBlocks m).w = s.w := by rfl
@[simp] theorem iterateBlocks_mem (m : Mat3 Int) :
    (s.iterateBlocks m).mem =
      Memory.writeBytes (Memory.writeBytes s.mem Config.ntBase (prepareText s.rawText))
      Config.toutBase (cipherBlocks m (prepareText s.rawText)) := by rfl
@[simp] theorem iterateBlocks_capacity (m : Mat3 Int) :
    (s.iterateBlocks m).capacity =
      s.capacity := by rfl
@[simp] theorem iterateBlocks_events (m : Mat3 Int) :
    (s.iterateBlocks m).events =
      s.events := by rfl
@[simp] theorem iterateBlocks_rsp (m : Mat3 Int) : (s.iterateBlocks m).rsp = s.rsp := by rfl
@[simp] theorem iterateBlocks_keyMatrix (m : Mat3 Int) : (s.iterateBlocks m).keyMatrix = s.keyMatrix := by rfl
@[simp] theorem iterateBlocks_inverseBank (m : Mat3 Int) : (s.iterateBlocks m).inverseBank = s.inverseBank := by rfl
@[simp] theorem iterateBlocks_vector (m : Mat3 Int) : (s.iterateBlocks m).vector = s.vector := by rfl
@[simp] theorem iterateBlocks_tmax (m : Mat3 Int) : (s.iterateBlocks m).tmax = s.tmax := by rfl
@[simp] theorem iterateBlocks_nmax (m : Mat3 Int) : (s.iterateBlocks m).nmax = s.nmax := by rfl

/-! ### `finish` -/

@[simp] theorem finish_a : s.finish.a = s.a := by rfl
@[simp] theorem finish_b : s.finish.b = s.b := by rfl
@[simp] theorem finish_g : s.finish.g = s.g := by rfl
@[simp] theorem finish_x : s.finish.x = s.x := by rfl
@[simp] theorem finish_y : s.finish.y = s.y := by rfl
@[simp] theorem finish_r : s.finish.r = s.r := by rfl
@[simp] theorem finish_det : s.finish.det = s.det := by rfl
@[simp] theorem finish_detm : s.finish.detm = s.detm := by rfl
@[simp] theorem finish_dinv : s.finish.dinv = s.dinv := by rfl
@[simp] theorem finish_tlen : s.finish.tlen = s.tlen := by rfl
@[simp] theorem finish_nlen : s.finish.nlen = s.nlen := by rfl
@[simp] theorem finish_olen : s.finish.olen = s.nlen := by rfl
@[simp] theorem finish_blk : s.finish.blk = s.blk := by rfl
@[simp] theorem finish_status :
    s.finish.status =
      { s.status with fsm := .done, err := .none } := by rfl
@[simp] theorem finish_k : s.finish.k = s.k := by rfl
@[simp] theorem finish_ki : s.finish.ki = s.ki := by rfl
@[simp] theorem finish_aj : s.finish.aj = s.aj := by rfl
@[simp] theorem finish_v : s.finish.v = s.v := by rfl
@[simp] theorem finish_w : s.finish.w = s.w := by rfl
@[simp] theorem finish_mem : s.finish.mem = s.mem := by rfl
@[simp] theorem finish_capacity : s.finish.capacity = s.capacity := by rfl
@[simp] theorem finish_events : s.finish.events = s.events := by rfl
@[simp] theorem finish_rsp :
    s.finish.rsp =
      some ⟨false, Status.word { s.status with fsm := .done, err := .none }⟩ := by rfl
@[simp] theorem finish_keyMatrix : s.finish.keyMatrix = s.keyMatrix := by rfl
@[simp] theorem finish_inverseBank : s.finish.inverseBank = s.inverseBank := by rfl
@[simp] theorem finish_vector : s.finish.vector = s.vector := by rfl
@[simp] theorem finish_rawText : s.finish.rawText = s.rawText := by rfl
@[simp] theorem finish_tmax : s.finish.tmax = s.tmax := by rfl
@[simp] theorem finish_nmax : s.finish.nmax = s.nmax := by rfl

/-! ### `resetCore` -/

@[simp] theorem resetCore_a : s.resetCore.a = State.reset.a := by rfl
@[simp] theorem resetCore_b : s.resetCore.b = State.reset.b := by rfl
@[simp] theorem resetCore_g : s.resetCore.g = State.reset.g := by rfl
@[simp] theorem resetCore_x : s.resetCore.x = State.reset.x := by rfl
@[simp] theorem resetCore_y : s.resetCore.y = State.reset.y := by rfl
@[simp] theorem resetCore_r : s.resetCore.r = State.reset.r := by rfl
@[simp] theorem resetCore_det : s.resetCore.det = State.reset.det := by rfl
@[simp] theorem resetCore_detm : s.resetCore.detm = State.reset.detm := by rfl
@[simp] theorem resetCore_dinv : s.resetCore.dinv = State.reset.dinv := by rfl
@[simp] theorem resetCore_tlen : s.resetCore.tlen = State.reset.tlen := by rfl
@[simp] theorem resetCore_nlen : s.resetCore.nlen = State.reset.nlen := by rfl
@[simp] theorem resetCore_olen : s.resetCore.olen = State.reset.olen := by rfl
@[simp] theorem resetCore_blk : s.resetCore.blk = State.reset.blk := by rfl
@[simp] theorem resetCore_status : s.resetCore.status = State.reset.status := by rfl
@[simp] theorem resetCore_k : s.resetCore.k = State.reset.k := by rfl
@[simp] theorem resetCore_ki : s.resetCore.ki = State.reset.ki := by rfl
@[simp] theorem resetCore_aj : s.resetCore.aj = State.reset.aj := by rfl
@[simp] theorem resetCore_v : s.resetCore.v = State.reset.v := by rfl
@[simp] theorem resetCore_w : s.resetCore.w = State.reset.w := by rfl
@[simp] theorem resetCore_mem : s.resetCore.mem = s.mem := by rfl
@[simp] theorem resetCore_capacity : s.resetCore.capacity = s.capacity := by rfl
@[simp] theorem resetCore_events : s.resetCore.events = s.events := by rfl
@[simp] theorem resetCore_rsp : s.resetCore.rsp = s.rsp := by rfl
@[simp] theorem resetCore_tmax : s.resetCore.tmax = s.tmax := by rfl
@[simp] theorem resetCore_nmax : s.resetCore.nmax = s.nmax := by rfl

/-! ### `pinReset` -/

@[simp] theorem pinReset_a : s.pinReset.a = State.reset.a := by rfl
@[simp] theorem pinReset_b : s.pinReset.b = State.reset.b := by rfl
@[simp] theorem pinReset_g : s.pinReset.g = State.reset.g := by rfl
@[simp] theorem pinReset_x : s.pinReset.x = State.reset.x := by rfl
@[simp] theorem pinReset_y : s.pinReset.y = State.reset.y := by rfl
@[simp] theorem pinReset_r : s.pinReset.r = State.reset.r := by rfl
@[simp] theorem pinReset_det : s.pinReset.det = State.reset.det := by rfl
@[simp] theorem pinReset_detm : s.pinReset.detm = State.reset.detm := by rfl
@[simp] theorem pinReset_dinv : s.pinReset.dinv = State.reset.dinv := by rfl
@[simp] theorem pinReset_tlen : s.pinReset.tlen = State.reset.tlen := by rfl
@[simp] theorem pinReset_nlen : s.pinReset.nlen = State.reset.nlen := by rfl
@[simp] theorem pinReset_olen : s.pinReset.olen = State.reset.olen := by rfl
@[simp] theorem pinReset_blk : s.pinReset.blk = State.reset.blk := by rfl
@[simp] theorem pinReset_status : s.pinReset.status = State.reset.status := by rfl
@[simp] theorem pinReset_k : s.pinReset.k = State.reset.k := by rfl
@[simp] theorem pinReset_ki : s.pinReset.ki = State.reset.ki := by rfl
@[simp] theorem pinReset_aj : s.pinReset.aj = State.reset.aj := by rfl
@[simp] theorem pinReset_v : s.pinReset.v = State.reset.v := by rfl
@[simp] theorem pinReset_w : s.pinReset.w = State.reset.w := by rfl
@[simp] theorem pinReset_mem : s.pinReset.mem = s.mem := by rfl
@[simp] theorem pinReset_capacity : s.pinReset.capacity = s.capacity := by rfl
@[simp] theorem pinReset_events : s.pinReset.events = s.events := by rfl
@[simp] theorem pinReset_rsp : s.pinReset.rsp = none := by rfl
@[simp] theorem pinReset_tmax : s.pinReset.tmax = s.tmax := by rfl
@[simp] theorem pinReset_nmax : s.pinReset.nmax = s.nmax := by rfl

/-! ### `idle` -/

@[simp] theorem idle_a : s.idle.a = s.a := by rfl
@[simp] theorem idle_b : s.idle.b = s.b := by rfl
@[simp] theorem idle_g : s.idle.g = s.g := by rfl
@[simp] theorem idle_x : s.idle.x = s.x := by rfl
@[simp] theorem idle_y : s.idle.y = s.y := by rfl
@[simp] theorem idle_r : s.idle.r = s.r := by rfl
@[simp] theorem idle_det : s.idle.det = s.det := by rfl
@[simp] theorem idle_detm : s.idle.detm = s.detm := by rfl
@[simp] theorem idle_dinv : s.idle.dinv = s.dinv := by rfl
@[simp] theorem idle_tlen : s.idle.tlen = s.tlen := by rfl
@[simp] theorem idle_nlen : s.idle.nlen = s.nlen := by rfl
@[simp] theorem idle_olen : s.idle.olen = s.olen := by rfl
@[simp] theorem idle_blk : s.idle.blk = s.blk := by rfl
@[simp] theorem idle_status : s.idle.status = s.status := by rfl
@[simp] theorem idle_k : s.idle.k = s.k := by rfl
@[simp] theorem idle_ki : s.idle.ki = s.ki := by rfl
@[simp] theorem idle_aj : s.idle.aj = s.aj := by rfl
@[simp] theorem idle_v : s.idle.v = s.v := by rfl
@[simp] theorem idle_w : s.idle.w = s.w := by rfl
@[simp] theorem idle_mem : s.idle.mem = s.mem := by rfl
@[simp] theorem idle_capacity : s.idle.capacity = s.capacity := by rfl
@[simp] theorem idle_events : s.idle.events = s.events := by rfl
@[simp] theorem idle_rsp : s.idle.rsp = none := by rfl
@[simp] theorem idle_keyMatrix : s.idle.keyMatrix = s.keyMatrix := by rfl
@[simp] theorem idle_inverseBank : s.idle.inverseBank = s.inverseBank := by rfl
@[simp] theorem idle_vector : s.idle.vector = s.vector := by rfl
@[simp] theorem idle_rawText : s.idle.rawText = s.rawText := by rfl
@[simp] theorem idle_tmax : s.idle.tmax = s.tmax := by rfl
@[simp] theorem idle_nmax : s.idle.nmax = s.nmax := by rfl

/-! ### `illegalWord` -/

@[simp] theorem illegalWord_a : s.illegalWord.a = s.a := by rfl
@[simp] theorem illegalWord_b : s.illegalWord.b = s.b := by rfl
@[simp] theorem illegalWord_g : s.illegalWord.g = s.g := by rfl
@[simp] theorem illegalWord_x : s.illegalWord.x = s.x := by rfl
@[simp] theorem illegalWord_y : s.illegalWord.y = s.y := by rfl
@[simp] theorem illegalWord_r : s.illegalWord.r = s.r := by rfl
@[simp] theorem illegalWord_det : s.illegalWord.det = s.det := by rfl
@[simp] theorem illegalWord_detm : s.illegalWord.detm = s.detm := by rfl
@[simp] theorem illegalWord_dinv : s.illegalWord.dinv = s.dinv := by rfl
@[simp] theorem illegalWord_tlen : s.illegalWord.tlen = s.tlen := by rfl
@[simp] theorem illegalWord_nlen : s.illegalWord.nlen = s.nlen := by rfl
@[simp] theorem illegalWord_olen : s.illegalWord.olen = s.olen := by rfl
@[simp] theorem illegalWord_blk : s.illegalWord.blk = s.blk := by rfl
@[simp] theorem illegalWord_status :
    s.illegalWord.status =
      { s.status with err := .illegalCommand } := by rfl
@[simp] theorem illegalWord_k : s.illegalWord.k = s.k := by rfl
@[simp] theorem illegalWord_ki : s.illegalWord.ki = s.ki := by rfl
@[simp] theorem illegalWord_aj : s.illegalWord.aj = s.aj := by rfl
@[simp] theorem illegalWord_v : s.illegalWord.v = s.v := by rfl
@[simp] theorem illegalWord_w : s.illegalWord.w = s.w := by rfl
@[simp] theorem illegalWord_mem : s.illegalWord.mem = s.mem := by rfl
@[simp] theorem illegalWord_capacity : s.illegalWord.capacity = s.capacity := by rfl
@[simp] theorem illegalWord_events : s.illegalWord.events = s.events := by rfl
@[simp] theorem illegalWord_rsp :
    s.illegalWord.rsp =
      some ⟨true, Status.word { s.status with err := .illegalCommand }⟩ := by rfl
@[simp] theorem illegalWord_keyMatrix : s.illegalWord.keyMatrix = s.keyMatrix := by rfl
@[simp] theorem illegalWord_inverseBank : s.illegalWord.inverseBank = s.inverseBank := by rfl
@[simp] theorem illegalWord_vector : s.illegalWord.vector = s.vector := by rfl
@[simp] theorem illegalWord_rawText : s.illegalWord.rawText = s.rawText := by rfl
@[simp] theorem illegalWord_tmax : s.illegalWord.tmax = s.tmax := by rfl
@[simp] theorem illegalWord_nmax : s.illegalWord.nmax = s.nmax := by rfl

end Sys2Proof.Machine
end

