-- ==== Sys2Proof/Laws/Matrix.lean ====
section
/-! SUPPORT. The model's matrix functions as the determinant, adjugate and products of Mathlib,
and what DetStage and the inverse leave in the registers. -/

namespace Sys2Proof.Machine

theorem det3_keyMatrix (s : State) : det3 s.keyMatrix = s.keyOf.det := by
  simp only [det3, State.keyMatrix, matMap, State.keyOf, Matrix.det_fin_three, Matrix.of_apply,
    Matrix.cons_val]
  ring

/-- The adjugate of the key, entry by entry as R171 writes it. -/
theorem adjugate_keyOf (s : State) :
    s.keyOf.adjugate =
      !![(adj s.keyMatrix).a, (adj s.keyMatrix).b, (adj s.keyMatrix).c;
         (adj s.keyMatrix).d, (adj s.keyMatrix).e, (adj s.keyMatrix).f;
         (adj s.keyMatrix).g, (adj s.keyMatrix).h, (adj s.keyMatrix).i] := by
  rw [Matrix.adjugate_fin_three]
  ext r c
  fin_cases r <;> fin_cases c <;>
    simp [State.keyOf, adj, State.keyMatrix, matMap] <;> ring

theorem isResidue_iff (n : Int) : isResidue n = true ↔ 0 ≤ n ∧ n ≤ 25 := by
  simp [isResidue]

theorem keyInRange_iff (s : State) : keyInRange s.keyMatrix = true ↔ s.KeyInRange := by
  simp only [keyInRange, Bool.and_eq_true, isResidue_iff, State.KeyInRange]
  constructor
  · rintro ⟨⟨⟨⟨⟨⟨⟨⟨ha, hb⟩, hc⟩, hd⟩, he⟩, hf⟩, hg⟩, hh⟩, hi⟩ r c
    fin_cases r <;> fin_cases c <;> assumption
  · intro h
    exact ⟨⟨⟨⟨⟨⟨⟨⟨h 0 0, h 0 1⟩, h 0 2⟩, h 1 0⟩, h 1 1⟩, h 1 2⟩, h 2 0⟩, h 2 1⟩, h 2 2⟩

theorem keyInRange_eq_false_iff (s : State) : keyInRange s.keyMatrix = false ↔ ¬ s.KeyInRange := by
  rw [← keyInRange_iff, Bool.not_eq_true]

/-- What the extended GCD with 26 gives for each residue: whether it is coprime with 26, and then
its inverse (R151, R165). -/
theorem residue_inverse (d : Int) (h : 0 ≤ d) (h' : d < 26) :
    ((extendedGCD d 26).1 = 1 ↔ Int.gcd d 26 = 1) ∧
      ((extendedGCD d 26).1 = 1 → (d * ((extendedGCD d 26).2.1 % 26)) % 26 = 1) := by
  have key : ∀ n : Fin 26, ((extendedGCD (n.val : Int) 26).1 = 1 ↔ Int.gcd n.val 26 = 1) ∧
      ((extendedGCD (n.val : Int) 26).1 = 1 →
        ((n.val : Int) * ((extendedGCD (n.val : Int) 26).2.1 % 26)) % 26 = 1) := by decide
  have := key ⟨d.toNat, by omega⟩
  simpa [h] using this

/-- Everything DetStage computes (R165). -/
theorem detLocals_spec (m : Mat3 Int) :
    (detLocals m).det = det3 m ∧ (detLocals m).dm = det3 m % 26 ∧
      0 ≤ (detLocals m).dinv ∧ (detLocals m).dinv ≤ 25 ∧
      ((detLocals m).coprime = true ↔ Int.gcd (det3 m % 26) 26 = 1) ∧
      ((detLocals m).coprime = true → (det3 m % 26 * (detLocals m).dinv) % 26 = 1) ∧
      ((detLocals m).coprime = false → (detLocals m).dinv = 0) := by
  obtain ⟨hc, hi⟩ := residue_inverse (det3 m % 26) (by omega) (by omega)
  simp only [detLocals, mod_26, decide_eq_true_eq, decide_eq_false_iff_not]
  refine ⟨trivial, trivial, ?_, ?_, hc, fun h => ?_, fun h => if_neg h⟩
  · split <;> omega
  · split <;> omega
  · rw [if_pos h]; exact hi h

theorem coprime_iff (s : State) : (detLocals s.keyMatrix).coprime = true ↔ s.KeyCoprime := by
  rw [(detLocals_spec s.keyMatrix).2.2.2.2.1, det3_keyMatrix]; rfl

theorem coprime_eq_false_iff (s : State) :
    (detLocals s.keyMatrix).coprime = false ↔ ¬ s.KeyCoprime := by
  rw [← coprime_iff, Bool.not_eq_true]

/-- The determinant of a key K can hold (R161, the safe bound). -/
theorem det3_keyMatrix_bounds (s : State) :
    -12582912 ≤ det3 s.keyMatrix ∧ det3 s.keyMatrix ≤ 12582912 := by
  have mul_bound : ∀ {p q P Q : Int}, |p| ≤ P → |q| ≤ Q → |p * q| ≤ P * Q := by
    intro p q P Q hp hq
    rw [abs_mul]
    exact mul_le_mul hp hq (abs_nonneg q) (le_trans (abs_nonneg p) hp)
  have e : ∀ v : BitVec 8, |v.toInt| ≤ 128 := fun v =>
    abs_le.2 ⟨by have := toInt_8_bounds v; omega, by have := toInt_8_bounds v; omega⟩
  have minor : ∀ p q r u : BitVec 8, |p.toInt * q.toInt - r.toInt * u.toInt| ≤ 32768 := by
    intro p q r u
    have h := abs_le.1 (mul_bound (e p) (e q))
    have h' := abs_le.1 (mul_bound (e r) (e u))
    exact abs_le.2 ⟨by omega, by omega⟩
  have h1 := abs_le.1 (mul_bound (e s.k.a) (minor s.k.e s.k.i s.k.f s.k.h))
  have h2 := abs_le.1 (mul_bound (e s.k.b) (minor s.k.d s.k.i s.k.f s.k.g))
  have h3 := abs_le.1 (mul_bound (e s.k.c) (minor s.k.d s.k.h s.k.e s.k.g))
  simp only [det3, State.keyMatrix, matMap]
  omega

/-- DET holds the determinant without loss. -/
theorem toInt_ofInt_det3 (s : State) : (BitVec.ofInt 32 (det3 s.keyMatrix)).toInt = s.keyOf.det := by
  have := det3_keyMatrix_bounds s
  rw [toInt_ofInt_32 (by omega) (by omega), det3_keyMatrix]

/-- A state with the three registers of DetStage has them as R165 says. -/
theorem detStageWritten_of {s t : State} (hd : t.det = s.detStage.det)
    (hm : t.detm = s.detStage.detm) (hv : t.dinv = s.detStage.dinv) : DetStageWritten s t := by
  obtain ⟨e1, e2, e3, e4, _, e6, e7⟩ := detLocals_spec s.keyMatrix
  have hdinv : (t.dinv.toNat : Int) = (detLocals s.keyMatrix).dinv := by
    rw [hv, detStage_dinv, toNat_residueBits e3 (by omega)]
  have hdetm : (t.detm.toNat : Int) = s.keyOf.det % 26 := by
    rw [hm, detStage_detm, e2, toNat_residueBits_mod, det3_keyMatrix]
  refine ⟨?_, hdetm, by omega, fun h => ?_, fun h => ?_⟩
  · rw [hd, detStage_det, e1, toInt_ofInt_det3]
  · rw [hdetm, hdinv, ← det3_keyMatrix]
    exact e6 ((coprime_iff s).2 h)
  · have := e7 ((coprime_eq_false_iff s).2 h)
    omega

/-- A state with the inverse bank of `s` and its DINV has KI as R172 says. -/
theorem inverseWritten_of {s t : State} (hk : t.ki = s.writeInverse.ki)
    (hv : t.dinv = s.detStage.dinv) : InverseWritten s t := by
  obtain ⟨_, _, e3, e4, _, _, _⟩ := detLocals_spec s.keyMatrix
  have hdinv : (t.dinv.toNat : Int) = (detLocals s.keyMatrix).dinv := by
    rw [hv, detStage_dinv, toNat_residueBits e3 (by omega)]
  intro r c
  rw [hdinv, adjugate_keyOf]
  simp only [State.inverseOf, hk, writeInverse_ki, inverseEntries, matMap, mod_26]
  fin_cases r <;> fin_cases c <;> exact toNat_residueBits_mod _

/-- MINV with a key that has an inverse (R172). -/
theorem execMinv_of_coprime {s : State} (h : s.KeyCoprime) :
    execMinv s = .next s.detStage.writeInverse.succeed := by
  rw [execMinv, (coprime_iff s).2 h]
  rfl

/-- MINV with a key that has none (R172). -/
theorem execMinv_of_not_coprime {s : State} (h : ¬ s.KeyCoprime) :
    execMinv s = .next (s.detStage.raise .singularMatrix) := by
  rw [execMinv, (coprime_eq_false_iff s).2 h]
  rfl

end Sys2Proof.Machine
end

