-- ==== Sys2Proof/Laws/Memory.lean ====
section
/-! SUPPORT. The laws of the text memory: read after write, what a write leaves alone, and that
every operation keeps the canonical form. -/

namespace Sys2Proof.Machine

@[simp] theorem lookup_write_same (m : Memory) (addr : Nat) (v : Byte) :
    Memory.lookup (Memory.write m addr v) addr = some v := by
  induction m with
  | nil => simp [Memory.write, Memory.lookup]
  | cons p m ih =>
    obtain ⟨p, u⟩ := p
    simp only [Memory.write]
    split
    · simp [Memory.lookup]
    · split
      · simp [Memory.lookup]
      · next h => simp [Memory.lookup, h, ih]

theorem lookup_write_other (m : Memory) {addr other : Nat} (v : Byte) (h : other ≠ addr) :
    Memory.lookup (Memory.write m addr v) other = Memory.lookup m other := by
  induction m with
  | nil => simp [Memory.write, Memory.lookup, h]
  | cons p m ih =>
    obtain ⟨p, u⟩ := p
    simp only [Memory.write]
    split
    · simp [Memory.lookup, h]
    · split
      · next h' => subst h'; simp [Memory.lookup, h]
      · simp only [Memory.lookup, ih]

@[simp] theorem read_write_same (m : Memory) (addr : Nat) (v : Byte) :
    Memory.read (Memory.write m addr v) addr = v := by
  simp [Memory.read]

theorem read_write_other (m : Memory) {addr other : Nat} (v : Byte) (h : other ≠ addr) :
    Memory.read (Memory.write m addr v) other = Memory.read m other := by
  simp [Memory.read, lookup_write_other m v h]

/-- Every entry after a write is the byte written or an entry from before. -/
theorem mem_write {m : Memory} {addr : Nat} {v : Byte} {p : Host.Cell}
    (h : p ∈ Memory.write m addr v) : p = (addr, v) ∨ p ∈ m := by
  induction m with
  | nil => simpa [Memory.write] using h
  | cons q m ih =>
    obtain ⟨q, u⟩ := q
    simp only [Memory.write] at h
    split at h
    · simpa using h
    · split at h
      · rcases List.mem_cons.1 h with h | h
        · exact .inl h
        · exact .inr (List.mem_cons_of_mem _ h)
      · rcases List.mem_cons.1 h with h | h
        · exact .inr (h ▸ List.mem_cons_self)
        · exact (ih h).imp_right (List.mem_cons_of_mem _)

theorem wf_iff (m : Memory) :
    Memory.wf m = true ↔ m.Pairwise (fun p q => p.1 < q.1) := by
  simp [Memory.wf]

@[simp] theorem wf_nil : Memory.wf [] = true := by rfl

/-- A write keeps the canonical form. -/
theorem wf_write {m : Memory} (addr : Nat) (v : Byte) (h : Memory.wf m = true) :
    Memory.wf (Memory.write m addr v) = true := by
  rw [wf_iff] at h ⊢
  induction m with
  | nil => simp [Memory.write]
  | cons q m ih =>
    obtain ⟨q, u⟩ := q
    have hq := List.pairwise_cons.1 h
    simp only [Memory.write]
    split
    · next hlt =>
      refine List.pairwise_cons.2 ⟨fun p hp => ?_, h⟩
      rcases List.mem_cons.1 hp with rfl | hp
      · exact hlt
      · exact lt_trans hlt (hq.1 p hp)
    · split
      · next heq => exact List.pairwise_cons.2 ⟨fun p hp => heq ▸ hq.1 p hp, hq.2⟩
      · next hlt hne =>
        refine List.pairwise_cons.2 ⟨fun p hp => ?_, ih hq.2⟩
        rcases mem_write hp with rfl | hp
        · show q < addr; omega
        · exact hq.1 p hp

/-- Writing a list of bytes keeps the canonical form. -/
theorem wf_writeBytes {m : Memory} (addr : Nat) (vs : List Byte) (h : Memory.wf m = true) :
    Memory.wf (Memory.writeBytes m addr vs) = true := by
  induction vs generalizing m addr with
  | nil => exact h
  | cons v vs ih => exact ih _ (wf_write addr v h)

/-- Every entry after writing a list of bytes lies in the bytes written or is from before. -/
theorem mem_writeBytes {m : Memory} {addr : Nat} {vs : List Byte} {p : Host.Cell}
    (h : p ∈ Memory.writeBytes m addr vs) :
    (addr ≤ p.1 ∧ p.1 < addr + vs.length) ∨ p ∈ m := by
  induction vs generalizing m addr with
  | nil => exact .inr h
  | cons v vs ih =>
    rcases ih h with h | h
    · left; simp only [List.length_cons]; omega
    · rcases mem_write h with rfl | h
      · left; simp
      · exact .inr h

/-- A byte outside the bytes written reads as before. -/
theorem read_writeBytes_outside (m : Memory) {addr other : Nat} (vs : List Byte)
    (h : other < addr ∨ addr + vs.length ≤ other) :
    Memory.read (Memory.writeBytes m addr vs) other = Memory.read m other := by
  induction vs generalizing m addr with
  | nil => rfl
  | cons v vs ih =>
    simp only [List.length_cons] at h
    rw [Memory.writeBytes, ih _ (by omega), read_write_other _ _ (by omega)]

/-- A byte written reads as the byte of the list. -/
theorem read_writeBytes_inside (m : Memory) (addr : Nat) (vs : List Byte) {n : Nat}
    (h : n < vs.length) : Memory.read (Memory.writeBytes m addr vs) (addr + n) = vs[n] := by
  induction vs generalizing m addr n with
  | nil => simp at h
  | cons v vs ih =>
    rw [Memory.writeBytes]
    cases n with
    | zero =>
      rw [Nat.add_zero, read_writeBytes_outside _ _ (by omega)]
      simp
    | succ n =>
      have := ih (Memory.write m addr v) (addr + 1) (n := n) (by simpa using h)
      rw [show addr + (n + 1) = addr + 1 + n by omega, this]
      simp

/-- Reading back a list of bytes just written. -/
theorem map_read_writeBytes (m : Memory) (addr : Nat) (vs : List Byte) :
    (List.range vs.length).map (fun n => Memory.read (Memory.writeBytes m addr vs) (addr + n)) =
      vs := by
  apply List.ext_getElem (by simp)
  intro n h _
  simp only [List.length_map, List.length_range] at h
  simp [read_writeBytes_inside m addr vs h]

end Sys2Proof.Machine
end

