-- ==== Sys2Proof/Laws/Ops.lean ====
section
/-! SUPPORT. What each shared operation can do, said once, for the proofs that cite it. -/

namespace Sys2Proof.Machine

/-- A read that succeeds is in one of the three windows and gives the byte there (R64). -/
theorem memRead_some {s : State} {addr : Nat} {v : Byte} (h : s.memRead addr = some v) :
    (addr < s.tmax ∨
      (Config.ntBase ≤ addr ∧ addr < Config.ntBase + s.nlen.toNat) ∨
      (Config.toutBase ≤ addr ∧ addr < Config.toutBase + s.olen.toNat)) ∧
      v = Memory.read s.mem addr := by
  unfold State.memRead at h
  split at h
  · exact ⟨.inl ‹_›, (Option.some.inj h).symm⟩
  · split at h
    · exact ⟨.inr (.inl ‹_›), (Option.some.inj h).symm⟩
    · split at h
      · exact ⟨.inr (.inr ‹_›), (Option.some.inj h).symm⟩
      · cases h

/-- A read that raises RangeError is in no window (R64). -/
theorem memRead_none {s : State} {addr : Nat} (h : s.memRead addr = none) :
    s.tmax ≤ addr ∧ ¬ (Config.ntBase ≤ addr ∧ addr < Config.ntBase + s.nlen.toNat) ∧
      ¬ (Config.toutBase ≤ addr ∧ addr < Config.toutBase + s.olen.toNat) := by
  unfold State.memRead at h
  split at h
  · cases h
  · split at h
    · cases h
    · split at h
      · cases h
      · exact ⟨by omega, ‹_›, ‹_›⟩

/-- A write either is in TIN and writes its one byte, or raises RangeError (R65, R66). -/
theorem memWrite_cases (s : State) (addr : Nat) (v : Byte) :
    (addr < s.tmax ∧
      s.memWrite addr v = some (s.storeByte addr v)) ∨
      (s.tmax ≤ addr ∧ s.memWrite addr v = none) := by
  unfold State.memWrite
  split
  · exact .inl ⟨‹_›, rfl⟩
  · exact .inr ⟨by omega, rfl⟩

/-- Start and Validate end in one of four ways: the three errors in their order, or the command
goes on (R197, R198). -/
theorem startStage_cases (s : State) :
    (isEmptyInput s.rawText = true ∧
      s.startStage = .failed (s.noText.raise .emptyInput)) ∨
    (isEmptyInput s.rawText = false ∧ keyInRange s.keyMatrix = false ∧
      s.startStage = .failed (s.badKey.raise .validation)) ∨
    (isEmptyInput s.rawText = false ∧ keyInRange s.keyMatrix = true ∧
      (detLocals s.keyMatrix).coprime = false ∧
      s.startStage = .failed (s.badKey.raise .singularMatrix)) ∨
    (isEmptyInput s.rawText = false ∧ keyInRange s.keyMatrix = true ∧
      (detLocals s.keyMatrix).coprime = true ∧
      s.startStage = .go s.validated) := by
  unfold State.startStage State.validateStage
  by_cases h : isEmptyInput s.rawText = true
  · exact .inl ⟨h, if_pos h⟩
  · have h' := eq_false_of_ne_true h
    by_cases hr : keyInRange s.keyMatrix = false
    · exact .inr (.inl ⟨h', hr, (if_neg h).trans (if_pos hr)⟩)
    · have hr' := eq_true_of_ne_false hr
      by_cases hc : (detLocals s.keyMatrix).coprime = false
      · exact .inr (.inr (.inl ⟨h', hr', hc,
          (if_neg h).trans ((if_neg hr).trans (if_pos hc))⟩))
      · exact .inr (.inr (.inr ⟨h', hr', eq_true_of_ne_false hc,
          (if_neg h).trans ((if_neg hr).trans (if_neg hc))⟩))

/-- What a step can be: idle, a reset, a command, or an illegal word. -/
theorem step_cases {s t : State} (h : step s = .next t) :
    (s.events = [] ∧ t = s.idle) ∨
    (∃ es, s.events = .reset :: es ∧ t = State.pinReset { s with events := es }) ∨
    (∃ w es i, s.events = .command w :: es ∧ decode w = .ok i ∧
      exec i { s with events := es } = .next t) ∨
    (∃ w es e, s.events = .command w :: es ∧ decode w = .error e ∧
      t = State.illegalWord { s with events := es }) := by
  unfold step at h
  split at h
  · next he => exact .inl ⟨he, (Host.Outcome.next.inj h).symm⟩
  · next es he => exact .inr (.inl ⟨es, he, (Host.Outcome.next.inj h).symm⟩)
  · next w es he =>
    unfold execWord at h
    split at h
    · next i hd => exact .inr (.inr (.inl ⟨w, es, i, he, hd, h⟩))
    · next e hd => exact .inr (.inr (.inr ⟨w, es, e, he, hd, (Host.Outcome.next.inj h).symm⟩))

end Sys2Proof.Machine
end

