-- ==== Sys2Proof/Laws/Text.lean ====
section
/-! SUPPORT. Lengths, letters and blocks of the texts the block processor makes. -/

namespace Sys2Proof.Machine

/-- `isLetter` by the codes of R192. -/
theorem isLetter_iff (c : Byte) : isLetter c = true ↔ isLetterCode c := by
  simp [isLetter, isUpper, isLower]

/-- `upper` by the codes of R192. -/
theorem upper_eq_upperCode (c : Byte) : upper c = upperCode c := by
  revert c
  decide

/-- `isWhiteSpace` by the codes of R192. -/
theorem isWhiteSpace_iff (c : Byte) : isWhiteSpace c = true ↔ isSpaceCode c := by
  revert c
  decide

/-- Keeping the letters by name and by code. -/
theorem filter_isLetter (t : List Byte) :
    t.filter isLetter = t.filter (fun c => isLetterCode c) :=
  List.filter_congr fun c _ => by rw [Bool.eq_iff_iff, isLetter_iff, decide_eq_true_iff]

/-- The raw text is TIN read from address 0 upward (R67). -/
theorem rawText_eq (s : State) : s.rawText = s.inputText := by rfl

/-- A letter raised to upper case is a capital. -/
theorem upper_capital {c : Byte} (h : isLetter c = true) :
    0x41 ≤ (upper c).toNat ∧ (upper c).toNat ≤ 0x5A := by
  revert h
  revert c
  decide

theorem padLength_eq (n : Nat) : padLength n = (3 - n % 3) % 3 := by
  rw [padLength, mod_eq_emod _ (by decide)]
  omega

/-- The normaliser by the codes of R192. -/
theorem prepareText_eq (t : List Byte) : prepareText t = normalForm t := by
  rw [prepareText, lettersOf, normalForm, ← filter_isLetter, funext upper_eq_upperCode,
    List.length_map, padLength, mod_eq_emod _ (by decide)]

/-- The length of a normalised text: the number of letters, rounded up to a multiple of 3. -/
theorem length_prepareText (t : List Byte) :
    (prepareText t).length = 3 * (((t.filter isLetter).length + 2) / 3) := by
  simp only [prepareText, List.length_append, List.length_replicate, lettersOf, List.length_map,
    padLength_eq]
  omega

/-- A normalised text holds capitals only. -/
theorem capital_of_mem_prepareText {t : List Byte} {c : Byte} (h : c ∈ prepareText t) :
    0x41 ≤ c.toNat ∧ c.toNat ≤ 0x5A := by
  rcases List.mem_append.1 h with h | h
  · obtain ⟨d, hd, rfl⟩ := List.mem_map.1 h
    exact upper_capital (List.mem_filter.1 hd).2
  · rw [List.eq_of_mem_replicate h]
    decide

/-- The number of a capital is its distance from 'A' (R193). -/
theorem letterToNumber_capital {c : Byte} (h : 0x41 ≤ c.toNat ∧ c.toNat ≤ 0x5A) :
    letterToNumber c = (c.toNat : Int) - 0x41 := by
  have hu : isUpper c = true := by simp [isUpper, h]
  have hl : isLower c = false := by simp [isLower]; omega
  simp [letterToNumber, isLetter, upper, hu, hl]

/-- The letter of a residue (R194). -/
theorem toNat_numberToLetter {n : Int} (h : 0 ≤ n) (h' : n < 26) :
    ((numberToLetter n).toNat : Int) = 0x41 + n := by
  rw [numberToLetter, BitVec.toNat_ofInt]
  omega

/-- The blocks have as many letters as the text they are made from, if that is a multiple of 3. -/
theorem length_cipherBlocks (m : Mat3 Int) (j : Nat) (t : List Byte) (h : t.length = 3 * j) :
    (cipherBlocks m t).length = 3 * j := by
  induction j generalizing t with
  | zero => obtain rfl : t = [] := List.eq_nil_of_length_eq_zero h; rfl
  | succ j ih =>
    match t, h with
    | p :: q :: r :: rest, h =>
      simp only [cipherBlocks, List.length_cons] at h ⊢
      rw [ih rest (by omega)]
      omega

/-- Block j of the output is the image of block j of the text (R202). -/
theorem getElem_cipherBlocks (m : Mat3 Int) (j : Nat) (t : List Byte) {p q r : Byte}
    (hp : t[3 * j]? = some p) (hq : t[3 * j + 1]? = some q) (hr : t[3 * j + 2]? = some r) :
    (cipherBlocks m t)[3 * j]? = some (cipherBlock m p q r).v0 ∧
      (cipherBlocks m t)[3 * j + 1]? = some (cipherBlock m p q r).v1 ∧
      (cipherBlocks m t)[3 * j + 2]? = some (cipherBlock m p q r).v2 := by
  induction j generalizing t with
  | zero =>
    match t with
    | p' :: q' :: r' :: rest => simp_all [cipherBlocks]
    | [] => simp at hp
    | [_] => simp at hq
    | [_, _] => simp at hr
  | succ j ih =>
    match t with
    | p' :: q' :: r' :: rest =>
      rw [show 3 * (j + 1) = 3 * j + 1 + 1 + 1 by omega] at *
      simp only [cipherBlocks, List.getElem?_cons_succ] at *
      exact ih rest hp hq hr
    | [] => simp at hp
    | [_] => simp at hq
    | [_, _] => simp at hr

/-- Every letter of the output is a capital. -/
theorem capital_of_mem_cipherBlocks {m : Mat3 Int} {c : Byte} (t : List Byte)
    (h : c ∈ cipherBlocks m t) : 0x41 ≤ c.toNat ∧ c.toNat ≤ 0x5A := by
  match t with
  | p :: q :: r :: rest =>
    have letter : ∀ n : Int, 0x41 ≤ (numberToLetter (n % 26)).toNat ∧
        (numberToLetter (n % 26)).toNat ≤ 0x5A := fun n => by
      have := toNat_numberToLetter (n := n % 26) (by omega) (by omega)
      omega
    simp only [cipherBlocks, List.mem_cons, cipherBlock, vecMap, mvm, mod_26] at h
    rcases h with rfl | rfl | rfl | h
    · exact letter _
    · exact letter _
    · exact letter _
    · exact capital_of_mem_cipherBlocks rest h
  | [] => simp [cipherBlocks] at h
  | [_] => simp [cipherBlocks] at h
  | [_, _] => simp [cipherBlocks] at h

end Sys2Proof.Machine
end

