-- ==== Sys2Proof/Laws/Cipher.lean ====
section
/-! SUPPORT. The block processor: the texts' lengths, what IterateBlocks leaves, and the ways ENC
and DEC can end. -/

namespace Sys2Proof.Machine

@[simp] theorem length_rawText (s : State) : s.rawText.length = s.tlen.toNat := by
  simp [State.rawText]

/-- NMAX keeps NT and TOUT inside their windows (R64). -/
theorem nmax_le (s : State) : s.nmax ≤ 16383 := by
  have := s.capacity.isLt
  simp only [State.nmax, State.tmax]
  omega

theorem isEmptyInput_iff (s : State) : isEmptyInput s.rawText = true ↔ s.EmptyText := by
  simp only [isEmptyInput, State.EmptyText, List.all_eq_true, isWhiteSpace_iff, rawText_eq]

theorem isEmptyInput_eq_false_iff (s : State) :
    isEmptyInput s.rawText = false ↔ ¬ s.EmptyText := by
  rw [← isEmptyInput_iff, Bool.not_eq_true]

/-- The letter of a residue is read back as the residue (R194). -/
theorem letter_residue (n : Int) : ((numberToLetter (n % 26)).toNat : Int) - 0x41 = n % 26 := by
  rw [toNat_numberToLetter (by omega) (by omega)]
  omega

/-- What IterateBlocks and Done leave, for a normalised text that fits its windows (R202, R203):
`BlocksWritten`, for the matrix `m` written as a matrix of Mathlib. -/
theorem blocksWritten_of {s t : State} (m : Mat3 Int)
    (hfit : (prepareText s.rawText).length ≤ 16383)
    (hmem : t.mem = (s.iterateBlocks m).mem) (hnlen : t.nlen = (s.iterateBlocks m).nlen)
    (holen : t.olen = t.nlen) (hblk : t.blk = (s.iterateBlocks m).blk) :
    BlocksWritten !![m.a, m.b, m.c; m.d, m.e, m.f; m.g, m.h, m.i] s t := by
  rw [iterateBlocks_mem] at hmem
  rw [iterateBlocks_nlen] at hnlen
  rw [iterateBlocks_blk] at hblk
  obtain ⟨j, hj⟩ : ∃ j, (prepareText s.rawText).length = 3 * j := ⟨_, length_prepareText _⟩
  have hcap : ∀ c ∈ prepareText s.rawText, 0x41 ≤ c.toNat ∧ c.toNat ≤ 0x5A :=
    fun _ hc => capital_of_mem_prepareText hc
  have hlen := length_cipherBlocks m j _ hj
  have hn : t.nlen.toNat = (prepareText s.rawText).length := by
    rw [hnlen, BitVec.toNat_ofNat]; omega
  have hb : t.blk.toNat = j := by rw [hblk, BitVec.toNat_ofNat]; omega
  have readNt : ∀ n (h : n < (prepareText s.rawText).length),
      Memory.read t.mem (Config.ntBase + n) = (prepareText s.rawText)[n] := by
    intro n h
    rw [hmem, read_writeBytes_outside _ _ (by simp only [Config.ntBase, Config.toutBase]; omega),
      read_writeBytes_inside _ _ _ h]
  have readTout : ∀ n (h : n < (cipherBlocks m (prepareText s.rawText)).length),
      Memory.read t.mem (Config.toutBase + n) = (cipherBlocks m (prepareText s.rawText))[n] := by
    intro n h
    rw [hmem, read_writeBytes_inside _ _ _ h]
  rw [BlocksWritten, ← rawText_eq, ← prepareText_eq]
  refine ⟨hn, holen, by rw [hb, hn]; omega, ?_, ?_, ?_⟩
  · rw [State.normalisedText, hn]
    apply List.ext_getElem (by simp)
    intro n h _
    simp only [List.length_map, List.length_range] at h
    simp [readNt n h]
  · intro k hk
    rw [hb] at hk
    have h0 : 3 * k < (prepareText s.rawText).length := by omega
    have h1 : 3 * k + 1 < (prepareText s.rawText).length := by omega
    have h2 : 3 * k + 2 < (prepareText s.rawText).length := by omega
    obtain ⟨c0, c1, c2⟩ := getElem_cipherBlocks m k _ (List.getElem?_eq_getElem h0)
      (List.getElem?_eq_getElem h1) (List.getElem?_eq_getElem h2)
    rw [List.getElem?_eq_getElem (by omega), Option.some.injEq] at c0 c1 c2
    have l0 := letterToNumber_capital (hcap _ (List.getElem_mem h0))
    have l1 := letterToNumber_capital (hcap _ (List.getElem_mem h1))
    have l2 := letterToNumber_capital (hcap _ (List.getElem_mem h2))
    funext r
    simp only [State.blockAt, State.letterAt, add_assoc]
    rw [readTout _ (by omega), readTout _ (by omega), readTout _ (by omega), readNt _ h0,
      readNt _ h1, readNt _ h2, c0, c1, c2]
    fin_cases r <;>
      simp [Matrix.mulVec, dotProduct, Fin.sum_univ_three, cipherBlock, vecMap, mvm, l0, l1, l2,
        letter_residue]
  · intro addr ha hb
    rw [hn] at ha
    rw [holen, hn] at hb
    rw [hmem, read_writeBytes_outside _ _ (by omega), read_writeBytes_outside _ _ (by omega)]

/-- With a text and a valid key ENC goes through all its stages (R200). -/
theorem execEnc_of_valid {s : State} (ht : ¬ s.EmptyText) (hr : s.KeyInRange)
    (hc : s.KeyCoprime) :
    execEnc s = .next (s.validated.iterateBlocks s.validated.keyMatrix).finish := by
  rw [← isEmptyInput_eq_false_iff] at ht
  rw [← keyInRange_iff] at hr
  rw [← coprime_iff] at hc
  rcases startStage_cases s with ⟨h, _⟩ | ⟨_, h, _⟩ | ⟨_, _, h, _⟩ | ⟨_, _, _, h⟩
  · simp [h] at ht
  · simp [h] at hr
  · simp [h] at hc
  · rw [execEnc, h]

/-- With a text and a valid key DEC goes through all its stages (R201). -/
theorem execDec_of_valid {s : State} (ht : ¬ s.EmptyText) (hr : s.KeyInRange)
    (hc : s.KeyCoprime) :
    execDec s = .next (s.validated.computeInverse.iterateBlocks
      s.validated.computeInverse.inverseBank).finish := by
  rw [← isEmptyInput_eq_false_iff] at ht
  rw [← keyInRange_iff] at hr
  rw [← coprime_iff] at hc
  rcases startStage_cases s with ⟨h, _⟩ | ⟨_, h, _⟩ | ⟨_, _, h, _⟩ | ⟨_, _, _, h⟩
  · simp [h] at ht
  · simp [h] at hr
  · simp [h] at hc
  · rw [execDec, h]

end Sys2Proof.Machine
end

