-- ==== Sys2Proof/Laws/Encoding.lean ====
section
/-! SUPPORT. The fields of a packed word, a word as the packing of its fields, and what the
decoder's format checks answer. -/

namespace Sys2Proof

/-- The number a packed word is (R90). -/
theorem toNat_packWord (op f8 : Byte) (f16 : Half) :
    (packWord op f8 f16).toNat = op.toNat * 2 ^ 24 + f8.toNat * 2 ^ 16 + f16.toNat := by
  have h := BitVec.toNat_append (op ++ f8) f16
  rw [BitVec.toNat_append op f8, ← Nat.shiftLeft_add_eq_or_of_lt f8.isLt,
    ← Nat.shiftLeft_add_eq_or_of_lt f16.isLt, Nat.shiftLeft_eq, Nat.shiftLeft_eq] at h
  exact h.trans (by ring)

@[simp] theorem opField_packWord (op f8 : Byte) (f16 : Half) : opField (packWord op f8 f16) = op := by
  apply BitVec.eq_of_toNat_eq
  rw [opField, BitVec.extractLsb'_toNat, toNat_packWord, Nat.shiftRight_eq_div_pow]
  omega

@[simp] theorem f8Field_packWord (op f8 : Byte) (f16 : Half) : f8Field (packWord op f8 f16) = f8 := by
  apply BitVec.eq_of_toNat_eq
  rw [f8Field, BitVec.extractLsb'_toNat, toNat_packWord, Nat.shiftRight_eq_div_pow]
  omega

@[simp] theorem f16Field_packWord (op f8 : Byte) (f16 : Half) :
    f16Field (packWord op f8 f16) = f16 := by
  apply BitVec.eq_of_toNat_eq
  rw [f16Field, BitVec.extractLsb'_toNat, toNat_packWord, Nat.shiftRight_eq_div_pow]
  omega

/-- A word is the packing of its three fields (R90). -/
theorem packWord_fields (w : Word) : packWord (opField w) (f8Field w) (f16Field w) = w := by
  apply BitVec.eq_of_toNat_eq
  have hw := w.isLt
  rw [toNat_packWord]
  simp only [opField, f8Field, f16Field, BitVec.extractLsb'_toNat, Nat.shiftRight_eq_div_pow]
  omega

/-- Two packed words are equal exactly when their fields are. -/
theorem packWord_inj {op f8 op' f8' : Byte} {f16 f16' : Half} :
    packWord op f8 f16 = packWord op' f8' f16' ↔ op = op' ∧ f8 = f8' ∧ f16 = f16' := by
  constructor
  · intro h
    exact ⟨by simpa using congrArg opField h, by simpa using congrArg f8Field h,
      by simpa using congrArg f16Field h⟩
  · rintro ⟨rfl, rfl, rfl⟩
    rfl

/-- A bit of a packed word. -/
theorem getLsbD_packWord (op f8 : Byte) (f16 : Half) (n : Nat) :
    (packWord op f8 f16).getLsbD n =
      if n < 16 then f16.getLsbD n
      else if n - 16 < 8 then f8.getLsbD (n - 16) else op.getLsbD (n - 16 - 8) := by
  have h := BitVec.getLsbD_append (x := op ++ f8) (y := f16) (i := n)
  have h' := BitVec.getLsbD_append (x := op) (y := f8) (i := n - 16)
  rw [h'] at h
  exact h

/-- A mask acts field by field. -/
theorem packWord_and (op f8 mop m8 : Byte) (f16 m16 : Half) :
    packWord op f8 f16 &&& packWord mop m8 m16 =
      packWord (op &&& mop) (f8 &&& m8) (f16 &&& m16) := by
  apply BitVec.eq_of_getLsbD_eq
  intro n _
  simp only [BitVec.getLsbD_and, getLsbD_packWord]
  split_ifs <;> rfl

/-- A row accepts a word field by field. -/
theorem accepts_iff (row : OpcodeRow) (w : Word) :
    row.accepts w = true ↔
      opField w &&& opField row.mask = opField row.pattern ∧
        f8Field w &&& f8Field row.mask = f8Field row.pattern ∧
        f16Field w &&& f16Field row.mask = f16Field row.pattern := by
  rw [OpcodeRow.accepts, beq_iff_eq]
  conv_lhs =>
    rw [← packWord_fields w, ← packWord_fields row.mask, ← packWord_fields row.pattern,
      packWord_and, packWord_inj]

/-- A format check that passes found the field zero. -/
theorem needF8Zero_ok {w : Word} {k : Except DecodeError Instr} {i : Instr}
    (h : needF8Zero w k = .ok i) : f8Field w = 0#8 ∧ k = .ok i := by
  unfold needF8Zero at h
  split at h
  · exact ⟨‹_›, h⟩
  · cases h

/-- A format check that passes found the field zero. -/
theorem needF16Zero_ok {w : Word} {k : Except DecodeError Instr} {i : Instr}
    (h : needF16Zero w k = .ok i) : f16Field w = 0#16 ∧ k = .ok i := by
  unfold needF16Zero at h
  split at h
  · exact ⟨‹_›, h⟩
  · cases h

/-- What format N answers, and with which fields (R91). -/
theorem decodeN_ok {w : Word} {i j : Instr} (h : decodeN w i = .ok j) :
    f8Field w = 0#8 ∧ f16Field w = 0#16 ∧ j = i := by
  obtain ⟨h8, h⟩ := needF8Zero_ok h
  obtain ⟨h16, h⟩ := needF16Zero_ok h
  cases h
  exact ⟨h8, h16, rfl⟩

/-- What format S answers, and with which fields (R91). -/
theorem decodeS_ok {w : Word} {j : Instr} (h : decodeS w = .ok j) :
    (f8Field w = 0#8 ∨ f8Field w = 1#8) ∧ f16Field w = 0#16 ∧ j = .mvm (f8Field w) := by
  unfold decodeS at h
  split at h
  · obtain ⟨h16, h⟩ := needF16Zero_ok h
    cases h
    exact ⟨‹_›, h16, rfl⟩
  · cases h

end Sys2Proof
end

