-- ==== Sys2Proof/Laws/PerInstr.lean ====
section
/-! SUPPORT. One family of lemmas, one per constructor of `Instr`: the encoding of a well-formed
command is a word of the command's own row of the opcode map (R94). -/

namespace Sys2Proof.Laws

/-- The encoding of a well-formed command is accepted by a row of the opcode map with the command's
mnemonic (R94). -/
def EncodesItsRow.Statement (i : Instr) : Prop :=
  i.wellFormed = true →
    ∃ row ∈ opcodeMap, row.mnemonic = i.mnemonic ∧ row.accepts (encode i) = true

theorem EncodesItsRow.nop : EncodesItsRow.Statement .nop := by
  intro _
  decide

theorem EncodesItsRow.rst : EncodesItsRow.Statement .rst := by
  intro _
  decide

theorem EncodesItsRow.wr (rn : Byte) (imm : Half) : EncodesItsRow.Statement (.wr rn imm) := by
  refine fun _ => ⟨⟨"WR", 0x10000000#32, 0xFF000000#32⟩, by decide, rfl, ?_⟩
  rw [accepts_iff, encode, opField_packWord, f8Field_packWord, f16Field_packWord]
  refine ⟨by decide, ?_, ?_⟩
  · exact BitVec.and_zero
  · exact BitVec.and_zero

theorem EncodesItsRow.rd (rn : Byte) : EncodesItsRow.Statement (.rd rn) := by
  refine fun _ => ⟨⟨"RD", 0x11000000#32, 0xFF00FFFF#32⟩, by decide, rfl, ?_⟩
  rw [accepts_iff, encode, opField_packWord, f8Field_packWord, f16Field_packWord]
  refine ⟨by decide, ?_, ?_⟩
  · exact BitVec.and_zero
  · decide

theorem EncodesItsRow.wrb (addr : Half) (v : Byte) : EncodesItsRow.Statement (.wrb addr v) := by
  refine fun _ => ⟨⟨"WRB", 0x12000000#32, 0xFF000000#32⟩, by decide, rfl, ?_⟩
  rw [accepts_iff, encode, opField_packWord, f8Field_packWord, f16Field_packWord]
  refine ⟨by decide, ?_, ?_⟩
  · exact BitVec.and_zero
  · exact BitVec.and_zero

theorem EncodesItsRow.rdb (addr : Half) : EncodesItsRow.Statement (.rdb addr) := by
  refine fun _ => ⟨⟨"RDB", 0x13000000#32, 0xFFFF0000#32⟩, by decide, rfl, ?_⟩
  rw [accepts_iff, encode, opField_packWord, f8Field_packWord, f16Field_packWord]
  refine ⟨by decide, ?_, ?_⟩
  · decide
  · exact BitVec.and_zero

theorem EncodesItsRow.mod : EncodesItsRow.Statement .mod := by
  intro _
  decide

theorem EncodesItsRow.xgcd : EncodesItsRow.Statement .xgcd := by
  intro _
  decide

theorem EncodesItsRow.modinv : EncodesItsRow.Statement .modinv := by
  intro _
  decide

theorem EncodesItsRow.det : EncodesItsRow.Statement .det := by
  intro _
  decide

theorem EncodesItsRow.val : EncodesItsRow.Statement .val := by
  intro _
  decide

theorem EncodesItsRow.adj : EncodesItsRow.Statement .adj := by
  intro _
  decide

theorem EncodesItsRow.minv : EncodesItsRow.Statement .minv := by
  intro _
  decide

theorem EncodesItsRow.mvm (bank : Byte) : EncodesItsRow.Statement (.mvm bank) := by
  intro h
  have hb : bank = 0#8 ∨ bank = 1#8 := by simpa [Instr.wellFormed] using h
  rcases hb with rfl | rfl <;> decide

theorem EncodesItsRow.enc : EncodesItsRow.Statement .enc := by
  intro _
  decide

theorem EncodesItsRow.dec : EncodesItsRow.Statement .dec := by
  intro _
  decide

end Sys2Proof.Laws
end

