-- ==== Sys2Proof/Tests/Slice0.lean ====
section
/-! SUPPORT. The model's own tests. Expected values come from the spec: the tables T1 to T8 and the
programs of 95_test_vectors.md, the encodings of 30_encoding.md, the reset values of R42. The last
part holds, for every statement with hypotheses, a state and operands that meet them. -/

namespace Sys2Proof.Machine

/-! ### Helpers -/

/-- The outcome is a next state with the property. -/
def goesTo (o : Host.Outcome State Fault Refusal) (p : State → Bool) : Bool :=
  match o with
  | .next t => p t
  | .fault _ => false
  | .refused _ => false

/-- The key of the document's example (R167), the text VELES in TIN, and the vector (21, 4, 11). -/
def worked : State :=
  { State.reset with
    k := ⟨6, 24, 1, 13, 16, 10, 20, 17, 15⟩
    v := ⟨21, 4, 11⟩
    mem := [(0, 0x56), (1, 0x45), (2, 0x4C), (3, 0x45), (4, 0x53)]
    tlen := 5 }

/-- `worked` with another key. -/
def withKey (k : Mat3 (BitVec 8)) : State := { worked with k := k }

/-- Rows 0 and 1 equal (R168). -/
def twoRows : State := withKey ⟨1, 2, 3, 1, 2, 3, 4, 5, 6⟩

/-- `worked` with another text. -/
def withText (t : List (Nat × Byte)) (n : Half) : State := { worked with mem := t, tlen := n }

/-- Reset with A and B. -/
def withAB (a b : Int) : State :=
  { State.reset with a := BitVec.ofInt 16 a, b := BitVec.ofInt 16 b }

/-- What ENC leaves from `worked`. -/
def encrypted : State := (worked.validated.iterateBlocks worked.keyMatrix).finish

/-- The residues of a u5 matrix bank as numbers. -/
def bankOf (m : Mat3 (BitVec 5)) : Mat3 Nat := matMap BitVec.toNat m

/-! ### Well-formedness: the one check -/

theorem test_wellFormed_refuses_bank_2 : (Instr.mvm 2).wellFormed = false := by decide
theorem test_wellFormed_refuses_bank_255 : (Instr.mvm 255).wellFormed = false := by decide
theorem test_wellFormed_accepts_banks :
    (Instr.mvm 0).wellFormed = true ∧ (Instr.mvm 1).wellFormed = true := by decide
theorem test_wellFormed_accepts_any_register_number :
    (Instr.wr 0xFF 0xFFFF).wellFormed = true ∧ (Instr.rd 0xFF).wellFormed = true ∧
      (Instr.wrb 0xFFFF 0xFF).wellFormed = true ∧ (Instr.rdb 0xFFFF).wellFormed = true := by decide

/-! ### Decoding, from words written out from R90, R91, R94 -/

theorem test_decode_nop : decode 0x01000000#32 = .ok .nop := by decide
theorem test_decode_rst : decode 0x02000000#32 = .ok .rst := by decide
/-- 0001 0000, rn 0001 0100 = K[4], imm16 of −3 (R90, R98). -/
theorem test_decode_wr : decode 0x1014FFFD#32 = .ok (.wr 0x14 0xFFFD) := by decide
theorem test_decode_rd : decode 0x11060000#32 = .ok (.rd 0x06) := by decide
/-- The byte stands in 23:16 and the address in 15:0 (R91). -/
theorem test_decode_wrb : decode 0x124C0002#32 = .ok (.wrb 0x0002 0x4C) := by decide
theorem test_decode_rdb : decode 0x13008000#32 = .ok (.rdb 0x8000) := by decide
theorem test_decode_mod : decode 0x20000000#32 = .ok .mod := by decide
theorem test_decode_xgcd : decode 0x21000000#32 = .ok .xgcd := by decide
theorem test_decode_modinv : decode 0x22000000#32 = .ok .modinv := by decide
theorem test_decode_det : decode 0x30000000#32 = .ok .det := by decide
theorem test_decode_val : decode 0x31000000#32 = .ok .val := by decide
theorem test_decode_adj : decode 0x32000000#32 = .ok .adj := by decide
theorem test_decode_minv : decode 0x33000000#32 = .ok .minv := by decide
theorem test_decode_mvm_k : decode 0x34000000#32 = .ok (.mvm 0) := by decide
theorem test_decode_mvm_ki : decode 0x34010000#32 = .ok (.mvm 1) := by decide
theorem test_decode_enc : decode 0x40000000#32 = .ok .enc := by decide
theorem test_decode_dec : decode 0x41000000#32 = .ok .dec := by decide

/-- R96, clause by clause, with words of table T6. -/
theorem test_decode_illegal :
    decode 0x00000000#32 = .error .unassignedOpcode ∧
      decode 0xFFFFFFFF#32 = .error .unassignedOpcode ∧
      decode 0x42000000#32 = .error .unassignedOpcode ∧
      decode 0x01000001#32 = .error .nonzeroF16 ∧ decode 0x01010000#32 = .error .nonzeroF8 ∧
      decode 0x11000001#32 = .error .nonzeroF16 ∧ decode 0x13010000#32 = .error .nonzeroF8 ∧
      decode 0x34020000#32 = .error .badBank ∧ decode 0x34000001#32 = .error .nonzeroF16 := by
  decide

/-- The word of the table's row is the whole command (R90). -/
theorem test_decodeTableWord : decodeTableWord 32 0x34010000 = some (.mvm 1) := by decide

/-- The host's next command is the given word (log 1). -/
theorem test_withFetchWord :
    goesTo (step (State.reset.withFetchWord 32 0x1001FFFF)) (fun t => t.a = 0xFFFF) = true := by
  decide

/-! ### One step of each command -/

theorem test_nop : goesTo (exec .nop { worked with status := ⟨.range, .done, true, true⟩ })
    (fun t => t.status = ⟨.none, .done, true, true⟩ ∧ t.rsp = some ⟨false, 0x1C0⟩) = true := by
  decide

theorem test_rst : goesTo (exec .rst { encrypted with ki := ⟨1, 2, 3, 4, 5, 6, 7, 8, 9⟩ })
    (fun t => t.k = State.reset.k ∧ t.ki = State.reset.ki ∧ t.olen = 0 ∧
      t.rsp = some ⟨false, 0⟩ ∧ Memory.lookup t.mem 0 = some 0x56) = true := by decide

/-- T6: −128 is accepted in K[0] and −129 is not. -/
theorem test_wr_key : goesTo (exec (.wr 0x10 0xFF80) worked)
      (fun t => t.k = ⟨0x80, 24, 1, 13, 16, 10, 20, 17, 15⟩) = true ∧
    goesTo (exec (.wr 0x10 0xFF7F) worked)
      (fun t => t.k = worked.k ∧ t.rsp = some ⟨true, 6⟩) = true := by decide

/-- T6: TLEN takes TMAX = 256, KI is read-only. -/
theorem test_wr_tlen : goesTo (exec (.wr 0x0A 0x0100) State.reset) (fun t => t.tlen = 256) = true ∧
    goesTo (exec (.wr 0x0A 0x0101) State.reset) (fun t => t.rsp = some ⟨true, 6⟩) = true ∧
    goesTo (exec (.wr 0x20 0) State.reset) (fun t => t.rsp = some ⟨true, 4⟩) = true := by decide

/-- A signed register is read with its sign, a u5 one without (R123). -/
theorem test_rd : goesTo (exec (.rd 0x10) (withKey ⟨0xFD, 0, 0, 0, 0, 0, 0, 0, 0⟩))
      (fun t => t.rsp = some ⟨false, 0xFFFFFFFD⟩) = true ∧
    goesTo (exec (.rd 0x28) { worked with ki := ⟨0, 0, 0, 0, 0, 0, 0, 0, 25⟩ })
      (fun t => t.rsp = some ⟨false, 25⟩) = true := by decide

theorem test_rd_unmapped :
    goesTo (exec (.rd 0x19) worked) (fun t => t.rsp = some ⟨true, 4⟩) = true ∧
      goesTo (exec (.rd 0x4B) worked) (fun t => t.rsp = some ⟨true, 4⟩) = true := by decide

/-- T6: 255 is the last byte of TIN, 256 is outside. -/
theorem test_wrb : goesTo (exec (.wrb 0x00FF 0xFF) worked)
      (fun t => Memory.lookup t.mem 255 = some 0xFF ∧ Memory.lookup t.mem 4 = some 0x53) = true ∧
    goesTo (exec (.wrb 0x0100 0) worked)
      (fun t => t.mem = worked.mem ∧ t.rsp = some ⟨true, 6⟩) = true := by decide

/-- P3: the first byte of the ciphertext, and the address behind the last. -/
theorem test_rdb : goesTo (exec (.rdb 0x8000) encrypted)
      (fun t => t.rsp = some ⟨false, 0x5A⟩) = true ∧
    goesTo (exec (.rdb 0x8006) encrypted) (fun t => t.rsp = some ⟨true, 0x146⟩) = true := by decide

/-- T1. -/
theorem test_mod : goesTo (exec .mod (withAB (-3) 26)) (fun t => t.r = 23) = true ∧
    goesTo (exec .mod (withAB (-32768) 32767)) (fun t => t.r = 32766) = true := by decide

theorem test_mod_operand :
    goesTo (exec .mod (withAB 5 0)) (fun t => t.rsp = some ⟨true, 5⟩) = true := by decide

/-- T3. -/
theorem test_xgcd : goesTo (exec .xgcd (withAB 240 46))
      (fun t => t.g = 2 ∧ t.x.toInt = -9 ∧ t.y = 47) = true ∧
    goesTo (exec .xgcd (withAB 0 0)) (fun t => t.g = 0 ∧ t.x = 0 ∧ t.y = 1) = true := by decide

theorem test_xgcd_operand : goesTo (exec .xgcd (withAB (-1) 5))
    (fun t => t.g = 0 ∧ t.rsp = some ⟨true, 5⟩) = true := by decide

/-- T2. -/
theorem test_modinv : goesTo (exec .modinv (withAB (-3) 26))
      (fun t => t.g = 1 ∧ t.x.toInt = -9 ∧ t.y = 8 ∧ t.r = 17 ∧ t.status.noinv = false) = true ∧
    goesTo (exec .modinv (withAB 13 26))
      (fun t => t.g = 13 ∧ t.r = 0 ∧ t.status.noinv = true ∧ t.rsp = some ⟨false, 0x80⟩) = true := by
  decide

/-- T2, B = 1: R = 0 with NOINV = 0. -/
theorem test_modinv_one : goesTo (exec .modinv (withAB 5 1))
    (fun t => t.g = 1 ∧ t.y = 1 ∧ t.r = 0 ∧ t.status.noinv = false) = true := by decide

/-- T4: DET leaves DINV. -/
theorem test_det : goesTo (exec .det { worked with dinv := 7 })
      (fun t => t.det = 441 ∧ t.detm = 25 ∧ t.dinv = 7) = true ∧
    goesTo (exec .det (withKey ⟨17, 17, 5, 21, 18, 21, 2, 2, 19⟩))
      (fun t => t.det = 0xFFFFFC55 ∧ t.detm = 23) = true := by decide

/-- T4, rows `key` and `k27`. -/
theorem test_val : goesTo (exec .val worked)
      (fun t => t.dinv = 25 ∧ t.status.kval = true ∧ t.rsp = some ⟨false, 0x100⟩) = true ∧
    goesTo (exec .val (withKey ⟨27, 0, 0, 0, 1, 0, 0, 0, 1⟩))
      (fun t => t.detm = 1 ∧ t.dinv = 1 ∧ t.status.kval = false ∧ t.rsp = some ⟨false, 0⟩) = true := by
  decide

/-- T4. -/
theorem test_adj : goesTo (exec .adj worked)
    (fun t => bankOf t.aj = ⟨18, 21, 16, 5, 18, 5, 5, 14, 18⟩) = true := by decide

/-- T4, rows `k2` and `neg`: MINV inverts a key VAL calls invalid. -/
theorem test_minv : goesTo (exec .minv (withKey ⟨2, 4, 5, 9, 2, 1, 3, 17, 7⟩))
      (fun t => bankOf t.ki = ⟨11, 25, 22, 12, 21, 7, 7, 20, 22⟩) = true ∧
    goesTo (exec .minv (withKey ⟨0xFF, 0, 0, 0, 0xFF, 0, 0, 0, 0xFF⟩))
      (fun t => bankOf t.ki = ⟨25, 0, 0, 0, 25, 0, 0, 0, 25⟩) = true := by decide

theorem test_minv_singular : goesTo (exec .minv twoRows)
    (fun t => t.ki = twoRows.ki ∧ t.rsp = some ⟨true, 3⟩) = true := by decide

/-- T5. -/
theorem test_mvm : goesTo (exec (.mvm 0) worked) (fun t => t.w = ⟨25, 5, 3⟩) = true ∧
    goesTo (exec (.mvm 1)
        { worked with ki := ⟨8, 5, 10, 21, 8, 21, 21, 12, 8⟩, v := ⟨25, 5, 3⟩ })
      (fun t => t.w = ⟨21, 4, 11⟩) = true := by decide

theorem test_mvm_negative : goesTo (exec (.mvm 0)
    { withKey ⟨0xFD, 5, 7, 2, 0xF5, 4, 9, 1, 0xFE⟩ with v := ⟨0x80, 127, 0xFF⟩ })
    (fun t => t.w = ⟨24, 7, 17⟩) = true := by decide

/-- P3: VELES gives VELESZ and ZFDNSH. -/
theorem test_enc : goesTo (exec .enc worked)
    (fun t => t.normalisedText = [0x56, 0x45, 0x4C, 0x45, 0x53, 0x5A] ∧
      t.outputText = [0x5A, 0x46, 0x44, 0x4E, 0x53, 0x48] ∧ t.blk = 2 ∧
      t.rsp = some ⟨false, 0x140⟩) = true := by decide

/-- P4, an empty text and a singular key. -/
theorem test_enc_failures : goesTo (exec .enc { worked with tlen := 0 })
      (fun t => t.rsp = some ⟨true, 0x61⟩) = true ∧
    goesTo (exec .enc twoRows) (fun t => t.rsp = some ⟨true, 0x53⟩) = true := by decide

/-- P3b: ZFDNSH gives VELESZ. -/
theorem test_dec : goesTo
    (exec .dec (withText [(0, 0x5A), (1, 0x46), (2, 0x44), (3, 0x4E), (4, 0x53), (5, 0x48)] 6))
    (fun t => t.outputText = [0x56, 0x45, 0x4C, 0x45, 0x53, 0x5A] ∧
      bankOf t.ki = ⟨8, 5, 10, 21, 8, 21, 21, 12, 8⟩) = true := by decide

/-- A key out of range (R233). -/
theorem test_dec_validation : goesTo (exec .dec (withKey ⟨27, 0, 0, 0, 1, 0, 0, 0, 1⟩))
    (fun t => t.olen = 0 ∧ t.detm = 1 ∧ t.rsp = some ⟨true, 0x52⟩) = true := by decide

/-- R260: a reset keeps the text memory. -/
theorem test_reset_event : goesTo (step { encrypted with events := [.reset] })
    (fun t => t.k = State.reset.k ∧ t.olen = 0 ∧ Memory.lookup t.mem 0 = some 0x56 ∧
      t.rsp = none) = true := by decide

/-- T7: the normaliser. `hello world!` has ten letters (R207). -/
theorem test_prepareText : prepareText [0x41, 0x42] = [0x41, 0x42, 0x5A] ∧
    prepareText [0x68, 0x65, 0x6C, 0x6C, 0x6F, 0x20, 0x77, 0x6F, 0x72, 0x6C, 0x64, 0x21] =
      [0x48, 0x45, 0x4C, 0x4C, 0x4F, 0x57, 0x4F, 0x52, 0x4C, 0x44, 0x5A, 0x5A] := by decide

/-- R99: `LDK 1, 2, -3` and `TEXT "AB"`. -/
theorem test_expand : (expand (.ldk 1 2 (-3))).map encode = [0x1015FFFD#32] ∧
    (expand (.text [0x41, 0x42])).map encode = [0x12410000#32, 0x12420001#32, 0x100A0002#32] := by
  decide

/-! ### Witnesses: the hypotheses of each statement are met -/

theorem worked_coprime : worked.KeyCoprime := (coprime_iff worked).1 (by decide)

theorem worked_inRange : worked.KeyInRange := (keyInRange_iff worked).1 (by decide)

theorem worked_text : ¬ worked.EmptyText := (isEmptyInput_eq_false_iff worked).1 (by decide)

theorem exec_minv_worked : exec .minv worked = .next worked.detStage.writeInverse.succeed :=
  execMinv_of_coprime worked_coprime

theorem exec_enc_worked : exec .enc worked = .next encrypted :=
  execEnc_of_valid worked_text worked_inRange worked_coprime

/-- A text that fills TIN: TLEN = TMAX. -/
def full : State := { worked with tlen := 256 }

theorem full_text : ¬ full.EmptyText := fun h =>
  absurd (h 0x56 (List.mem_map.2 ⟨0, by decide, by decide⟩)) (by decide)

theorem witness_DecodeOfEncode :
    (Instr.mvm 1).wellFormed = true ∧ (Instr.wr 0xFF 0x8000).wellFormed = true := by decide

theorem witness_DecoderIsTheOpcodeMap :
    (∃ row ∈ opcodeMap, ∃ row' ∈ opcodeMap,
      row.accepts 0x34010000#32 = true ∧ row'.accepts 0x34010000#32 = true) ∧
      decode 0x34010000#32 = .ok (.mvm 1) ∧ decode 0x34020000#32 = .error .badBank := by decide

theorem witness_StepRunsTheDecodedCommand :
    ({ worked with events := [.command 0x40000000] } : State).events =
      .command 0x40000000 :: [] ∧ decode 0x40000000 = .ok .enc := by decide

theorem witness_IllegalWordRaisesIllegalCommand :
    ({ worked with events := [.command 0x34020000, .reset] } : State).events =
      .command 0x34020000 :: [.reset] ∧ decode 0x34020000 = .error .badBank := by decide

/-- A command that succeeds, one that fails, and the two reads that succeed. -/
theorem witness_EveryCommandGetsOneResponse :
    ({ worked with events := [.command 0x01000000] } : State).events = [.command 0x01000000] ∧
      goesTo (step { worked with events := [.command 0x01000000] })
        (fun t => t.rsp = some ⟨false, 0⟩) = true ∧
      goesTo (step { worked with events := [.command 0x20000000] })
        (fun t => t.rsp = some ⟨true, 5⟩) = true ∧
      goesTo (step { worked with events := [.command 0x11180000] })
        (fun t => t.rsp = some ⟨false, 15⟩) = true ∧
      goesTo (step { worked with events := [.command 0x13000004] })
        (fun t => t.rsp = some ⟨false, 0x53⟩) = true := by decide

theorem witness_IdleAndResetSteps :
    worked.events = [] ∧
      ({ worked with events := [.reset, .reset] } : State).events = .reset :: [.reset] := by decide

theorem witness_ResetStateHoldsItsValues :
    ({ worked with events := [.reset] } : State).events = .reset :: [] := by decide

/-- The invariant holds after an ENC that has written NT and TOUT. -/
theorem encrypted_inv : encrypted.Inv where
  detmAgrees := by decide
  dinvResidue := by decide
  kiResidues := by decide
  ajResidues := by decide
  wResidues := by decide
  gNonneg := by decide
  rNonneg := by decide
  tlenBound := by decide
  nlenBlocks := by decide
  nlenBound := by decide
  olenAgrees := by decide
  blkAgrees := by decide
  ntCapitals := by decide
  toutCapitals := by decide
  fsmRests := by decide
  failedEmpty := by decide
  memCanonical := by decide
  memPlaces := by decide

theorem witness_EveryStepKeepsTheInvariant :
    encrypted.Inv ∧ step encrypted = .next encrypted.idle := ⟨encrypted_inv, rfl⟩

theorem witness_ReachableStates : Reachable (State.reset.succeed) :=
  .next (.start Config.referenceCapacity [.command 0x01000000]) rfl

/-- Each clause of WR at the ends of its range. -/
theorem witness_WrWritesTheHostWritableRegisters :
    ((0xFFFF : Half).toInt < 0 ∧ (State.reset.tmax : ℤ) < (0x0101 : Half).toInt) ∧
      (0 ≤ (0 : Half).toInt ∧ (0x0100 : Half).toInt ≤ State.reset.tmax) ∧
      (0x10 ≤ (0x10 : Byte).toNat ∧ (0x18 : Byte).toNat ≤ 0x18) ∧
      (0x40 ≤ (0x40 : Byte).toNat ∧ (0x42 : Byte).toNat ≤ 0x42) ∧
      ((0xFF7F : Half).toInt < -128 ∧ 127 < (0x0080 : Half).toInt) ∧
      (-128 ≤ (0xFF80 : Half).toInt ∧ (0x007F : Half).toInt ≤ 127) ∧
      ∀ rn ∈ ([0x00, 0x03, 0x09, 0x0B, 0x0F, 0x19, 0x3F, 0x43, 0xFF] : List Byte),
        rn.toNat ∉ [0x01, 0x02, 0x0A] ∧ ¬ (0x10 ≤ rn.toNat ∧ rn.toNat ≤ 0x18) ∧
          ¬ (0x40 ≤ rn.toNat ∧ rn.toNat ≤ 0x42) := by decide

/-- The first and the last register of each bank, and unmapped numbers on both sides of them. -/
theorem witness_RdReadsEveryMappedRegister :
    (0x10 : Byte).toNat = 0x10 + (0 : Fin 9).val ∧ (0x18 : Byte).toNat = 0x10 + (8 : Fin 9).val ∧
      (0x20 : Byte).toNat = 0x20 + (0 : Fin 9).val ∧ (0x28 : Byte).toNat = 0x20 + (8 : Fin 9).val ∧
      (0x30 : Byte).toNat = 0x30 + (0 : Fin 9).val ∧ (0x38 : Byte).toNat = 0x30 + (8 : Fin 9).val ∧
      (0x40 : Byte).toNat = 0x40 + (0 : Fin 3).val ∧ (0x42 : Byte).toNat = 0x40 + (2 : Fin 3).val ∧
      (0x48 : Byte).toNat = 0x48 + (0 : Fin 3).val ∧ (0x4A : Byte).toNat = 0x48 + (2 : Fin 3).val ∧
      ∀ rn ∈ ([0x0E, 0x0F, 0x19, 0x1F, 0x29, 0x2F, 0x39, 0x3F, 0x43, 0x47, 0x4B, 0xFF] :
          List Byte),
        regOfNumber rn = none := by decide

theorem witness_WrbStoresOneByteOfTin :
    (0x00FF : Half).toNat < State.reset.tmax ∧ State.reset.tmax ≤ (0x0100 : Half).toNat := by decide

/-- The last address inside and the first outside each window. -/
theorem witness_RdbReadsTheThreeWindows :
    (0x00FF : Half).toNat < encrypted.tmax ∧
      (0x4000 ≤ (0x4005 : Half).toNat ∧ (0x4005 : Half).toNat < 0x4000 + encrypted.nlen.toNat) ∧
      (0x8000 ≤ (0x8005 : Half).toNat ∧ (0x8005 : Half).toNat < 0x8000 + encrypted.olen.toNat) ∧
      ∀ addr ∈ ([0x0100, 0x3FFF, 0x4006, 0x7FFF, 0x8006, 0xFFFF] : List Half),
        ¬ (addr.toNat < encrypted.tmax ∨
          (0x4000 ≤ addr.toNat ∧ addr.toNat < 0x4000 + encrypted.nlen.toNat) ∨
          (0x8000 ≤ addr.toNat ∧ addr.toNat < 0x8000 + encrypted.olen.toNat)) := by
  have h : encrypted.nlen = 6 := by decide
  have h' : encrypted.olen = 6 := by decide
  have h'' : encrypted.tmax = 256 := by decide
  rw [h, h', h'']
  simp

theorem witness_ModIsTheTrueModulo :
    (0 : ℤ) < 1 ∧ (0 ≤ (25 : ℤ) ∧ (25 : ℤ) < 26 ∧ (26 : ℤ) ∣ -27 - 25) ∧ (0 : ℤ) ≤ 0 := by decide

theorem witness_ExtendedGcd : (0 : ℤ) ≤ 0 ∧ (0 : ℤ) < 1 := by decide

theorem witness_ExtendedGcdResults :
    (0 : ℤ) ≤ 0 ∧ (0 : ℤ) ≤ 1 ∧ ((0 : ℤ) ≠ 0 ∨ (1 : ℤ) ≠ 0) ∧ (0 : ℤ) < 1 := by decide

theorem witness_ModWritesTheModulo :
    0 < (withAB (-3) 1).b.toInt ∧ (withAB 5 0).b.toInt ≤ 0 ∧ (withAB 5 (-32768)).b.toInt ≤ 0 := by
  decide

theorem witness_XgcdWritesTheTriple :
    (0 ≤ (withAB 0 0).a.toInt ∧ 0 ≤ (withAB 0 0).b.toInt) ∧
      (0 ≤ (withAB 32767 32767).a.toInt ∧ 0 ≤ (withAB 32767 32767).b.toInt) ∧
      (withAB (-1) 0).a.toInt < 0 ∧ (withAB 0 (-1)).b.toInt < 0 := by decide

/-- B = 1, a residue with an inverse, one without, and B = 0. -/
theorem witness_ModinvWritesTheInverse :
    0 < (withAB 5 1).b.toInt ∧
      goesTo (exec .modinv (withAB 5 1)) (fun t => t.g.toInt = 1) = true ∧
      goesTo (exec .modinv (withAB 13 26)) (fun t => t.g.toInt ≠ 1) = true ∧
      (withAB 7 0).b.toInt ≤ 0 := by decide

theorem witness_InversesModulo26 :
    (1 ≤ (1 : ℤ) ∧ (25 : ℤ) ≤ 25) ∧ modInverse 25 26 = some 25 ∧ modInverse 13 26 = none := by
  decide

theorem witness_DeterminantSize :
    (∀ i, -128 ≤ matGet (⟨127, -128, 127, 127, 127, -128, -128, 127, 127⟩ : Mat3 ℤ) i ∧
      matGet (⟨127, -128, 127, 127, 127, -128, -128, 127, 127⟩ : Mat3 ℤ) i ≤ 127) ∧
      ∀ i, 0 ≤ matGet (⟨25, 25, 0, 0, 25, 25, 25, 0, 25⟩ : Mat3 ℤ) i ∧
        matGet (⟨25, 25, 0, 0, 25, 25, 25, 0, 25⟩ : Mat3 ℤ) i ≤ 25 := by decide

theorem witness_ReducingFirst :
    keyInRange ⟨25, 25, 0, 0, 25, 25, 25, 0, 25⟩ = true := by decide

theorem witness_EqualRowsAreRejected :
    (∃ r r', r ≠ r' ∧ twoRows.keyOf r = twoRows.keyOf r') ∧ twoRows.KeyInRange ∧
      ¬ twoRows.EmptyText ∧ twoRows.keyOf.det % 2 = 0 ∧
      (withKey ⟨13, 0, 0, 0, 1, 0, 0, 0, 1⟩).keyOf.det % 26 = 13 :=
  ⟨⟨0, 1, by decide, rfl⟩, (keyInRange_iff twoRows).1 (by decide),
    (isEmptyInput_eq_false_iff twoRows).1 (by decide),
    by rw [← det3_keyMatrix]; decide, by rw [← det3_keyMatrix]; decide⟩

theorem witness_MinvWritesTheInverse : worked.KeyCoprime ∧ ¬ twoRows.KeyCoprime :=
  ⟨worked_coprime, (coprime_eq_false_iff twoRows).1 (by decide)⟩

/-- For the statements about a MINV that succeeds (R174, R176, R182). -/
theorem witness_MinvSucceeds : exec .minv worked = .next worked.detStage.writeInverse.succeed ∧
    worked.detStage.writeInverse.succeed.status.err = .none := ⟨exec_minv_worked, rfl⟩

/-- For R176, the other case. -/
theorem witness_MinvFails : exec .minv twoRows = .next (twoRows.detStage.raise .singularMatrix) :=
  execMinv_of_not_coprime ((coprime_eq_false_iff twoRows).1 (by decide))

theorem witness_InverseIsAdjugateTimesDinv :
    exec .adj worked.detStage.writeInverse.succeed =
      .next worked.detStage.writeInverse.succeed.writeAdjugate.succeed := rfl

theorem witness_MvmWritesTheProduct : (2 : Byte) ≠ 0 ∧ (2 : Byte) ≠ 1 := by decide

theorem witness_LawsOfTheProduct :
    (∀ j, 0 ≤ vecGet (⟨0, 25, 11⟩ : Vec3 ℤ) j ∧ vecGet (⟨0, 25, 11⟩ : Vec3 ℤ) j ≤ 25) ∧
    (⟨1, 2, 3, 0, 0, 0, 0, 0, 0⟩ : Mat3 ℤ).a = (⟨1, 2, 3, 4, 5, 6, 7, 8, 9⟩ : Mat3 ℤ).a ∧
      (⟨1, 2, 3, 0, 0, 0, 0, 0, 0⟩ : Mat3 ℤ).b = (⟨1, 2, 3, 4, 5, 6, 7, 8, 9⟩ : Mat3 ℤ).b ∧
      (⟨1, 2, 3, 0, 0, 0, 0, 0, 0⟩ : Mat3 ℤ).c = (⟨1, 2, 3, 4, 5, 6, 7, 8, 9⟩ : Mat3 ℤ).c := by
  decide

theorem witness_CodecIsABijection : (0 ≤ (0 : ℤ) ∧ (25 : ℤ) ≤ 25) ∧
    isLetterCode 0x41 ∧ isLetterCode 0x5A ∧ isLetterCode 0x61 ∧ isLetterCode 0x7A := by decide

theorem witness_PrepareTextNormalises : ∀ c ∈ ([0x40, 0x5B, 0x60, 0x7B] : List Byte),
    ¬ isLetterCode c := by decide

/-- The ends of the lower-case letters, the bytes beside them, and bytes that are no letter. -/
theorem witness_CharacterClassesAreByteCodes :
    (0x61 ≤ (0x61 : Byte).toNat ∧ (0x7A : Byte).toNat ≤ 0x7A) ∧
      (∀ c ∈ ([0x60, 0x7B] : List Byte), ¬ (0x61 ≤ c.toNat ∧ c.toNat ≤ 0x7A)) ∧
      isLetter (upper 0x61) = true ∧ isLetter 0x80 = false := by decide

/-- TLEN at TMAX, and the first and last byte of NT and TOUT. -/
theorem witness_TextsStandInAddressOrder :
    (full.tlen.toNat ≤ full.tmax ∧ 255 < full.tlen.toNat) ∧
      (0 < encrypted.nlen.toNat ∧ 5 < encrypted.nlen.toNat) ∧
      0 < encrypted.olen.toNat ∧ 5 < encrypted.olen.toNat := by decide

theorem witness_NormalisedTextFits : full.tlen.toNat ≤ full.tmax ∧
    exec .enc full = .next (full.validated.iterateBlocks full.keyMatrix).finish :=
  ⟨by decide, execEnc_of_valid full_text worked_inRange worked_coprime⟩

/-- The three failing cases of ENC and DEC (R231 to R233). -/
theorem witness_CipherFailures :
    (withText [(0, 0x20), (1, 0x09)] 2).EmptyText ∧ ({ worked with tlen := 0 } : State).EmptyText ∧
      ¬ (withKey ⟨26, 0, 0, 0, 1, 0, 0, 0, 1⟩).KeyInRange ∧
      ¬ (withKey ⟨0xFF, 0, 0, 0, 1, 0, 0, 0, 1⟩).KeyInRange ∧
      (¬ twoRows.EmptyText ∧ twoRows.KeyInRange ∧ ¬ twoRows.KeyCoprime) :=
  ⟨(isEmptyInput_iff _).1 (by decide), (isEmptyInput_iff _).1 (by decide),
    (keyInRange_eq_false_iff _).1 (by decide), (keyInRange_eq_false_iff _).1 (by decide),
    (isEmptyInput_eq_false_iff _).1 (by decide), (keyInRange_iff _).1 (by decide),
    (coprime_eq_false_iff _).1 (by decide)⟩

/-- The succeeding case of ENC and DEC, TLEN at TMAX. -/
theorem witness_CipherSucceeds :
    full.tlen.toNat ≤ full.tmax ∧ ¬ full.EmptyText ∧ full.KeyInRange ∧ full.KeyCoprime :=
  ⟨by decide, full_text, worked_inRange, worked_coprime⟩

theorem witness_NoPartialOutput :
    (worked.tlen.toNat ≤ worked.tmax ∧ exec .enc worked = .next encrypted ∧
      encrypted.status.err = .none) ∧
      exec .enc { encrypted with tlen := 0 } =
        .next (State.raise (State.noText { encrypted with tlen := 0 }) .emptyInput) :=
  ⟨⟨by decide, exec_enc_worked, rfl⟩, rfl⟩

theorem witness_LetterlessText :
    ¬ (withText [(0, 0x31), (1, 0x21)] 2).EmptyText ∧
      (∀ c ∈ (withText [(0, 0x31), (1, 0x21)] 2).inputText, ¬ isLetterCode c) ∧
      (withText [(0, 0x31), (1, 0x21)] 2).KeyInRange ∧
      (withText [(0, 0x31), (1, 0x21)] 2).KeyCoprime :=
  ⟨(isEmptyInput_eq_false_iff _).1 (by decide), by decide, worked_inRange, worked_coprime⟩

/-- P3b: the same key with the ciphertext of `worked` as its text. The other two clauses have the
witnesses of `witness_CipherFailures` and `witness_LetterlessText`. -/
theorem witness_DecryptionUndoesEncryption :
    worked.tlen.toNat ≤ worked.tmax ∧ (∃ c ∈ worked.inputText, isLetterCode c) ∧
      worked.KeyInRange ∧ worked.KeyCoprime ∧
      (withText [(0, 0x5A), (1, 0x46), (2, 0x44), (3, 0x4E), (4, 0x53), (5, 0x48)] 6).k =
        worked.k ∧
      (withText [(0, 0x5A), (1, 0x46), (2, 0x44), (3, 0x4E), (4, 0x53), (5, 0x48)] 6).inputText =
        encrypted.outputText :=
  ⟨by decide, by decide, worked_inRange, worked_coprime, rfl, by decide⟩

theorem witness_CipherAgrees_dec :
    exec .dec worked = .next (worked.validated.computeInverse.iterateBlocks
      worked.validated.computeInverse.inverseBank).finish ∧
      exec .val worked = .next (worked.detStage.setKval (validateMatrix worked.keyMatrix)).succeed :=
  ⟨execDec_of_valid worked_text worked_inRange worked_coprime, rfl⟩

/-- The text VEL and the vector (21, 4, 11). -/
def vel : State := { worked with tlen := 3 }

theorem witness_CipherAgrees_enc :
    vel.tlen.toNat ≤ vel.tmax ∧
      exec .enc vel = .next (vel.validated.iterateBlocks vel.keyMatrix).finish ∧
      (vel.validated.iterateBlocks vel.keyMatrix).finish.nlen = 3 ∧
      vel.vectorOf =
        (vel.validated.iterateBlocks vel.keyMatrix).finish.blockAt Config.ntBase 0 :=
  ⟨by decide,
    execEnc_of_valid ((isEmptyInput_eq_false_iff vel).1 (by decide)) worked_inRange worked_coprime,
    by decide, by decide⟩

theorem witness_WorkedEncryption : worked.k = ⟨6, 24, 1, 13, 16, 10, 20, 17, 15⟩ ∧
    worked.tlen.toNat ≤ worked.tmax ∧ worked.inputText = [0x56, 0x45, 0x4C, 0x45, 0x53] := by decide

/-- For the rules of the whole machine: a command that answers a next state. -/
theorem witness_WholeMachine : exec .nop worked = .next worked.succeed := rfl

/-- A command that writes DINV, and one that keeps a DINV that agrees, at 0 and at an inverse. -/
theorem witness_DinvAgreesUntilDet :
    (Instr.minv ∈ [Instr.val, .minv] ∧
        exec .minv worked = .next worked.detStage.writeInverse.succeed) ∧
      (Instr.nop ≠ .det ∧ worked.dinv.toNat = 0 ∧ exec .nop worked = .next worked.succeed) ∧
      (({ worked with detm := 25, dinv := 25 } : State).detm.toNat *
        ({ worked with detm := 25, dinv := 25 } : State).dinv.toNat) % 26 = 1 :=
  ⟨⟨by decide, exec_minv_worked⟩, ⟨by decide, rfl, rfl⟩, by decide⟩

/-- Each error is raised by one of the commands named. -/
theorem witness_ErrorsAreRaised :
    goesTo (exec .enc { worked with tlen := 0 })
        (fun t => t.status.err = .emptyInput ∧ t.rsp.map (·.err) = some true) = true ∧
      goesTo (exec .dec (withKey ⟨26, 0, 0, 0, 1, 0, 0, 0, 1⟩))
        (fun t => t.status.err = .validation ∧ t.rsp.map (·.err) = some true) = true ∧
      goesTo (exec .minv twoRows)
        (fun t => t.status.err = .singularMatrix ∧ t.rsp.map (·.err) = some true) = true ∧
      goesTo (exec (.rd 0xFF) worked)
        (fun t => t.status.err = .illegalCommand ∧ t.rsp.map (·.err) = some true) = true ∧
      goesTo (exec .modinv worked)
        (fun t => t.status.err = .operand ∧ t.rsp.map (·.err) = some true) = true ∧
      goesTo (exec (.rdb 0xFFFF) worked)
        (fun t => t.status.err = .range ∧ t.rsp.map (·.err) = some true) = true := by decide

/-- Two runs of one command from states that differ in the flags, and each clause: commands that
write a flag, a MODINV and an ENC that do not, a read of data, a read of STATUS. -/
theorem witness_NoCommandReadsTheFlags :
    (exec .det worked = .next worked.writeDet.succeed ∧
      exec .det { worked with status := { worked.status with noinv := true, kval := true } } =
        .next (State.succeed (State.writeDet
          { worked with status := { worked.status with noinv := true, kval := true } }))) ∧
      WritesNoinv .modinv (withAB 7 1) ∧ ¬ WritesNoinv .modinv (withAB 7 0) ∧
      WritesKval .val worked ∧ WritesKval .enc worked ∧ ¬ WritesKval .enc { worked with tlen := 0 } ∧
      AnswersData (.rd 0x01) ∧ ¬ AnswersData (.rd 0x00) ∧ AnswersData (.rdb 0) := by
  refine ⟨⟨rfl, rfl⟩, .inr ⟨rfl, by decide⟩, ?_, .inr (.inl rfl),
    .inr (.inr ⟨by decide, worked_text⟩), ?_, .inl ⟨0x01, by decide, rfl⟩, ?_, .inr ⟨0, rfl⟩⟩
  · rintro (h | ⟨-, h⟩)
    · cases h
    · exact absurd h (by decide)
  · rintro (h | h | ⟨-, h⟩)
    · cases h
    · cases h
    · exact h ((isEmptyInput_iff _).1 (by decide))
  · rintro (⟨rn, h, h'⟩ | ⟨addr, h⟩)
    · cases h'; exact h rfl
    · cases h

/-- Two states with the same text and key and different registers and capacities. -/
theorem witness_CipherReadsTextAndKeyOnly :
    worked.k = ({ encrypted with capacity := 4 } : State).k ∧
      worked.inputText = ({ encrypted with capacity := 4 } : State).inputText ∧
      worked.tlen.toNat ≤ worked.tmax ∧
      ({ encrypted with capacity := 4 } : State).tlen.toNat ≤
        ({ encrypted with capacity := 4 } : State).tmax ∧
      exec .enc worked = .next encrypted ∧ ¬ worked.EmptyText :=
  ⟨rfl, by decide, by decide, by decide, exec_enc_worked, worked_text⟩

/-- For its clause about KI: a DEC that succeeds. -/
theorem witness_CipherReadsTextAndKeyOnly_dec :
    exec .dec worked = .next (worked.validated.computeInverse.iterateBlocks
      worked.validated.computeInverse.inverseBank).finish ∧
      (worked.validated.computeInverse.iterateBlocks
        worked.validated.computeInverse.inverseBank).finish.status.err = .none :=
  ⟨execDec_of_valid worked_text worked_inRange worked_coprime, rfl⟩

end Sys2Proof.Machine
end

section
/-! SUPPORT. The word of STATUS field by field (R30), and the state after a reset (R42). -/

namespace Sys2Proof.Machine

/-! ### The word of STATUS -/

/-- ERR is cut out of the word of STATUS at bits 3:0. -/
@[simp] theorem extractLsb'_word_err (u : Status) : u.word.extractLsb' 0 4 = errCode u.err := by
  rw [Status.word, BitVec.extractLsb'_append_eq_right]

/-- FSM is cut out of the word of STATUS at bits 6:4. -/
@[simp] theorem extractLsb'_word_fsm (u : Status) : u.word.extractLsb' 4 3 = fsmCode u.fsm := by
  rw [Status.word, BitVec.extractLsb'_append_eq_of_le (by decide),
    BitVec.extractLsb'_append_eq_right]

/-- NOINV is cut out of the word of STATUS at bit 7. -/
@[simp] theorem extractLsb'_word_noinv (u : Status) :
    u.word.extractLsb' 7 1 = BitVec.ofBool u.noinv := by
  rw [Status.word, BitVec.extractLsb'_append_eq_of_le (by decide),
    BitVec.extractLsb'_append_eq_of_le (by decide), BitVec.extractLsb'_append_eq_right]

/-- KVAL is cut out of the word of STATUS at bit 8. -/
@[simp] theorem extractLsb'_word_kval (u : Status) :
    u.word.extractLsb' 8 1 = BitVec.ofBool u.kval := by
  rw [Status.word, BitVec.extractLsb'_append_eq_of_le (by decide),
    BitVec.extractLsb'_append_eq_of_le (by decide),
    BitVec.extractLsb'_append_eq_of_le (by decide), BitVec.extractLsb'_append_eq_right]

/-- The reserved bits 31:9 of STATUS read as 0. -/
@[simp] theorem extractLsb'_word_reserved (u : Status) : u.word.extractLsb' 9 23 = 0#23 := by
  rw [Status.word, BitVec.extractLsb'_append_eq_of_le (by decide),
    BitVec.extractLsb'_append_eq_of_le (by decide),
    BitVec.extractLsb'_append_eq_of_le (by decide),
    BitVec.extractLsb'_append_eq_of_le (by decide), BitVec.extractLsb'_zero]

/-- A response word read as a number and written back is itself (R11). -/
@[simp] theorem wordOfInt_toNat (w : Word) : wordOfInt (w.toNat : Int) = w := by
  rw [wordOfInt, BitVec.ofInt_natCast, BitVec.ofNat_toNat, BitVec.setWidth_eq]

/-- Register number 0x00 is STATUS's, and no other is (R21). -/
theorem regOfNumber_eq_status_iff (rn : Byte) : regOfNumber rn = some .status ↔ rn = 0x00 := by
  revert rn
  decide

/-- WR of STATUS: the register is read-only to the host (R30, R122). -/
theorem execWr_status (s : State) (imm : Half) :
    execWr 0x00 imm s = .next (s.raise .illegalCommand) := by
  have hro : hostRegOfNumber 0x00 = none := by decide
  rw [execWr, hro]

/-- RD of STATUS answers the word of STATUS (R30, R123). -/
theorem execRd_status (s : State) : execRd 0x00 s = .next (s.answer s.status.word) := by
  rw [execRd, (regOfNumber_eq_status_iff _).2 rfl]
  simp only [State.regValue, wordOfInt_toNat]

/-- Settles O15: the codes by evaluation, the two transfers by their rules, and each field of the
word by its own lemma. -/
theorem statusFieldsStandAtTheirBits : Obligations.StatusFieldsStandAtTheirBits :=
  ⟨by decide, by decide, fun s imm => ⟨execWr_status s imm, execRd_status s⟩,
    fun u => ⟨extractLsb'_word_err u, extractLsb'_word_fsm u, extractLsb'_word_noinv u,
      extractLsb'_word_kval u, extractLsb'_word_reserved u⟩⟩

/-! ### The state after a reset -/

/-- A byte of TIN can be read in every state (R64). -/
theorem memRead_tin {s : State} {addr : Nat} (h : addr < s.tmax) :
    s.memRead addr = some (Memory.read s.mem addr) :=
  if_pos h

/-- With the outputs withdrawn no byte outside TIN can be read (R38, R64). -/
theorem memRead_eq_none_of_withdrawn {s : State} (hn : s.nlen = 0) (ho : s.olen = 0) {addr : Nat}
    (h : s.tmax ≤ addr) : s.memRead addr = none := by
  rw [State.memRead, hn, ho, if_neg (by omega), if_neg (by simp), if_neg (by simp)]

/-- The word of STATUS after a reset is 0 (R42). -/
theorem word_status_reset : State.reset.status.word = 0 := by decide

/-- The reset values with any text memory, capacity, coming events and response are those of
R42. -/
theorem atReset_of_reset_with (m : Memory) (c : TextCapacity) (es : List HostEvent)
    (p : Option Response) :
    State.AtReset { State.reset with mem := m, capacity := c, events := es, rsp := p } := by
  refine ⟨word_status_reset, rfl, rfl, rfl, rfl, rfl, rfl, rfl, rfl, rfl, rfl, rfl, rfl, rfl, ?_,
    ?_, ?_, ?_, ?_, fun _ => memRead_eq_none_of_withdrawn rfl rfl⟩
  · show ∀ i, matGet State.reset.k i = 0
    decide
  · show ∀ i, matGet State.reset.ki i = 0
    decide
  · show ∀ i, matGet State.reset.aj i = 0
    decide
  · show ∀ j, vecGet State.reset.v j = 0
    decide
  · show ∀ j, vecGet State.reset.w j = 0
    decide

/-- The state after power-up (R42). -/
theorem atReset_reset : State.reset.AtReset := atReset_of_reset_with _ _ _ _

/-- The state after a hardware reset (R42, R260). -/
theorem atReset_pinReset (s : State) : s.pinReset.AtReset := atReset_of_reset_with _ _ _ _

/-- The state after RST (R42, R121). -/
theorem atReset_resetCore_succeed (s : State) : s.resetCore.succeed.AtReset :=
  atReset_of_reset_with _ _ _ _

/-- At power-up every byte of TIN is the unspecified one of its address (R262). -/
theorem memRead_reset {addr : Nat} (h : addr < State.reset.tmax) :
    State.reset.memRead addr = some (Config.tin0 addr) :=
  memRead_tin h

/-- A state with the capacity and the text memory of another reads TIN as that one does. -/
theorem memRead_tin_congr {s t : State} (hc : t.tmax = s.tmax) (hm : t.mem = s.mem) {addr : Nat}
    (h : addr < s.tmax) : t.memRead addr = s.memRead addr := by
  rw [memRead_tin h, memRead_tin (hc ▸ h), hm]

/-- A hardware reset keeps TIN (R260). -/
theorem memRead_pinReset {s : State} {addr : Nat} (h : addr < s.tmax) :
    s.pinReset.memRead addr = s.memRead addr :=
  memRead_tin_congr (pinReset_tmax s) (pinReset_mem s) h

/-- RST keeps TIN (R121). -/
theorem memRead_resetCore_succeed {s : State} {addr : Nat} (h : addr < s.tmax) :
    s.resetCore.succeed.memRead addr = s.memRead addr :=
  memRead_tin_congr (resetCore_tmax s) (resetCore_mem s) h

/-- A step that takes a reset event resets the state without that event (R260). -/
theorem step_of_reset {s : State} {es : List HostEvent} (h : s.events = .reset :: es) :
    step s = .next (State.pinReset { s with events := es }) := by
  rw [step, h]

/-- Settles O10: all three states are `State.reset` but for the memory, the capacity and the ports,
and a reset keeps the memory and the capacity. -/
theorem resetStateHoldsItsValues : Obligations.ResetStateHoldsItsValues :=
  ⟨atReset_reset, fun _ => memRead_reset,
    fun s es h => ⟨_, step_of_reset h, atReset_pinReset _,
      fun _ => memRead_pinReset (s := { s with events := es })⟩,
    fun s => ⟨_, rfl, atReset_resetCore_succeed s, fun _ => memRead_resetCore_succeed⟩⟩

end Sys2Proof.Machine
end

section
/-! SUPPORT. The branches of the commands that can raise an error, an equation per branch, and what
MODINV, VAL, ENC and DEC write into their flag. -/

namespace Sys2Proof.Machine

variable {s t : State}

/-! ### The gcd of the recursion -/

/-- With enough depth the recursion of R143 gives the gcd. -/
theorem extendedGCDWithin_fst {n : Nat} {a b : Int} (ha : 0 ≤ a) (hb : 0 ≤ b) (hn : a.toNat < n) :
    (extendedGCDWithin n a b).1 = Int.gcd a b := by
  induction n generalizing a b with
  | zero => omega
  | succ n ih =>
    by_cases h0 : a = 0
    · simp [extendedGCDWithin, h0, abs_of_nonneg hb]
    · have hpos : 0 < a := by omega
      obtain ⟨hm, hlt⟩ := mod_bounds b hpos
      calc (extendedGCDWithin (n + 1) a b).1
          = (extendedGCDWithin n (mod b a) a).1 := by rw [extendedGCDWithin, if_neg h0]
        _ = Int.gcd (mod b a) a := ih hm ha (by omega)
        _ = Int.gcd a b := by rw [mod_eq_emod b hpos, Int.gcd_emod, Int.gcd_comm]

/-- The first number of the triple of R143 is the gcd. -/
theorem extendedGCD_fst {a b : Int} (ha : 0 ≤ a) (hb : 0 ≤ b) :
    (extendedGCD a b).1 = Int.gcd a b :=
  extendedGCDWithin_fst ha hb (Nat.lt_succ_self _)

/-- The gcd MODINV finds is that of A and B, since reducing A modulo B keeps it (R146). -/
theorem extendedGCD_mod_fst (a : Int) {b : Int} (hb : 0 < b) :
    (extendedGCD (mod a b) b).1 = Int.gcd a b := by
  rw [extendedGCD_fst (mod_bounds a hb).1 hb.le, mod_eq_emod a hb, Int.gcd_emod]

/-! ### The branches of the commands -/

/-- WR of a number that names no host-writable register (R122). -/
theorem execWr_of_none {rn : Byte} (imm : Half) (h : hostRegOfNumber rn = none) :
    execWr rn imm s = .next (s.raise .illegalCommand) := by
  rw [execWr, h]

/-- WR of a value outside the register's range (R122, R236). -/
theorem execWr_of_out_of_range {rn : Byte} {imm : Half} {q : HostReg}
    (h : hostRegOfNumber rn = some q) (hr : imm.toInt < q.lo ∨ s.hostRegHi q < imm.toInt) :
    execWr rn imm s = .next (s.raise .range) := by
  rw [execWr, h]
  exact if_pos hr

/-- WR of a value in the register's range (R122). -/
theorem execWr_of_in_range {rn : Byte} {imm : Half} {q : HostReg}
    (h : hostRegOfNumber rn = some q) (hr : ¬ (imm.toInt < q.lo ∨ s.hostRegHi q < imm.toInt)) :
    execWr rn imm s = .next (s.writeHostReg q imm.toInt).succeed := by
  rw [execWr, h]
  exact if_neg hr

/-- RD of an unmapped number (R123). -/
theorem execRd_of_none {rn : Byte} (h : regOfNumber rn = none) :
    execRd rn s = .next (s.raise .illegalCommand) := by
  rw [execRd, h]

/-- RD of a register (R123). -/
theorem execRd_of_some {rn : Byte} {q : Reg} (h : regOfNumber rn = some q) :
    execRd rn s = .next (s.answer (wordOfInt (s.regValue q))) := by
  rw [execRd, h]

/-- WRB into TIN (R124). -/
theorem execWrb_of_lt {addr : Half} (byte : Byte) (h : addr.toNat < s.tmax) :
    execWrb addr byte s = .next (s.storeByte addr.toNat byte).succeed := by
  rw [execWrb, State.memWrite, if_pos h]

/-- WRB outside TIN (R124, R236). -/
theorem execWrb_of_le {addr : Half} (byte : Byte) (h : s.tmax ≤ addr.toNat) :
    execWrb addr byte s = .next (s.raise .range) := by
  rw [execWrb, State.memWrite, if_neg (by omega)]

/-- RDB of an address outside the windows (R125, R236). -/
theorem execRdb_of_none {addr : Half} (h : s.memRead addr.toNat = none) :
    execRdb addr s = .next (s.raise .range) := by
  rw [execRdb, h]

/-- RDB of a byte that can be read (R125). -/
theorem execRdb_of_some {addr : Half} {u : Byte} (h : s.memRead addr.toNat = some u) :
    execRdb addr s = .next (s.answer (u.zeroExtend 32)) := by
  rw [execRdb, h]

/-- A bank select that no word encodes (R96, R127). -/
theorem execMvm_of_bad_bank {bank : Byte} (h0 : bank ≠ 0#8) (h1 : bank ≠ 1#8) :
    execMvm bank s = .next s.illegalWord := by
  rw [execMvm, if_neg h0, if_neg h1]

/-- MOD with a modulus that is not positive (R142, R235). -/
theorem execMod_of_nonpos (h : s.b.toInt ≤ 0) : execMod s = .next (s.raise .operand) := if_pos h

/-- MOD with a positive modulus (R142). -/
theorem execMod_of_pos (h : 0 < s.b.toInt) :
    execMod s = .next (s.writeR (mod s.a.toInt s.b.toInt)).succeed :=
  if_neg (by omega)

/-- XGCD with a negative operand (R144, R235). -/
theorem execXgcd_of_neg (h : s.a.toInt < 0 ∨ s.b.toInt < 0) :
    execXgcd s = .next (s.raise .operand) :=
  if_pos h

/-- XGCD with operands that are not negative (R144). -/
theorem execXgcd_of_nonneg (h : ¬ (s.a.toInt < 0 ∨ s.b.toInt < 0)) :
    execXgcd s = .next (s.writeTriple (extendedGCD s.a.toInt s.b.toInt)).succeed :=
  if_neg h

/-- The registers MODINV writes where it raises no error (R146): the triple, NOINV, and R. -/
def State.writeModinv (s : State) : State :=
  let p := extendedGCD (mod s.a.toInt s.b.toInt) s.b.toInt
  ((s.writeTriple p).setNoinv (decide (p.1 ≠ 1))).writeR
    (if p.1 ≠ 1 then 0 else mod p.2.1 s.b.toInt)

/-- MODINV with a modulus that is not positive (R146, R235). -/
theorem execModinv_of_nonpos (h : s.b.toInt ≤ 0) : execModinv s = .next (s.raise .operand) :=
  if_pos h

/-- MODINV with a positive modulus (R146). -/
theorem execModinv_of_pos (h : 0 < s.b.toInt) : execModinv s = .next s.writeModinv.succeed := by
  rw [execModinv, if_neg (by omega), State.writeModinv]
  by_cases hg : (extendedGCD (mod s.a.toInt s.b.toInt) s.b.toInt).1 ≠ 1
  · simp only [if_pos hg, decide_eq_true hg]
  · simp only [if_neg hg, decide_eq_false hg]

/-- Start with an empty text (R197). -/
theorem startStage_of_emptyText (h : s.EmptyText) :
    s.startStage = .failed (s.noText.raise .emptyInput) :=
  if_pos ((isEmptyInput_iff s).2 h)

/-- Start with a text goes on to Validate (R197). -/
theorem startStage_of_text (h : ¬ s.EmptyText) :
    s.startStage = ((s.setFsm .start).withdrawOutputs).validateStage :=
  if_neg (mt (isEmptyInput_iff s).1 h)

/-- Validate with a key out of range (R198, R233). -/
theorem startStage_of_not_inRange (ht : ¬ s.EmptyText) (hr : ¬ s.KeyInRange) :
    s.startStage = .failed (s.badKey.raise .validation) :=
  (startStage_of_text ht).trans (if_pos ((keyInRange_eq_false_iff s).2 hr))

/-- Validate with a key in range that has no inverse (R198, R232). -/
theorem startStage_of_not_coprime (ht : ¬ s.EmptyText) (hr : s.KeyInRange) (hc : ¬ s.KeyCoprime) :
    s.startStage = .failed (s.badKey.raise .singularMatrix) :=
  (startStage_of_text ht).trans
    ((if_neg (mt (keyInRange_eq_false_iff s).1 (not_not_intro hr))).trans
      (if_pos ((coprime_eq_false_iff s).2 hc)))

/-- The two commands of the block processor. -/
theorem enc_or_dec {i : Instr} (hi : i ∈ [Instr.enc, .dec]) : i = .enc ∨ i = .dec := by
  simpa using hi

/-- ENC and DEC end where Start or Validate raises an error (R200, R201). -/
theorem exec_cipher_of_failed {i : Instr} (hi : i ∈ [Instr.enc, .dec])
    (h : s.startStage = .failed t) : exec i s = .next t := by
  rcases enc_or_dec hi with rfl | rfl
  · rw [exec, execEnc, h]
  · rw [exec, execDec, h]

/-! ### What the commands write into the flags -/

/-- The range test and the coprimality test of R164. -/
theorem validateMatrix_iff (s : State) :
    validateMatrix s.keyMatrix = true ↔ s.KeyInRange ∧ s.KeyCoprime := by
  rw [validateMatrix, Bool.and_eq_true, keyInRange_iff, coprime_iff]

/-- NOINV after a MODINV without an error (R29, R146). -/
theorem noinv_after_modinv (hb : 0 < s.b.toInt) (h : exec .modinv s = .next t) :
    t.status.noinv = true ↔ Int.gcd s.a.toInt s.b.toInt ≠ 1 := by
  obtain rfl := Host.Outcome.next.inj ((execModinv_of_pos hb).symm.trans h)
  show decide ((extendedGCD (mod s.a.toInt s.b.toInt) s.b.toInt).1 ≠ 1) = true ↔ _
  rw [decide_eq_true_iff, extendedGCD_mod_fst _ hb]
  norm_cast

/-- KVAL after VAL (R29, R163). -/
theorem kval_after_val (h : exec .val s = .next t) :
    t.status.kval = true ↔ s.KeyInRange ∧ s.KeyCoprime := by
  obtain rfl := Host.Outcome.next.inj h
  exact validateMatrix_iff s

/-- KVAL after an ENC or DEC of a text with a valid key (R198). -/
theorem kval_after_valid_cipher {i : Instr} (hi : i ∈ [Instr.enc, .dec]) (ht : ¬ s.EmptyText)
    (hr : s.KeyInRange) (hc : s.KeyCoprime) (h : exec i s = .next t) : t.status.kval = true := by
  rcases enc_or_dec hi with rfl | rfl
  · obtain rfl := Host.Outcome.next.inj ((execEnc_of_valid ht hr hc).symm.trans h)
    rfl
  · obtain rfl := Host.Outcome.next.inj ((execDec_of_valid ht hr hc).symm.trans h)
    rfl

/-- KVAL after an ENC or DEC of a text that is not empty (R29, R198). -/
theorem kval_after_cipher {i : Instr} (hi : i ∈ [Instr.enc, .dec]) (ht : ¬ s.EmptyText)
    (h : exec i s = .next t) : t.status.kval = true ↔ s.KeyInRange ∧ s.KeyCoprime := by
  by_cases hr : s.KeyInRange
  · by_cases hc : s.KeyCoprime
    · exact iff_of_true (kval_after_valid_cipher hi ht hr hc h) ⟨hr, hc⟩
    · have hf := exec_cipher_of_failed hi (startStage_of_not_coprime ht hr hc)
      obtain rfl := Host.Outcome.next.inj (hf.symm.trans h)
      exact iff_of_false Bool.false_ne_true fun hv => hc hv.2
  · have hf := exec_cipher_of_failed hi (startStage_of_not_inRange ht hr)
    obtain rfl := Host.Outcome.next.inj (hf.symm.trans h)
    exact iff_of_false Bool.false_ne_true fun hv => hr hv.1

end Sys2Proof.Machine
end

section
/-! SUPPORT. Two runs of one command from states that differ in NOINV and KVAL only (R29): how the
flags pass through every write of the state, and for each command that the two runs end alike. -/

namespace Sys2Proof.Machine

/-- The state with other values of the two flags. -/
def State.withFlags (s : State) (n v : Bool) : State :=
  { s with status := { s.status with noinv := n, kval := v } }

/-! ### The flags and the writes of the state -/

section Commute

variable (s : State) (n v : Bool)

/-- WR writes no flag. -/
theorem writeHostReg_status (q : HostReg) (r : Int) : (s.writeHostReg q r).status = s.status := by
  cases q <;> rfl

theorem withFlags_writeHostReg (q : HostReg) (r : Int) :
    (s.withFlags n v).writeHostReg q r = (s.writeHostReg q r).withFlags n v := by
  cases q <;> rfl

theorem withFlags_hostRegHi (q : HostReg) :
    (s.withFlags n v).hostRegHi q = s.hostRegHi q := by
  cases q <;> rfl

/-- A valid key sets KVAL, whatever it was. -/
theorem withFlags_validated : (s.withFlags n v).validated = s.validated.withFlags n true := by rfl

/-- A MODINV without an error sets NOINV, whatever it was. -/
theorem withFlags_writeModinv :
    (s.withFlags n v).writeModinv = s.writeModinv.withFlags s.writeModinv.status.noinv v := by rfl

/-- VAL sets KVAL, whatever it was. -/
theorem withFlags_detStage_setKval (c : Bool) :
    (s.withFlags n v).detStage.setKval c = (s.detStage.setKval c).withFlags n c := by rfl

theorem withFlags_computeInverse :
    (s.withFlags n v).computeInverse = s.computeInverse.withFlags n v := by rfl

theorem withFlags_iterateBlocks (m : Mat3 Int) :
    (s.withFlags n v).iterateBlocks m = (s.iterateBlocks m).withFlags n v := by rfl

/-- No register but STATUS shows the flags. -/
theorem withFlags_regValue {q : Reg} (h : q ≠ .status) :
    (s.withFlags n v).regValue q = s.regValue q := by
  cases q with
  | status => exact absurd rfl h
  | _ => rfl

end Commute

/-! ### How two runs end -/

/-- A flag in two runs of a command, from `before` and from `given`: a flag that is `written` ends
the same in both, and one that is not is in each run what it was. -/
structure FlagAlike (written : Prop) (before after given after' : Bool) : Prop where
  same : written → after' = after
  kept : ¬ written → after = before ∧ after' = given

theorem FlagAlike.of_written {p : Prop} (h : p) (before after given : Bool) :
    FlagAlike p before after given after :=
  ⟨fun _ => rfl, fun h' => absurd h h'⟩

theorem FlagAlike.of_kept {p : Prop} (h : ¬ p) (before given : Bool) :
    FlagAlike p before before given given :=
  ⟨fun h' => absurd h' h, fun _ => ⟨rfl, rfl⟩⟩

/-- `t` and `t'` are ends of the command from `s` and from `s` with the flags `n` and `v` that
agree as R29 asks: in everything but the flags and the response, in a flag that the command writes,
in `rsp_err` and in response data other than STATUS. -/
structure EndsAlike (i : Instr) (s : State) (n v : Bool) (t t' : State) : Prop where
  rest : t' = { t with
    status := { t.status with noinv := t'.status.noinv, kval := t'.status.kval }
    rsp := t'.rsp }
  noinv : FlagAlike (WritesNoinv i s) s.status.noinv t.status.noinv n t'.status.noinv
  kval : FlagAlike (WritesKval i s) s.status.kval t.status.kval v t'.status.kval
  response : ∃ e, t.rsp.map (·.err) = some e ∧ t'.rsp.map (·.err) = some e ∧
    (e = false → AnswersData i → t'.rsp = t.rsp) ∧
    (¬ (e = false ∧ AnswersData i) →
      t.rsp = some ⟨e, t.status.word⟩ ∧ t'.rsp = some ⟨e, t'.status.word⟩)

section Ends

variable {i : Instr} {s u : State} {n v n' v' : Bool}

/-- Two runs that succeed after the same writes but for the flags. -/
theorem EndsAlike.succeed (hd : ¬ AnswersData i)
    (hn : FlagAlike (WritesNoinv i s) s.status.noinv u.status.noinv n n')
    (hv : FlagAlike (WritesKval i s) s.status.kval u.status.kval v v') :
    EndsAlike i s n v u.succeed (u.withFlags n' v').succeed where
  rest := rfl
  noinv := hn
  kval := hv
  response := ⟨false, rfl, rfl, fun _ h => absurd h hd, fun _ => ⟨rfl, rfl⟩⟩

/-- Two runs that raise the same error after the same writes but for the flags. -/
theorem EndsAlike.raise (e : ErrCode)
    (hn : FlagAlike (WritesNoinv i s) s.status.noinv u.status.noinv n n')
    (hv : FlagAlike (WritesKval i s) s.status.kval u.status.kval v v') :
    EndsAlike i s n v (u.raise e) ((u.withFlags n' v').raise e) where
  rest := rfl
  noinv := hn
  kval := hv
  response := ⟨true, rfl, rfl, (fun h => nomatch h), fun _ => ⟨rfl, rfl⟩⟩

/-- Two runs of an ENC or DEC that go through Done (R203). -/
theorem EndsAlike.finish (hd : ¬ AnswersData i)
    (hn : FlagAlike (WritesNoinv i s) s.status.noinv u.status.noinv n n')
    (hv : FlagAlike (WritesKval i s) s.status.kval u.status.kval v v') :
    EndsAlike i s n v u.finish (u.withFlags n' v').finish :=
  .succeed (u := { u with olen := u.nlen }.setFsm .done) hd hn hv

/-- Two reads that succeed with the same data. -/
theorem EndsAlike.answer (hn : ¬ WritesNoinv i s) (hv : ¬ WritesKval i s) (hd : AnswersData i)
    (d : Word) : EndsAlike i s n v (s.answer d) ((s.withFlags n v).answer d) where
  rest := rfl
  noinv := .of_kept hn _ _
  kval := .of_kept hv _ _
  response := ⟨false, rfl, rfl, fun _ _ => rfl, fun h => absurd ⟨rfl, hd⟩ h⟩

/-- Two reads of STATUS. -/
theorem EndsAlike.answerStatus (hn : ¬ WritesNoinv i s) (hv : ¬ WritesKval i s)
    (hd : ¬ AnswersData i) :
    EndsAlike i s n v (s.answer s.status.word)
      ((s.withFlags n v).answer (s.withFlags n v).status.word) where
  rest := rfl
  noinv := .of_kept hn _ _
  kval := .of_kept hv _ _
  response := ⟨false, rfl, rfl, fun _ h => absurd h hd, fun _ => ⟨rfl, rfl⟩⟩

end Ends

/-- The command has an end from `s` and one from `s` with the flags `n` and `v`, and the two are
alike. -/
def RunsAlike (i : Instr) (s : State) (n v : Bool) : Prop :=
  ∃ t t', exec i s = .next t ∧ exec i (s.withFlags n v) = .next t' ∧ EndsAlike i s n v t t'

/-! ### Which commands write a flag, and which answer data -/

theorem not_writesNoinv {i : Instr} (s : State) (h : i ∉ [Instr.rst, .modinv]) :
    ¬ WritesNoinv i s := by
  rintro (rfl | ⟨rfl, -⟩) <;> simp at h

theorem not_writesKval {i : Instr} (s : State) (h : i ∉ [Instr.rst, .val, .enc, .dec]) :
    ¬ WritesKval i s := by
  rintro (rfl | rfl | ⟨hi, -⟩)
  · simp at h
  · simp at h
  · exact h (List.mem_cons_of_mem _ (List.mem_cons_of_mem _ hi))

theorem not_answersData {i : Instr} (h : ∀ rn, i ≠ .rd rn) (h' : ∀ addr, i ≠ .rdb addr) :
    ¬ AnswersData i := by
  rintro (⟨rn, -, hi⟩ | ⟨addr, hi⟩)
  · exact h rn hi
  · exact h' addr hi

theorem answersData_rd_iff (rn : Byte) : AnswersData (.rd rn) ↔ rn ≠ 0x00 := by
  simp [AnswersData]

theorem answersData_rdb (addr : Half) : AnswersData (.rdb addr) := .inr ⟨addr, rfl⟩

/-- ENC and DEC write KVAL exactly when the text is not empty (R29). -/
theorem writesKval_cipher_iff {i : Instr} (hi : i ∈ [Instr.enc, .dec]) (s : State) :
    WritesKval i s ↔ ¬ s.EmptyText := by
  rcases enc_or_dec hi with rfl | rfl <;> simp [WritesKval]

/-! ### Each command runs alike -/

section PerCommand

variable (s : State) (n v : Bool)

/-- A command that writes neither flag, answers no data and succeeds. -/
theorem runsAlike_of_succeed {i : Instr} {s u : State} {n v : Bool}
    (hi : i ∉ [Instr.rst, .modinv, .val, .enc, .dec]) (hd : ¬ AnswersData i)
    (hu : u.status = s.status) (h : exec i s = .next u.succeed)
    (h' : exec i (s.withFlags n v) = .next (u.withFlags n v).succeed) : RunsAlike i s n v :=
  ⟨_, _, h, h', .succeed hd
    (hu ▸ .of_kept (not_writesNoinv s (by simp_all)) _ _)
    (hu ▸ .of_kept (not_writesKval s (by simp_all)) _ _)⟩

/-- A command that writes neither flag and raises an error. -/
theorem runsAlike_of_raise {i : Instr} {s u : State} {n v : Bool} {e : ErrCode}
    (hi : i ∉ [Instr.rst, .modinv, .val, .enc, .dec]) (hu : u.status = s.status)
    (h : exec i s = .next (u.raise e))
    (h' : exec i (s.withFlags n v) = .next ((u.withFlags n v).raise e)) : RunsAlike i s n v :=
  ⟨_, _, h, h', .raise e
    (hu ▸ .of_kept (not_writesNoinv s (by simp_all)) _ _)
    (hu ▸ .of_kept (not_writesKval s (by simp_all)) _ _)⟩

theorem runsAlike_nop : RunsAlike .nop s n v :=
  runsAlike_of_succeed (by decide) (not_answersData nofun nofun) rfl rfl rfl

theorem runsAlike_rst : RunsAlike .rst s n v :=
  ⟨_, _, rfl, rfl, .succeed (not_answersData nofun nofun) (.of_written (.inl rfl) _ _ _)
    (.of_written (.inl rfl) _ _ _)⟩

theorem runsAlike_wr (rn : Byte) (imm : Half) : RunsAlike (.wr rn imm) s n v := by
  have hi : Instr.wr rn imm ∉ [Instr.rst, .modinv, .val, .enc, .dec] := by simp
  cases hq : hostRegOfNumber rn with
  | none => exact runsAlike_of_raise hi rfl (execWr_of_none imm hq) (execWr_of_none imm hq)
  | some q =>
    by_cases hr : imm.toInt < q.lo ∨ s.hostRegHi q < imm.toInt
    · have hr' : imm.toInt < q.lo ∨ (s.withFlags n v).hostRegHi q < imm.toInt := by
        rwa [withFlags_hostRegHi]
      exact runsAlike_of_raise hi rfl (execWr_of_out_of_range hq hr)
        (execWr_of_out_of_range hq hr')
    · have hr' : ¬ (imm.toInt < q.lo ∨ (s.withFlags n v).hostRegHi q < imm.toInt) := by
        rwa [withFlags_hostRegHi]
      refine runsAlike_of_succeed hi (not_answersData nofun nofun) (writeHostReg_status s q _)
        (execWr_of_in_range hq hr) ?_
      rw [← withFlags_writeHostReg]
      exact execWr_of_in_range hq hr'

theorem runsAlike_rd (rn : Byte) : RunsAlike (.rd rn) s n v := by
  have hn : ¬ WritesNoinv (.rd rn) s := not_writesNoinv s (by simp)
  have hv : ¬ WritesKval (.rd rn) s := not_writesKval s (by simp)
  by_cases h0 : rn = 0x00
  · subst h0
    exact ⟨_, _, execRd_status s, execRd_status _,
      .answerStatus hn hv (by simp [answersData_rd_iff])⟩
  · cases hq : regOfNumber rn with
    | none => exact runsAlike_of_raise (by simp) rfl (execRd_of_none hq) (execRd_of_none hq)
    | some q =>
      have hs : q ≠ .status := by
        rintro rfl
        exact h0 ((regOfNumber_eq_status_iff rn).1 hq)
      refine ⟨_, _, execRd_of_some hq, execRd_of_some hq, ?_⟩
      rw [withFlags_regValue s n v hs]
      exact .answer hn hv ((answersData_rd_iff rn).2 h0) _

theorem runsAlike_wrb (addr : Half) (byte : Byte) : RunsAlike (.wrb addr byte) s n v := by
  by_cases h : addr.toNat < s.tmax
  · exact runsAlike_of_succeed (by simp) (not_answersData nofun nofun) (storeByte_status s _ _)
      (execWrb_of_lt byte h) (execWrb_of_lt (s := s.withFlags n v) byte h)
  · have h' : s.tmax ≤ addr.toNat := by omega
    exact runsAlike_of_raise (by simp) rfl (execWrb_of_le byte h')
      (execWrb_of_le (s := s.withFlags n v) byte h')

theorem runsAlike_rdb (addr : Half) : RunsAlike (.rdb addr) s n v := by
  cases hm : s.memRead addr.toNat with
  | none =>
    exact runsAlike_of_raise (by simp) rfl (execRdb_of_none hm)
      (execRdb_of_none (s := s.withFlags n v) hm)
  | some u =>
    exact ⟨_, _, execRdb_of_some hm, execRdb_of_some (s := s.withFlags n v) hm,
      .answer (not_writesNoinv s (by simp)) (not_writesKval s (by simp)) (answersData_rdb addr) _⟩

theorem runsAlike_mod : RunsAlike .mod s n v := by
  by_cases h : s.b.toInt ≤ 0
  · exact runsAlike_of_raise (by decide) rfl (execMod_of_nonpos h) (execMod_of_nonpos h)
  · have h' : 0 < s.b.toInt := by omega
    exact runsAlike_of_succeed (by decide) (not_answersData nofun nofun) (writeR_status s _)
      (execMod_of_pos h') (execMod_of_pos (s := s.withFlags n v) h')

theorem runsAlike_xgcd : RunsAlike .xgcd s n v := by
  by_cases h : s.a.toInt < 0 ∨ s.b.toInt < 0
  · exact runsAlike_of_raise (by decide) rfl (execXgcd_of_neg h) (execXgcd_of_neg h)
  · exact runsAlike_of_succeed (by decide) (not_answersData nofun nofun) (writeTriple_status s _)
      (execXgcd_of_nonneg h) (execXgcd_of_nonneg (s := s.withFlags n v) h)

theorem runsAlike_modinv : RunsAlike .modinv s n v := by
  have hv : ¬ WritesKval .modinv s := not_writesKval s (by decide)
  by_cases h : s.b.toInt ≤ 0
  · have hn : ¬ WritesNoinv .modinv s := by
      simp [WritesNoinv, h]
    exact ⟨_, _, execModinv_of_nonpos h, execModinv_of_nonpos (s := s.withFlags n v) h,
      .raise _ (.of_kept hn _ _) (.of_kept hv _ _)⟩
  · have h' : 0 < s.b.toInt := by omega
    refine ⟨_, _, execModinv_of_pos h', execModinv_of_pos (s := s.withFlags n v) h', ?_⟩
    rw [withFlags_writeModinv]
    exact .succeed (not_answersData nofun nofun) (.of_written (.inr ⟨rfl, h'⟩) _ _ _)
      (.of_kept hv _ _)

theorem runsAlike_det : RunsAlike .det s n v :=
  runsAlike_of_succeed (by decide) (not_answersData nofun nofun) (writeDet_status s) rfl rfl

theorem runsAlike_val : RunsAlike .val s n v :=
  ⟨_, _, rfl, congrArg (fun u => Host.Outcome.next (State.succeed u))
      (withFlags_detStage_setKval s n v (validateMatrix s.keyMatrix)),
    .succeed (not_answersData nofun nofun) (.of_kept (not_writesNoinv s (by decide)) _ _)
      (.of_written (.inr (.inl rfl)) _ _ _)⟩

theorem runsAlike_adj : RunsAlike .adj s n v :=
  runsAlike_of_succeed (by decide) (not_answersData nofun nofun) (writeAdjugate_status s) rfl rfl

theorem runsAlike_minv : RunsAlike .minv s n v := by
  by_cases h : s.KeyCoprime
  · exact runsAlike_of_succeed (by decide) (not_answersData nofun nofun)
      (writeInverse_status s.detStage) (execMinv_of_coprime h)
      (execMinv_of_coprime (s := s.withFlags n v) h)
  · exact runsAlike_of_raise (by decide) (detStage_status s) (execMinv_of_not_coprime h)
      (execMinv_of_not_coprime (s := s.withFlags n v) h)

theorem runsAlike_mvm (bank : Byte) : RunsAlike (.mvm bank) s n v := by
  by_cases h0 : bank = 0#8
  · subst h0
    exact runsAlike_of_succeed (by decide) (not_answersData nofun nofun)
      (writeProduct_status s s.keyMatrix) rfl rfl
  · by_cases h1 : bank = 1#8
    · subst h1
      exact runsAlike_of_succeed (by decide) (not_answersData nofun nofun)
        (writeProduct_status s s.inverseBank) rfl rfl
    · exact runsAlike_of_raise (by simp) rfl (execMvm_of_bad_bank h0 h1)
        (execMvm_of_bad_bank h0 h1)

/-- An ENC or DEC that Start or Validate ends. -/
theorem runsAlike_cipher_of_failed {i : Instr} {s u : State} {n v v' : Bool} {e : ErrCode}
    (hi : i ∈ [Instr.enc, .dec]) (h : s.startStage = .failed (u.raise e))
    (h' : (s.withFlags n v).startStage = .failed ((u.withFlags n v').raise e))
    (hu : u.status.noinv = s.status.noinv)
    (hv : FlagAlike (WritesKval i s) s.status.kval u.status.kval v v') : RunsAlike i s n v := by
  have hn : ¬ WritesNoinv i s := by
    rcases enc_or_dec hi with rfl | rfl
    · exact not_writesNoinv s (by decide)
    · exact not_writesNoinv s (by decide)
  exact ⟨_, _, exec_cipher_of_failed hi h, exec_cipher_of_failed hi h',
    .raise e (hu ▸ .of_kept hn _ _) hv⟩

/-- An ENC or DEC that Start or Validate ends: the text is empty or the key is not valid. -/
theorem runsAlike_cipher_of_not_valid {i : Instr} (hi : i ∈ [Instr.enc, .dec])
    (h : s.EmptyText ∨ ¬ s.KeyInRange ∨ ¬ s.KeyCoprime) : RunsAlike i s n v := by
  by_cases ht : s.EmptyText
  · have hv : ¬ WritesKval i s := fun hw => (writesKval_cipher_iff hi s).1 hw ht
    exact runsAlike_cipher_of_failed hi (startStage_of_emptyText ht)
      (startStage_of_emptyText (s := s.withFlags n v) ht) rfl (.of_kept hv _ _)
  · have hv : WritesKval i s := (writesKval_cipher_iff hi s).2 ht
    by_cases hr : s.KeyInRange
    · have hc : ¬ s.KeyCoprime := by tauto
      exact runsAlike_cipher_of_failed hi (startStage_of_not_coprime ht hr hc)
        (startStage_of_not_coprime (s := s.withFlags n v) ht hr hc) rfl (.of_written hv _ _ _)
    · exact runsAlike_cipher_of_failed hi (startStage_of_not_inRange ht hr)
        (startStage_of_not_inRange (s := s.withFlags n v) ht hr) rfl (.of_written hv _ _ _)

theorem runsAlike_enc : RunsAlike .enc s n v := by
  by_cases h : s.EmptyText ∨ ¬ s.KeyInRange ∨ ¬ s.KeyCoprime
  · exact runsAlike_cipher_of_not_valid s n v (by decide) h
  · simp only [not_or, not_not] at h
    obtain ⟨ht, hr, hc⟩ := h
    refine ⟨_, _, execEnc_of_valid ht hr hc, execEnc_of_valid (s := s.withFlags n v) ht hr hc, ?_⟩
    rw [withFlags_validated, withFlags_iterateBlocks]
    exact .finish (not_answersData nofun nofun)
      (.of_kept (not_writesNoinv s (by decide)) _ _)
      (.of_written ((writesKval_cipher_iff (by decide) s).2 ht) _ _ _)

theorem runsAlike_dec : RunsAlike .dec s n v := by
  by_cases h : s.EmptyText ∨ ¬ s.KeyInRange ∨ ¬ s.KeyCoprime
  · exact runsAlike_cipher_of_not_valid s n v (by decide) h
  · simp only [not_or, not_not] at h
    obtain ⟨ht, hr, hc⟩ := h
    refine ⟨_, _, execDec_of_valid ht hr hc, execDec_of_valid (s := s.withFlags n v) ht hr hc, ?_⟩
    rw [withFlags_validated, withFlags_computeInverse, withFlags_iterateBlocks]
    exact .finish (not_answersData nofun nofun)
      (.of_kept (not_writesNoinv s (by decide)) _ _)
      (.of_written ((writesKval_cipher_iff (by decide) s).2 ht) _ _ _)

/-- Every command runs alike. -/
theorem runsAlike (i : Instr) : RunsAlike i s n v := by
  cases i with
  | nop => exact runsAlike_nop s n v
  | rst => exact runsAlike_rst s n v
  | wr rn imm => exact runsAlike_wr s n v rn imm
  | rd rn => exact runsAlike_rd s n v rn
  | wrb addr byte => exact runsAlike_wrb s n v addr byte
  | rdb addr => exact runsAlike_rdb s n v addr
  | mod => exact runsAlike_mod s n v
  | xgcd => exact runsAlike_xgcd s n v
  | modinv => exact runsAlike_modinv s n v
  | det => exact runsAlike_det s n v
  | val => exact runsAlike_val s n v
  | adj => exact runsAlike_adj s n v
  | minv => exact runsAlike_minv s n v
  | mvm bank => exact runsAlike_mvm s n v bank
  | enc => exact runsAlike_enc s n v
  | dec => exact runsAlike_dec s n v

end PerCommand

/-- KVAL after a VAL, ENC or DEC that writes it (R29). -/
theorem kval_after_writer {i : Instr} {s t : State} (hi : i ∈ [Instr.val, .enc, .dec])
    (hw : WritesKval i s) (h : exec i s = .next t) :
    t.status.kval = true ↔ s.KeyInRange ∧ s.KeyCoprime := by
  rcases List.mem_cons.1 hi with rfl | hi
  · exact kval_after_val h
  · exact kval_after_cipher hi ((writesKval_cipher_iff hi s).1 hw) h

/-- Settles O54: the flags at reset by evaluation, the two runs by `runsAlike`, and the values the
flags are written with from what RST, MODINV, VAL, ENC and DEC leave. -/
theorem noCommandReadsTheFlags : Obligations.NoCommandReadsTheFlags := by
  refine ⟨⟨rfl, rfl⟩, fun i s t t' n v h h' => ?_⟩
  obtain ⟨r, r', hr, hr', alike⟩ := runsAlike s n v i
  obtain rfl := Host.Outcome.next.inj (hr.symm.trans h)
  obtain rfl := Host.Outcome.next.inj (hr'.symm.trans h')
  refine ⟨alike.rest, alike.noinv.same, alike.noinv.kept, alike.kval.same, alike.kval.kept, ?_, ?_,
    fun hi hw => kval_after_writer hi hw h, alike.response⟩
  · rintro rfl
    obtain rfl := Host.Outcome.next.inj h
    exact ⟨rfl, rfl⟩
  · rintro rfl hb
    exact noinv_after_modinv hb h

end Sys2Proof.Machine
end

section
/-! SUPPORT. How the execution of a command word can end, for every word and state (R14, R62): by
success, by an error, or as one of the two reads. -/

namespace Sys2Proof.Machine

/-- What the decoder gave names no read: neither RD nor RDB (R62). -/
def NamesNoRead (d : Except DecodeError Instr) : Prop :=
  (∀ rn, d ≠ .ok (.rd rn)) ∧ ∀ addr, d ≠ .ok (.rdb addr)

/-- `t` is an end of the word that decodes as `d`, executed on `s`: one constructor per row of R62's
table. In the rows that answer STATUS, `u` is what the command's rule has written before it
completes. -/
inductive WordEnd (d : Except DecodeError Instr) (s : State) : State → Prop where
  /-- A command other than a read succeeds. -/
  | succeeded {u : State} (hu : u.events = s.events) (hd : NamesNoRead d) : WordEnd d s u.succeed
  /-- A command raises an error, or the word is illegal. -/
  | raised {u : State} {e : ErrCode} (hu : u.events = s.events) (he : e ≠ .none) :
      WordEnd d s (u.raise e)
  /-- RD succeeds. -/
  | readReg {rn : Byte} {q : Reg} (hd : d = .ok (.rd rn)) (hq : regOfNumber rn = some q) :
      WordEnd d s (s.answer (wordOfInt (s.regValue q)))
  /-- RDB succeeds. -/
  | readByte {addr : Half} {v : Byte} (hd : d = .ok (.rdb addr))
      (hv : s.memRead addr.toNat = some v) : WordEnd d s (s.answer (v.zeroExtend 32))

/-- The command has a next state, and that is one of the ends of R62's table. -/
def CommandEnds (i : Instr) (s : State) : Prop := ∃ t, exec i s = .next t ∧ WordEnd (.ok i) s t

/-! ### Each command ends in one of these ways -/

section PerCommand

variable {i : Instr} {s u : State} {e : ErrCode}

theorem ends_of_succeed (h : exec i s = .next u.succeed) (hu : u.events = s.events)
    (hd : NamesNoRead (.ok i)) : CommandEnds i s :=
  ⟨_, h, .succeeded hu hd⟩

theorem ends_of_raise (h : exec i s = .next (u.raise e)) (hu : u.events = s.events)
    (he : e ≠ .none) : CommandEnds i s :=
  ⟨_, h, .raised hu he⟩

/-- An ENC or DEC that goes through Done (R203). -/
theorem ends_of_finish (h : exec i s = .next u.finish) (hu : u.events = s.events)
    (hd : NamesNoRead (.ok i)) : CommandEnds i s :=
  ends_of_succeed (u := State.setFsm { u with olen := u.nlen } .done) h hu hd

variable (s)

theorem writeHostReg_events (q : HostReg) (r : Int) : (s.writeHostReg q r).events = s.events := by
  cases q <;> rfl

theorem ends_wr (rn : Byte) (imm : Half) : CommandEnds (.wr rn imm) s := by
  cases hq : hostRegOfNumber rn with
  | none => exact ends_of_raise (execWr_of_none imm hq) rfl nofun
  | some q =>
    by_cases hr : imm.toInt < q.lo ∨ s.hostRegHi q < imm.toInt
    · exact ends_of_raise (execWr_of_out_of_range hq hr) rfl nofun
    · exact ends_of_succeed (execWr_of_in_range hq hr) (writeHostReg_events s q _) ⟨nofun, nofun⟩

theorem ends_rd (rn : Byte) : CommandEnds (.rd rn) s := by
  cases hq : regOfNumber rn with
  | none => exact ends_of_raise (execRd_of_none hq) rfl nofun
  | some q => exact ⟨_, execRd_of_some hq, .readReg rfl hq⟩

theorem ends_wrb (addr : Half) (byte : Byte) : CommandEnds (.wrb addr byte) s := by
  by_cases h : addr.toNat < s.tmax
  · exact ends_of_succeed (execWrb_of_lt byte h) (storeByte_events s _ _) ⟨nofun, nofun⟩
  · exact ends_of_raise (execWrb_of_le byte (not_lt.1 h)) rfl nofun

theorem ends_rdb (addr : Half) : CommandEnds (.rdb addr) s := by
  cases hv : s.memRead addr.toNat with
  | none => exact ends_of_raise (execRdb_of_none hv) rfl nofun
  | some v => exact ⟨_, execRdb_of_some hv, .readByte rfl hv⟩

theorem ends_mod : CommandEnds .mod s := by
  by_cases h : s.b.toInt ≤ 0
  · exact ends_of_raise (execMod_of_nonpos h) rfl nofun
  · exact ends_of_succeed (execMod_of_pos (not_le.1 h)) (writeR_events s _) ⟨nofun, nofun⟩

theorem ends_xgcd : CommandEnds .xgcd s := by
  by_cases h : s.a.toInt < 0 ∨ s.b.toInt < 0
  · exact ends_of_raise (execXgcd_of_neg h) rfl nofun
  · exact ends_of_succeed (execXgcd_of_nonneg h) (writeTriple_events s _) ⟨nofun, nofun⟩

theorem ends_modinv : CommandEnds .modinv s := by
  by_cases h : s.b.toInt ≤ 0
  · exact ends_of_raise (execModinv_of_nonpos h) rfl nofun
  · exact ends_of_succeed (execModinv_of_pos (not_le.1 h)) rfl ⟨nofun, nofun⟩

theorem ends_minv : CommandEnds .minv s := by
  by_cases h : s.KeyCoprime
  · exact ends_of_succeed (execMinv_of_coprime h) rfl ⟨nofun, nofun⟩
  · exact ends_of_raise (execMinv_of_not_coprime h) (detStage_events s) nofun

theorem ends_mvm (bank : Byte) : CommandEnds (.mvm bank) s := by
  by_cases h0 : bank = 0#8
  · exact ends_of_succeed (if_pos h0) (writeProduct_events s _) ⟨nofun, nofun⟩
  · by_cases h1 : bank = 1#8
    · exact ends_of_succeed ((if_neg h0).trans (if_pos h1)) (writeProduct_events s _)
        ⟨nofun, nofun⟩
    · exact ends_of_raise (execMvm_of_bad_bank h0 h1) rfl nofun

/-- ENC and DEC end with one of the three errors of the block processor or go through Done. -/
theorem ends_cipher (hi : i ∈ [Instr.enc, .dec]) : CommandEnds i s := by
  rcases startStage_cases s with ⟨-, h⟩ | ⟨-, -, h⟩ | ⟨-, -, -, h⟩ | ⟨-, -, -, h⟩
  · exact ends_of_raise (exec_cipher_of_failed hi h) (noText_events s) nofun
  · exact ends_of_raise (exec_cipher_of_failed hi h) (badKey_events s) nofun
  · exact ends_of_raise (exec_cipher_of_failed hi h) (badKey_events s) nofun
  · rcases enc_or_dec hi with rfl | rfl
    · exact ends_of_finish (by rw [exec, execEnc, h]) (by simp) ⟨nofun, nofun⟩
    · exact ends_of_finish (by rw [exec, execDec, h]) (by simp) ⟨nofun, nofun⟩

/-- Every command ends, in one of the ways of R62. -/
theorem exec_ends (i : Instr) : CommandEnds i s := by
  cases i with
  | nop => exact ends_of_succeed rfl rfl ⟨nofun, nofun⟩
  | rst => exact ends_of_succeed rfl (resetCore_events s) ⟨nofun, nofun⟩
  | wr rn imm => exact ends_wr s rn imm
  | rd rn => exact ends_rd s rn
  | wrb addr byte => exact ends_wrb s addr byte
  | rdb addr => exact ends_rdb s addr
  | mod => exact ends_mod s
  | xgcd => exact ends_xgcd s
  | modinv => exact ends_modinv s
  | det => exact ends_of_succeed rfl (writeDet_events s) ⟨nofun, nofun⟩
  | val => exact ends_of_succeed rfl rfl ⟨nofun, nofun⟩
  | adj => exact ends_of_succeed rfl (writeAdjugate_events s) ⟨nofun, nofun⟩
  | minv => exact ends_minv s
  | mvm bank => exact ends_mvm s bank
  | enc => exact ends_cipher s (by decide)
  | dec => exact ends_cipher s (by decide)

end PerCommand

/-! ### A step that takes a command word -/

/-- Every word ends, legal or not (R62, R127). -/
theorem execWord_ends (w : Word) (s : State) :
    ∃ t, execWord w s = .next t ∧ WordEnd (decode w) s t := by
  unfold execWord
  cases decode w with
  | ok i => exact exec_ends s i
  | error e => exact ⟨_, rfl, .raised rfl nofun⟩

/-- A step that takes a command word executes it on the state without that event (R18). -/
theorem step_of_command {s : State} {w : Word} {es : List HostEvent}
    (h : s.events = .command w :: es) : step s = execWord w { s with events := es } := by
  rw [step, h]

/-- A register does not show the host's coming events. -/
theorem regValue_events (s : State) (es : List HostEvent) (q : Reg) :
    State.regValue { s with events := es } q = s.regValue q := by
  cases q <;> rfl

/-- Settles O7: the step executes the word, and each way a word can end gives its row of R62. -/
theorem everyCommandGetsOneResponse : Obligations.EveryCommandGetsOneResponse := by
  intro s w es h
  obtain ⟨t, ht, hend⟩ := execWord_ends w { s with events := es }
  rw [← step_of_command h] at ht
  cases hend with
  | succeeded hu hd =>
    exact ⟨_, _, ht, hu, rfl, nofun, fun _ _ _ => ⟨rfl, rfl⟩,
      fun rn hrn => absurd hrn (hd.1 rn), fun addr ha => absurd ha (hd.2 addr)⟩
  | raised hu he =>
    exact ⟨_, _, ht, hu, rfl, fun _ => ⟨rfl, he⟩, nofun, nofun, nofun⟩
  | @readReg rn q hd hq =>
    refine ⟨_, _, ht, rfl, rfl, nofun, fun _ hrd => absurd hd (hrd rn), fun rn' hd' _ => ?_,
      fun addr ha => absurd (hd.symm.trans ha) nofun⟩
    obtain rfl : rn = rn' := by simpa using hd.symm.trans hd'
    exact ⟨q, hq, congrArg wordOfInt (regValue_events s es q)⟩
  | @readByte addr v hd hv =>
    refine ⟨_, _, ht, rfl, rfl, nofun, fun _ _ hrdb => absurd hd (hrdb addr),
      fun rn hrn => absurd (hd.symm.trans hrn) nofun, fun addr' hd' _ => ?_⟩
    obtain rfl : addr = addr' := by simpa using hd.symm.trans hd'
    exact ⟨v, hv, rfl⟩

end Sys2Proof.Machine
end

section
/-! SUPPORT. The decoder, the encoder and the opcode map agree (R94, R95): the words the decoder
accepts, the encodings of the well-formed commands and the words of the map's rows are the same
words. -/

namespace Sys2Proof

/-- `w` is the command word of `i`: what the decoder should invert, said by the encoder alone. -/
def IsWordOf (w : Word) (i : Instr) : Prop := i.wellFormed = true ∧ encode i = w

/-! ### A decoded word is the word of its command -/

/-- The word of a command from its fields, with the opcode as the number the decoder matches. -/
theorem isWordOf_of_fields {w : Word} {i : Instr} {n : Nat} {f8 : Byte} {f16 : Half}
    (hi : i.wellFormed = true) (henc : encode i = packWord (BitVec.ofNat 8 n) f8 f16)
    (hop : (opField w).toNat = n) (h8 : f8Field w = f8) (h16 : f16Field w = f16) :
    IsWordOf w i := by
  subst hop h8 h16
  rw [BitVec.ofNat_toNat, BitVec.setWidth_eq, packWord_fields] at henc
  exact ⟨hi, henc⟩

/-- Format N: a command without operands (R91). -/
theorem isWordOf_of_decodeN {w : Word} {i j : Instr} {n : Nat} (hi : i.wellFormed = true)
    (henc : encode i = packWord (BitVec.ofNat 8 n) 0#8 0#16) (hop : (opField w).toNat = n)
    (h : decodeN w i = .ok j) : IsWordOf w j := by
  obtain ⟨h8, h16, rfl⟩ := decodeN_ok h
  exact isWordOf_of_fields hi henc hop h8 h16

/-- Format S: the bank select that the decoder lets through is a well-formed one (R91). -/
theorem isWordOf_of_decodeS {w : Word} {j : Instr} (hop : (opField w).toNat = 0x34)
    (h : decodeS w = .ok j) : IsWordOf w j := by
  obtain ⟨h8, h16, rfl⟩ := decodeS_ok h
  exact isWordOf_of_fields (by simpa [Instr.wellFormed] using h8) rfl hop rfl h16

/-- R95: the decoder answers only the command whose word it was given. -/
theorem isWordOf_of_decode {w : Word} {i : Instr} (h : decode w = .ok i) : IsWordOf w i := by
  unfold decode at h
  split at h
  case h_3 hop => -- WR
    cases h
    exact isWordOf_of_fields rfl rfl hop rfl rfl
  case h_4 hop => -- RD
    obtain ⟨h16, h⟩ := needF16Zero_ok h
    cases h
    exact isWordOf_of_fields rfl rfl hop rfl h16
  case h_5 hop => -- WRB
    cases h
    exact isWordOf_of_fields rfl rfl hop rfl rfl
  case h_6 hop => -- RDB
    obtain ⟨h8, h⟩ := needF8Zero_ok h
    cases h
    exact isWordOf_of_fields rfl rfl hop h8 rfl
  case h_14 hop => exact isWordOf_of_decodeS hop h -- MVM
  case h_17 => cases h -- no opcode of the map
  all_goals next hop => exact isWordOf_of_decodeN rfl rfl hop h

/-! ### The decoder accepts the word of every well-formed command -/

theorem decode_encode {i : Instr} (hi : i.wellFormed = true) : decode (encode i) = .ok i := by
  cases i with
  | wr rn imm => simp [encode, decode]
  | rd rn => simp [encode, decode, needF16Zero]
  | wrb addr byte => simp [encode, decode]
  | rdb addr => simp [encode, decode, needF8Zero]
  | mvm bank =>
    have hb : bank = 0#8 ∨ bank = 1#8 := by simpa [Instr.wellFormed] using hi
    simp [encode, decode, decodeS, needF16Zero, hb]
  | _ => rfl

/-! ### The rows of the opcode map -/

/-- Every row of the map fixes all eight bits of the opcode. -/
theorem opField_of_accepts {row : OpcodeRow} {w : Word} (hrow : row ∈ opcodeMap)
    (h : row.accepts w = true) : opField w = opField row.pattern := by
  have hmask : ∀ row ∈ opcodeMap, opField row.mask = BitVec.allOnes 8 := by decide
  obtain ⟨hop, -, -⟩ := (accepts_iff row w).1 h
  rwa [hmask row hrow, BitVec.and_allOnes] at hop

/-- R94: no two rows match the same word, because no two rows have the same opcode. -/
theorem row_eq_of_accepts {row row' : OpcodeRow} {w : Word} (hrow : row ∈ opcodeMap)
    (hrow' : row' ∈ opcodeMap) (h : row.accepts w = true) (h' : row'.accepts w = true) :
    row = row' := by
  have hnodup : (opcodeMap.map fun r => opField r.pattern).Nodup := by decide
  exact List.inj_on_of_nodup_map hnodup hrow hrow'
    ((opField_of_accepts hrow h).symm.trans (opField_of_accepts hrow' h'))

/-- The encoding of a well-formed command is a word of the command's own row (R94). -/
theorem exists_row_of_wellFormed {i : Instr} (hi : i.wellFormed = true) :
    ∃ row ∈ opcodeMap, row.mnemonic = i.mnemonic ∧ row.accepts (encode i) = true := by
  cases i with
  | nop => exact Laws.EncodesItsRow.nop hi
  | rst => exact Laws.EncodesItsRow.rst hi
  | wr rn imm => exact Laws.EncodesItsRow.wr rn imm hi
  | rd rn => exact Laws.EncodesItsRow.rd rn hi
  | wrb addr byte => exact Laws.EncodesItsRow.wrb addr byte hi
  | rdb addr => exact Laws.EncodesItsRow.rdb addr hi
  | mod => exact Laws.EncodesItsRow.mod hi
  | xgcd => exact Laws.EncodesItsRow.xgcd hi
  | modinv => exact Laws.EncodesItsRow.modinv hi
  | det => exact Laws.EncodesItsRow.det hi
  | val => exact Laws.EncodesItsRow.val hi
  | adj => exact Laws.EncodesItsRow.adj hi
  | minv => exact Laws.EncodesItsRow.minv hi
  | mvm bank => exact Laws.EncodesItsRow.mvm bank hi
  | enc => exact Laws.EncodesItsRow.enc hi
  | dec => exact Laws.EncodesItsRow.dec hi

/-! ### A word of a row is the word of a command -/

theorem f8Field_of_accepts {row : OpcodeRow} {w : Word}
    (hmask : f8Field row.mask = BitVec.allOnes 8) (h : row.accepts w = true) :
    f8Field w = f8Field row.pattern := by
  obtain ⟨-, h8, -⟩ := (accepts_iff row w).1 h
  rwa [hmask, BitVec.and_allOnes] at h8

theorem f16Field_of_accepts {row : OpcodeRow} {w : Word}
    (hmask : f16Field row.mask = BitVec.allOnes 16) (h : row.accepts w = true) :
    f16Field w = f16Field row.pattern := by
  obtain ⟨-, -, h16⟩ := (accepts_iff row w).1 h
  rwa [hmask, BitVec.and_allOnes] at h16

/-- A row that fixes every bit has one word, its pattern: the rows of format N (R91). -/
theorem isWordOf_of_accepts_full {row : OpcodeRow} {w : Word} {i : Instr}
    (hmask : row.mask = BitVec.allOnes 32) (hi : i.wellFormed = true)
    (henc : encode i = row.pattern) (h : row.accepts w = true) : IsWordOf w i := by
  rw [OpcodeRow.accepts, beq_iff_eq, hmask, BitVec.and_allOnes] at h
  exact ⟨hi, henc.trans h.symm⟩

/-- The mask of the MVM row leaves the lowest bit of `f8` free, which is the bank select (R91). -/
theorem bank_of_masked : ∀ bank : Byte, bank &&& 0xFE#8 = 0#8 → (bank == 0#8 || bank == 1#8) := by
  decide

/-- Every word a row matches is the word of a well-formed command (R94). -/
theorem exists_isWordOf_of_accepts {row : OpcodeRow} {w : Word} (hrow : row ∈ opcodeMap)
    (h : row.accepts w = true) : ∃ i, IsWordOf w i := by
  have hop := congrArg BitVec.toNat (opField_of_accepts hrow h)
  simp only [opcodeMap, List.mem_cons, List.not_mem_nil, or_false] at hrow
  rcases hrow with rfl | rfl | rfl | rfl | rfl | rfl | rfl | rfl | rfl | rfl | rfl | rfl | rfl |
    rfl | rfl | rfl
  · exact ⟨.nop, isWordOf_of_accepts_full rfl rfl rfl h⟩
  · exact ⟨.rst, isWordOf_of_accepts_full rfl rfl rfl h⟩
  · exact ⟨.wr _ _, isWordOf_of_fields rfl rfl hop rfl rfl⟩
  · exact ⟨.rd _, isWordOf_of_fields rfl rfl hop rfl (f16Field_of_accepts rfl h)⟩
  · exact ⟨.wrb _ _, isWordOf_of_fields rfl rfl hop rfl rfl⟩
  · exact ⟨.rdb _, isWordOf_of_fields rfl rfl hop (f8Field_of_accepts rfl h) rfl⟩
  · exact ⟨.mod, isWordOf_of_accepts_full rfl rfl rfl h⟩
  · exact ⟨.xgcd, isWordOf_of_accepts_full rfl rfl rfl h⟩
  · exact ⟨.modinv, isWordOf_of_accepts_full rfl rfl rfl h⟩
  · exact ⟨.det, isWordOf_of_accepts_full rfl rfl rfl h⟩
  · exact ⟨.val, isWordOf_of_accepts_full rfl rfl rfl h⟩
  · exact ⟨.adj, isWordOf_of_accepts_full rfl rfl rfl h⟩
  · exact ⟨.minv, isWordOf_of_accepts_full rfl rfl rfl h⟩
  · obtain ⟨-, h8, -⟩ := (accepts_iff _ w).1 h
    exact ⟨.mvm _, isWordOf_of_fields (bank_of_masked _ h8) rfl hop rfl (f16Field_of_accepts rfl h)⟩
  · exact ⟨.enc, isWordOf_of_accepts_full rfl rfl rfl h⟩
  · exact ⟨.dec, isWordOf_of_accepts_full rfl rfl rfl h⟩

/-- R95: a word that a row matches is decoded. -/
theorem decode_of_accepts {row : OpcodeRow} {w : Word} (hrow : row ∈ opcodeMap)
    (h : row.accepts w = true) : ∃ i, decode w = .ok i := by
  obtain ⟨i, hi, rfl⟩ := exists_isWordOf_of_accepts hrow h
  exact ⟨i, decode_encode hi⟩

/-- Settles O2: rows are told apart by their opcodes, a decoded word is the encoding of its command
and so a word of that command's row, and a word of a row is decoded. -/
theorem decoderIsTheOpcodeMap : Obligations.DecoderIsTheOpcodeMap := by
  intro w
  refine ⟨fun row hrow row' hrow' => row_eq_of_accepts hrow hrow', fun i h => ?_,
    fun e h row hrow => ?_⟩
  · obtain ⟨hi, rfl⟩ := isWordOf_of_decode h
    obtain ⟨row, hrow, hname, haccepts⟩ := exists_row_of_wellFormed hi
    exact ⟨hi, rfl, row, hrow, haccepts, hname⟩
  · refine Bool.eq_false_iff.2 fun haccepts => ?_
    obtain ⟨i, hi⟩ := decode_of_accepts hrow haccepts
    exact absurd (h.symm.trans hi) nofun

end Sys2Proof
end

section
/-! SUPPORT. The register map by number (R21), the banks entry by entry (R15), and what the writes of
WR and the reads of RD make of a value (R11, R122, R123). -/

namespace Sys2Proof.Machine

/-! ### The register map -/

/-- R21: a register's own number names it. -/
@[simp] theorem regOfNumber_regNumber (q : Reg) : regOfNumber (regNumber q) = some q := by
  cases q with
  | k i | ki i | aj i | v i | w i => revert i; decide
  | _ => rfl

/-- The register a number names, from the number as a natural. -/
theorem regOfNumber_of_toNat {rn : Byte} {n : Nat} {q : Reg} (h : rn.toNat = n)
    (hq : regNumber q = BitVec.ofNat 8 n) : regOfNumber rn = some q := by
  have hrn : rn = regNumber q := by rw [hq, ← h, BitVec.ofNat_toNat, BitVec.setWidth_eq]
  rw [hrn, regOfNumber_regNumber]

/-- The host-writable register a number names, from the number as a natural (R122). -/
theorem hostRegOfNumber_of_toNat {rn : Byte} {n : Nat} {q : Reg} {p : HostReg} (h : rn.toNat = n)
    (hq : regNumber q = BitVec.ofNat 8 n) (hp : hostWritable q = some p) :
    hostRegOfNumber rn = some p := by
  rw [hostRegOfNumber, regOfNumber_of_toNat h hq, Option.bind_some, hp]

/-- The number of TLEN (R21). -/
theorem hostRegOfNumber_tlen : hostRegOfNumber 0x0A = some .tlen := by decide

/-- The gaps of the register map name no register (R21). -/
theorem regOfNumber_gap : ∀ rn : Byte,
    (rn.toNat ∈ [0x0E, 0x0F] ∨ (0x19 ≤ rn.toNat ∧ rn.toNat ≤ 0x1F) ∨
      (0x29 ≤ rn.toNat ∧ rn.toNat ≤ 0x2F) ∨ (0x39 ≤ rn.toNat ∧ rn.toNat ≤ 0x3F) ∨
      (0x43 ≤ rn.toNat ∧ rn.toNat ≤ 0x47) ∨ 0x4B ≤ rn.toNat) →
      regOfNumber rn = none := by
  decide

/-- Outside A, B, TLEN, K and V no number names a register the host can write (R21, R122). -/
theorem hostRegOfNumber_readOnly : ∀ rn : Byte, rn.toNat ∉ [0x01, 0x02, 0x0A] →
    ¬ (0x10 ≤ rn.toNat ∧ rn.toNat ≤ 0x18) → ¬ (0x40 ≤ rn.toNat ∧ rn.toNat ≤ 0x42) →
      hostRegOfNumber rn = none := by
  decide

/-- A number in the block of a bank is the base of the block and an index (R15, R21). -/
theorem exists_bankIndex {base len n : Nat} (h : base ≤ n) (h' : n < base + len) :
    ∃ i : Fin len, n = base + i.val :=
  ⟨⟨n - base, by omega⟩, (Nat.add_sub_cancel' h).symm⟩

/-! ### The banks -/

section Banks

variable {α : Type}

/-- Reading an entry of a matrix bank after a write of an entry (R13, R15). -/
theorem matGet_matSet (m : Mat3 α) (i j : Fin 9) (u : α) :
    matGet (matSet m i u) j = if i = j then u else matGet m j := by
  fin_cases i <;> fin_cases j <;> rfl

/-- Reading an entry of a vector bank after a write of an entry (R13, R15). -/
theorem vecGet_vecSet (m : Vec3 α) (i j : Fin 3) (u : α) :
    vecGet (vecSet m i u) j = if i = j then u else vecGet m j := by
  fin_cases i <;> fin_cases j <;> rfl

end Banks

/-- An entry read back after a write, in terms of the register numbers of a bank with s8 entries
(R21, R122): `before` is the entry with index j and `after` what it holds afterwards. -/
theorem toInt_bankEntry {len base rn : Nat} {i j : Fin len} {before after : BitVec 8} {n : Int}
    (hi : rn = base + i.val) (hlo : -128 ≤ n) (hhi : n ≤ 127)
    (h : after = if i = j then BitVec.ofInt 8 n else before) :
    after.toInt = if rn = base + j.val then n else before.toInt := by
  subst h hi
  by_cases hij : i = j
  · rw [if_pos hij, if_pos (by rw [hij]), toInt_ofInt_8 hlo hhi]
  · rw [if_neg hij, if_neg (by omega)]

/-! ### The values of WR and RD -/

/-- WR of A keeps all sixteen bits of the operand. -/
@[simp] theorem writeHostReg_a_toInt (s : State) (imm : Half) :
    s.writeHostReg .a imm.toInt = { s with a := imm } := by
  rw [State.writeHostReg, BitVec.ofInt_toInt]

/-- WR of B keeps all sixteen bits of the operand. -/
@[simp] theorem writeHostReg_b_toInt (s : State) (imm : Half) :
    s.writeHostReg .b imm.toInt = { s with b := imm } := by
  rw [State.writeHostReg, BitVec.ofInt_toInt]

/-- WR of TLEN keeps all sixteen bits of the operand. -/
@[simp] theorem writeHostReg_tlen_toInt (s : State) (imm : Half) :
    s.writeHostReg .tlen imm.toInt = { s with tlen := imm } := by
  rw [State.writeHostReg, BitVec.ofInt_toInt]

/-- A signed register is answered sign-extended (R11). -/
theorem wordOfInt_toInt {n : Nat} (u : BitVec n) : wordOfInt u.toInt = u.signExtend 32 := by rfl

/-- An unsigned register is answered zero-extended (R11). -/
theorem wordOfInt_natCast {n : Nat} (u : BitVec n) :
    wordOfInt (u.toNat : Int) = u.zeroExtend 32 := by
  rw [wordOfInt, BitVec.ofInt_natCast, BitVec.ofNat_toNat]

end Sys2Proof.Machine
end

section
/-! SUPPORT. The system and transfer commands (R120 to R125, R127). `State.succeed`, `State.raise` and
`State.answer` are by definition the ends `State.afterSuccess`, `State.afterError` and
`State.afterRead` that the statements name. -/

namespace Sys2Proof.Machine

variable {s : State} {rn : Byte} {imm : Half}

/-! ### WR -/

/-- WR of a value in the register's range writes it and succeeds (R122). -/
theorem exec_wr_of_mem_range {q : HostReg} (h : hostRegOfNumber rn = some q)
    (hlo : q.lo ≤ imm.toInt) (hhi : imm.toInt ≤ s.hostRegHi q) :
    exec (.wr rn imm) s = .next (s.writeHostReg q imm.toInt).afterSuccess :=
  execWr_of_in_range h (by omega)

/-- WR of an entry of K (R122). -/
theorem exec_wr_k (hrn : 0x10 ≤ rn.toNat) (hrn' : rn.toNat ≤ 0x18) (s : State) (imm : Half) :
    (imm.toInt < -128 ∨ 127 < imm.toInt → exec (.wr rn imm) s = .next (s.afterError .range)) ∧
    (-128 ≤ imm.toInt ∧ imm.toInt ≤ 127 →
      ∃ t, exec (.wr rn imm) s = .next t ∧ t = ({ s with k := t.k } : State).afterSuccess ∧
        ∀ i : Fin 9, (matGet t.k i).toInt =
          if rn.toNat = 0x10 + i.val then imm.toInt else (matGet s.k i).toInt) := by
  obtain ⟨i, hi⟩ := exists_bankIndex (len := 9) hrn (by omega)
  have hq : hostRegOfNumber rn = some (.k i) := hostRegOfNumber_of_toNat (q := .k i) hi rfl rfl
  refine ⟨execWr_of_out_of_range hq, fun ⟨hlo, hhi⟩ =>
    ⟨_, exec_wr_of_mem_range hq hlo hhi, rfl, fun j => ?_⟩⟩
  exact toInt_bankEntry hi hlo hhi (matGet_matSet s.k i j _)

/-- WR of an entry of V (R122). -/
theorem exec_wr_v (hrn : 0x40 ≤ rn.toNat) (hrn' : rn.toNat ≤ 0x42) (s : State) (imm : Half) :
    (imm.toInt < -128 ∨ 127 < imm.toInt → exec (.wr rn imm) s = .next (s.afterError .range)) ∧
    (-128 ≤ imm.toInt ∧ imm.toInt ≤ 127 →
      ∃ t, exec (.wr rn imm) s = .next t ∧ t = ({ s with v := t.v } : State).afterSuccess ∧
        ∀ j : Fin 3, (vecGet t.v j).toInt =
          if rn.toNat = 0x40 + j.val then imm.toInt else (vecGet s.v j).toInt) := by
  obtain ⟨i, hi⟩ := exists_bankIndex (len := 3) hrn (by omega)
  have hq : hostRegOfNumber rn = some (.v i) := hostRegOfNumber_of_toNat (q := .v i) hi rfl rfl
  refine ⟨execWr_of_out_of_range hq, fun ⟨hlo, hhi⟩ =>
    ⟨_, exec_wr_of_mem_range hq hlo hhi, rfl, fun j => ?_⟩⟩
  exact toInt_bankEntry hi hlo hhi (vecGet_vecSet s.v i j _)

/-- Every operand is in the range of A (R122). -/
theorem exec_wr_a (s : State) (imm : Half) :
    exec (.wr 0x01 imm) s = .next ({ s with a := imm } : State).afterSuccess := by
  obtain ⟨hlo, hhi⟩ := toInt_16_bounds imm
  rw [exec_wr_of_mem_range (q := .a) (by decide) hlo hhi, writeHostReg_a_toInt]

/-- Every operand is in the range of B (R122). -/
theorem exec_wr_b (s : State) (imm : Half) :
    exec (.wr 0x02 imm) s = .next ({ s with b := imm } : State).afterSuccess := by
  obtain ⟨hlo, hhi⟩ := toInt_16_bounds imm
  rw [exec_wr_of_mem_range (q := .b) (by decide) hlo hhi, writeHostReg_b_toInt]

/-- WR of a length that TIN can hold (R28, R122). -/
theorem exec_wr_tlen (hlo : 0 ≤ imm.toInt) (hhi : imm.toInt ≤ s.tmax) :
    exec (.wr 0x0A imm) s = .next ({ s with tlen := imm } : State).afterSuccess := by
  rw [exec_wr_of_mem_range hostRegOfNumber_tlen hlo hhi, writeHostReg_tlen_toInt]

/-- Settles O17: WR writes in the range of the register its number names and raises outside it; the
five kinds of register and the numbers that name none are taken one by one. -/
theorem wrWritesTheHostWritableRegisters : Obligations.WrWritesTheHostWritableRegisters :=
  ⟨fun rn imm => decode_encode (i := .wr rn imm) rfl,
    fun s imm => ⟨exec_wr_a s imm, exec_wr_b s imm,
      execWr_of_out_of_range hostRegOfNumber_tlen,
      fun ⟨hlo, hhi⟩ => exec_wr_tlen hlo hhi,
      fun _ hrn hrn' => exec_wr_k hrn hrn' s imm,
      fun _ hrn hrn' => exec_wr_v hrn hrn' s imm,
      fun rn hs hk hv => execWr_of_none imm (hostRegOfNumber_readOnly rn hs hk hv)⟩⟩

/-! ### RD -/

/-- RD of a register that holds a signed value (R123). -/
theorem exec_rd_signed {q : Reg} {n : Nat} {u : BitVec n} (hq : regOfNumber rn = some q)
    (hu : s.regValue q = u.toInt) : exec (.rd rn) s = .next (s.afterRead (u.signExtend 32)) := by
  rw [← wordOfInt_toInt, ← hu]
  exact execRd_of_some hq

/-- RD of a register that holds an unsigned value (R123). -/
theorem exec_rd_unsigned {q : Reg} {n : Nat} {u : BitVec n} (hq : regOfNumber rn = some q)
    (hu : s.regValue q = u.toNat) : exec (.rd rn) s = .next (s.afterRead (u.zeroExtend 32)) := by
  rw [← wordOfInt_natCast, ← hu]
  exact execRd_of_some hq

/-- RD of DET answers all its 32 bits (R123). -/
theorem exec_rd_det (s : State) : exec (.rd 0x07) s = .next (s.afterRead s.det) := by
  rw [exec_rd_signed (rn := 0x07) (regOfNumber_regNumber .det) rfl, BitVec.signExtend_eq]

/-- Settles O18: the number names its register, and the register's type says which of the two
extensions RD answers. -/
theorem rdReadsEveryMappedRegister : Obligations.RdReadsEveryMappedRegister := by
  refine ⟨fun rn => decode_encode (i := .rd rn) rfl, fun s => ⟨execRd_status s,
    exec_rd_signed (regOfNumber_regNumber .a) rfl, exec_rd_signed (regOfNumber_regNumber .b) rfl,
    exec_rd_signed (regOfNumber_regNumber .g) rfl, exec_rd_signed (regOfNumber_regNumber .x) rfl,
    exec_rd_signed (regOfNumber_regNumber .y) rfl, exec_rd_signed (regOfNumber_regNumber .r) rfl,
    exec_rd_det s,
    exec_rd_unsigned (regOfNumber_regNumber .detm) rfl,
    exec_rd_unsigned (regOfNumber_regNumber .dinv) rfl,
    exec_rd_unsigned (regOfNumber_regNumber .tlen) rfl,
    exec_rd_unsigned (regOfNumber_regNumber .nlen) rfl,
    exec_rd_unsigned (regOfNumber_regNumber .olen) rfl,
    exec_rd_unsigned (regOfNumber_regNumber .blk) rfl, ?k, ?ki, ?aj, ?v, ?w,
    fun rn hrn => execRd_of_none (regOfNumber_gap rn hrn)⟩⟩
  case k => exact fun i _ h => exec_rd_signed (regOfNumber_of_toNat (q := .k i) h rfl) rfl
  case ki => exact fun i _ h => exec_rd_unsigned (regOfNumber_of_toNat (q := .ki i) h rfl) rfl
  case aj => exact fun i _ h => exec_rd_unsigned (regOfNumber_of_toNat (q := .aj i) h rfl) rfl
  case v => exact fun j _ h => exec_rd_signed (regOfNumber_of_toNat (q := .v j) h rfl) rfl
  case w => exact fun j _ h => exec_rd_unsigned (regOfNumber_of_toNat (q := .w j) h rfl) rfl

/-! ### WRB and RDB -/

/-- Settles O19: a store into TIN is a write of the text memory at that address, and the laws of the
memory say what it reads as afterwards. -/
theorem wrbStoresOneByteOfTin : Obligations.WrbStoresOneByteOfTin :=
  ⟨fun addr byte => decode_encode (i := .wrb addr byte) rfl,
    fun s _ byte => ⟨fun h => ⟨_, execWrb_of_lt byte h, rfl, read_write_same s.mem _ byte,
      fun _ hne => read_write_other s.mem byte hne⟩, execWrb_of_le byte⟩⟩

/-- The three windows of the text memory that can be read (R64, R66). -/
def State.Readable (s : State) (addr : Nat) : Prop :=
  addr < s.tmax ∨ (Config.ntBase ≤ addr ∧ addr < Config.ntBase + s.nlen.toNat) ∨
    (Config.toutBase ≤ addr ∧ addr < Config.toutBase + s.olen.toNat)

/-- A read of an address in one of the windows gives the byte there. -/
theorem memRead_of_readable {addr : Nat} (h : s.Readable addr) :
    s.memRead addr = some (Memory.read s.mem addr) := by
  cases hv : s.memRead addr with
  | some u => rw [(memRead_some hv).2]
  | none =>
    obtain ⟨htin, hnt, htout⟩ := memRead_none hv
    rcases h with h | h | h
    · exact absurd h (not_lt.2 htin)
    · exact absurd h hnt
    · exact absurd h htout

/-- A read of any other address raises RangeError. -/
theorem memRead_of_not_readable {addr : Nat} (h : ¬ s.Readable addr) : s.memRead addr = none :=
  Option.eq_none_iff_forall_ne_some.2 fun _ hv => h (memRead_some hv).1

/-- Settles O20: the windows of the statement are those of `State.memRead`. -/
theorem rdbReadsTheThreeWindows : Obligations.RdbReadsTheThreeWindows :=
  ⟨fun addr => decode_encode (i := .rdb addr) rfl,
    fun _ _ => ⟨fun h => execRdb_of_some (memRead_of_readable h),
      fun h => execRdb_of_none (memRead_of_not_readable h)⟩⟩

/-! ### The system commands and the illegal word -/

/-- Settles O6: the step takes the word, and a word that the decoder refuses raises. -/
theorem illegalWordRaisesIllegalCommand : Obligations.IllegalWordRaisesIllegalCommand := by
  intro s w es e hev hdec
  rw [step_of_command hev, execWord, hdec]
  rfl

/-- STATUS after RST, which is the data of its response (R121). -/
theorem resetCore_succeed_rsp (s : State) : s.resetCore.succeed.rsp = some ⟨false, 0⟩ := by
  have hword : Status.word { s.resetCore.status with err := .none } = 0 := word_status_reset
  rw [succeed_rsp, hword]

/-- Settles O11: RST is the reset of the core and a success, and neither touches the text memory, the
capacity or the coming events. -/
theorem rstResetsAndKeepsTheText : Obligations.RstResetsAndKeepsTheText :=
  ⟨decode_encode (i := .rst) rfl, fun s => ⟨_, rfl, atReset_resetCore_succeed s,
    fun _ => memRead_resetCore_succeed, resetCore_capacity s, resetCore_events s,
    resetCore_succeed_rsp s⟩⟩

/-- Settles O16: NOP is a success that writes nothing before. -/
theorem nopOnlyClearsTheError : Obligations.NopOnlyClearsTheError :=
  ⟨decode_encode (i := .nop) rfl, fun _ => rfl⟩

end Sys2Proof.Machine
end

section
/-! SUPPORT. The integer functions of the modular_inverse_gcd unit (R140, R143, R145): the recursion
of the extended GCD without its bound on the depth, and what it gives. -/

namespace Sys2Proof.Machine

variable {a b m : Int}

/-! ### The true modulo -/

/-- The floor of R12 is that of the rational quotient. -/
theorem floor_div_eq_fdiv (n : Int) (h : 0 < m) : ⌊(n : ℚ) / m⌋ = fdiv n m := by
  lift m to ℕ using h.le
  rw [fdiv_eq_ediv n h]
  exact Rat.floor_intCast_div_natCast n m

/-- An integer of [0, m) that is congruent to n is the modulo (R140). -/
theorem eq_mod_of_dvd {r : Int} (h : 0 < m) (hr : 0 ≤ r) (hr' : r < m) (hd : m ∣ n - r) :
    r = mod n m :=
  calc r = r % m := (Int.emod_eq_of_lt hr hr').symm
    _ = n % m := Int.modEq_iff_dvd.2 hd
    _ = mod n m := (mod_eq_emod n h).symm

/-- Settles O21: the model's `mod` is Lean's Euclidean remainder for a positive modulus. -/
theorem modIsTheTrueModulo : Obligations.ModIsTheTrueModulo := by
  intro n m h
  obtain ⟨hlo, hhi⟩ := mod_bounds n h
  refine ⟨⟨hlo, hhi, ?dvd, ?floor⟩, fun r => eq_mod_of_dvd h, fun hn => ?trunc, by decide, by decide⟩
  case dvd => exact ⟨fdiv n m, sub_sub_cancel n _⟩
  case floor => rw [floor_div_eq_fdiv n h, mod]
  case trunc => rw [mod_eq_emod n h, Int.tmod_eq_emod_of_nonneg hn]

/-! ### The recursion of the extended GCD -/

/-- The base case of R143, at every depth. -/
theorem extendedGCDWithin_zero_left (n : Nat) (b : Int) :
    extendedGCDWithin n 0 b = (b, 0, 1) := by
  cases n <;> rfl

/-- The step of R143, in Lean's own division. -/
theorem extendedGCDWithin_succ (n : Nat) (b : Int) (ha : 0 < a) :
    extendedGCDWithin (n + 1) a b =
      ((extendedGCDWithin n (b % a) a).1,
        (extendedGCDWithin n (b % a) a).2.2 - b / a * (extendedGCDWithin n (b % a) a).2.1,
        (extendedGCDWithin n (b % a) a).2.1) := by
  rw [extendedGCDWithin, if_neg ha.ne', mod_eq_emod b ha, fdiv_eq_ediv b ha]

/-- A depth above `a` is never used up, so every such depth gives the same triple (R148). -/
theorem extendedGCDWithin_eq_of_lt {n k : Nat} (ha : 0 ≤ a) (hn : a.toNat < n) (hk : a.toNat < k) :
    extendedGCDWithin n a b = extendedGCDWithin k a b := by
  induction n generalizing a b k with
  | zero => omega
  | succ n ih =>
    obtain rfl | hpos := ha.eq_or_lt
    · rw [extendedGCDWithin_zero_left, extendedGCDWithin_zero_left]
    · obtain ⟨k, rfl⟩ : ∃ j, k = j + 1 := ⟨k - 1, by omega⟩
      have hr := Int.emod_nonneg b hpos.ne'
      have hlt := Int.emod_lt_of_pos b hpos
      rw [extendedGCDWithin_succ n b hpos, extendedGCDWithin_succ k b hpos,
        ih (k := k) hr (by omega) (by omega)]

/-- `extendedGCD(0, b)` (R143). -/
@[simp] theorem extendedGCD_zero_left (b : Int) : extendedGCD 0 b = (b, 0, 1) :=
  extendedGCDWithin_zero_left _ b

/-- `extendedGCD(a, b)` for a positive a (R143). -/
theorem extendedGCD_of_pos (ha : 0 < a) (b : Int) :
    extendedGCD a b =
      ((extendedGCD (b % a) a).1,
        (extendedGCD (b % a) a).2.2 - b / a * (extendedGCD (b % a) a).2.1,
        (extendedGCD (b % a) a).2.1) := by
  have hr := Int.emod_nonneg b ha.ne'
  have hlt := Int.emod_lt_of_pos b ha
  have hdepth : extendedGCDWithin a.toNat (b % a) a = extendedGCD (b % a) a :=
    extendedGCDWithin_eq_of_lt hr (by omega) (by omega)
  rw [extendedGCD, extendedGCDWithin_succ _ b ha, hdepth]

/-- What the base case of R143 has and its step keeps holds of every admitted pair. -/
theorem extendedGCD_induction {P : ∀ a b : Int, 0 ≤ a → 0 ≤ b → Prop}
    (zero : ∀ b (hb : 0 ≤ b), P 0 b le_rfl hb)
    (step : ∀ a b (ha : 0 < a) (hb : 0 ≤ b),
      P (b % a) a (Int.emod_nonneg b ha.ne') ha.le → P a b ha.le hb)
    (a b : Int) (ha : 0 ≤ a) (hb : 0 ≤ b) : P a b ha hb := by
  lift a to ℕ using ha
  lift b to ℕ using hb
  induction a, b using Nat.gcd.induction with
  | H0 b => exact zero b _
  | H1 a b hpos ih =>
    have ha : (0 : ℤ) < a := mod_cast hpos
    simp only [Int.natCast_emod] at ih
    exact step a b ha _ (ih (Int.emod_nonneg b ha.ne') _)

/-! ### The Bezout pair -/

/-- The two coefficients of R143 combine the operands to the gcd (R148). -/
theorem extendedGCD_bezout (ha : 0 ≤ a) (hb : 0 ≤ b) :
    a * (extendedGCD a b).2.1 + b * (extendedGCD a b).2.2 = (extendedGCD a b).1 := by
  induction a, b, ha, hb using extendedGCD_induction with
  | zero b hb => simp
  | step a b hpos hb ih =>
    have hdiv := Int.emod_add_mul_ediv b a
    rw [extendedGCD_of_pos hpos]
    linear_combination ih - (extendedGCD (b % a) a).2.1 * hdiv

/-- Settles O22: the recursion holds since the depth is never used up, and Bezout's identity follows
along it. -/
theorem extendedGcdFollowsItsRecursion : Obligations.ExtendedGcdFollowsItsRecursion :=
  ⟨fun b _ => extendedGCD_zero_left b, fun _ b ha hb =>
    ⟨extendedGCD_of_pos ha b, extendedGCD_bezout ha.le hb, extendedGCD_fst ha.le hb⟩⟩

/-! ### The size of the results -/

/-- The gcd is at most a positive first operand. -/
theorem extendedGCD_fst_le_left (ha : 0 < a) (hb : 0 ≤ b) : (extendedGCD a b).1 ≤ a := by
  rw [extendedGCD_fst ha.le hb]
  exact Int.gcd_le_left b ha

/-- The gcd is positive but for the pair (0, 0). -/
theorem extendedGCD_fst_pos (ha : 0 < a) (hb : 0 ≤ b) : 0 < (extendedGCD a b).1 := by
  rw [extendedGCD_fst ha.le hb]
  exact mod_cast Int.gcd_pos_of_ne_zero_left b ha.ne'

/-- The bounds of R147 multiplied by the gcd, in the form the recursion keeps: the base case meets
them too. With q = floor(b/a) and r = b mod a, a positive r has g |y1| <= r and g |x1| <= a, and so
g |y1 - q x1| <= r + q a = b. -/
theorem extendedGCD_mul_abs_le (ha : 0 ≤ a) (hb : 0 ≤ b) :
    (extendedGCD a b).1 * |(extendedGCD a b).2.1| ≤ max (extendedGCD a b).1 b ∧
      (extendedGCD a b).1 * |(extendedGCD a b).2.2| ≤ max (extendedGCD a b).1 a := by
  induction a, b, ha, hb using extendedGCD_induction with
  | zero b hb => simp [hb]
  | step a b hpos hb ih =>
    have hga : (extendedGCD a b).1 ≤ a := extendedGCD_fst_le_left hpos hb
    rw [extendedGCD_of_pos hpos] at hga ⊢
    refine ⟨?_, ih.1⟩
    obtain h0 | hr := (Int.emod_nonneg b hpos.ne').eq_or_lt
    · simp [← h0]
    · have hgr := extendedGCD_fst_le_left hr hpos.le
      have hg := extendedGCD_fst_pos hr hpos.le
      have hq : 0 ≤ b / a := Int.ediv_nonneg hb hpos.le
      dsimp only at hga ⊢
      generalize extendedGCD (b % a) a = p at *
      obtain ⟨hx, hy⟩ := ih
      rw [max_eq_right hga] at hx
      rw [max_eq_right hgr] at hy
      refine le_max_of_le_right ?_
      calc p.1 * |p.2.2 - b / a * p.2.1|
          ≤ p.1 * (|p.2.2| + |b / a * p.2.1|) := by gcongr; exact abs_sub _ _
        _ = p.1 * |p.2.2| + b / a * (p.1 * |p.2.1|) := by rw [abs_mul, abs_of_nonneg hq]; ring
        _ ≤ b % a + b / a * a := by gcongr
        _ = b := Int.emod_add_ediv_mul b a

/-- A bound multiplied by a positive g, divided by it. -/
theorem le_max_one_ediv {g u c : Int} (hg : 0 < g) (h : g * u ≤ max g c) : u ≤ max 1 (c / g) := by
  obtain h | h := le_max_iff.1 h
  · exact le_max_of_le_left ((mul_le_iff_le_one_right hg).1 h)
  · exact le_max_of_le_right ((Int.le_ediv_iff_mul_le hg).2 (by rwa [mul_comm]))

/-- The coefficients for a positive first operand (R147). -/
theorem extendedGCD_abs_le (ha : 0 < a) (hb : 0 ≤ b) :
    |(extendedGCD a b).2.1| ≤ max 1 (b / Int.gcd a b) ∧
      |(extendedGCD a b).2.2| ≤ max 1 (a / Int.gcd a b) := by
  obtain ⟨hx, hy⟩ := extendedGCD_mul_abs_le ha.le hb
  have hg := extendedGCD_fst_pos ha hb
  rw [← extendedGCD_fst ha.le hb]
  exact ⟨le_max_one_ediv hg hx, le_max_one_ediv hg hy⟩

/-- The gcd is at most the greater operand (R147). -/
theorem extendedGCD_fst_le_max (ha : 0 ≤ a) (hb : 0 ≤ b) : (extendedGCD a b).1 ≤ max a b := by
  obtain rfl | hpos := ha.eq_or_lt
  · simp
  · exact le_max_of_le_left (extendedGCD_fst_le_left hpos hb)

/-- The coefficients never exceed the greater operand and 1 (R147). -/
theorem extendedGCD_abs_le_max (ha : 0 ≤ a) (hb : 0 ≤ b) :
    |(extendedGCD a b).2.1| ≤ max 1 (max a b) ∧ |(extendedGCD a b).2.2| ≤ max 1 (max a b) := by
  obtain rfl | hpos := ha.eq_or_lt
  · simp
  · obtain ⟨hx, hy⟩ := extendedGCD_abs_le hpos hb
    have hxb := Int.ediv_le_self (Int.gcd a b) hb
    have hya := Int.ediv_le_self (Int.gcd a b) hpos.le
    omega

/-- Settles O23: the bounds that the recursion keeps, divided by the gcd. -/
theorem extendedGcdResultsFitTheirRegisters : Obligations.ExtendedGcdResultsFitTheirRegisters := by
  refine ⟨extendedGCD_zero_left 0, fun a b ha hb => ?_⟩
  have hg := extendedGCD_fst_le_max ha hb
  obtain ⟨hx, hy⟩ := extendedGCD_abs_le_max ha hb
  refine ⟨fun _ => ⟨extendedGCD_fst ha hb, hg, fun hpos => extendedGCD_abs_le hpos hb, ?zero⟩,
    le_max_of_le_right hg, hx, hy, by omega⟩
  case zero => rintro rfl; simp

/-! ### The modular inverse -/

/-- When the gcd is 1, the first coefficient is an inverse of a modulo m (R148). -/
theorem mul_coefficient_emod (a : Int) (hm : 0 < m) (hg : (extendedGCD (mod a m) m).1 = 1) :
    (a * ((extendedGCD (mod a m) m).2.1 % m)) % m = 1 % m := by
  have hbezout := extendedGCD_bezout (mod_bounds a hm).1 hm.le
  rw [hg] at hbezout
  calc (a * ((extendedGCD (mod a m) m).2.1 % m)) % m
      = (mod a m * (extendedGCD (mod a m) m).2.1) % m := by
        rw [mod_eq_emod a hm]
        exact (Int.mod_modEq a m).symm.mul (Int.mod_modEq _ m)
    _ = (mod a m * (extendedGCD (mod a m) m).2.1 +
          m * (extendedGCD (mod a m) m).2.2) % m := (Int.add_mul_emod_self_left _ _ _).symm
    _ = 1 % m := by rw [hbezout]

/-- `modInverse` by the numbers of the triple (R145). -/
theorem modInverse_eq (a m : Int) :
    modInverse a m =
      if (extendedGCD (mod a m) m).1 = 1 then some (mod (extendedGCD (mod a m) m).2.1 m)
      else none := by
  rfl

/-- "No inverse" is the answer exactly when a and m are not coprime (R145). -/
theorem modInverse_eq_none_iff (a : Int) (hm : 0 < m) :
    modInverse a m = none ↔ Int.gcd a m ≠ 1 := by
  rw [modInverse_eq, extendedGCD_mod_fst a hm]
  split_ifs with hg <;> simpa using hg

/-- An answer of `modInverse` is an inverse (R145). -/
theorem mul_modInverse_emod {v : Int} (hm : 0 < m) (h : modInverse a m = some v) :
    (a * v) % m = 1 % m := by
  rw [modInverse_eq] at h
  split_ifs at h with hg
  obtain rfl := Option.some.inj h
  rw [mod_eq_emod _ hm]
  exact mul_coefficient_emod a hm hg

/-- Settles O27: the property is that of every modulus, the table is evaluated. -/
theorem inversesModulo26 : Obligations.InversesModulo26 := by
  refine ⟨fun a _ _ => ⟨modInverse_eq_none_iff a (by decide), fun v hv => ?_⟩, by decide, by decide⟩
  rw [mod_26]
  exact mul_modInverse_emod (by decide) hv

end Sys2Proof.Machine
end

section
/-! SUPPORT. The commands MOD, XGCD and MODINV (R142, R144, R146): their results fit the 16-bit
registers they are written to. -/

namespace Sys2Proof.Machine

variable {s : State}

/-- A modulo by the content of a register fits a register (R142, R146). -/
theorem toInt_ofInt_mod (n : Int) {v : BitVec 16} (hv : 0 < v.toInt) :
    (BitVec.ofInt 16 (mod n v.toInt)).toInt = n % v.toInt := by
  obtain ⟨hlo, hhi⟩ := mod_bounds n hv
  have hmax := (toInt_16_bounds v).2
  rw [toInt_ofInt_16 (by omega) (by omega), mod_eq_emod n hv]

/-- A number whose size is bounded by operands of 16 bits fits a register (R147). -/
theorem toInt_ofInt_of_abs_le {n a b : Int} (h : |n| ≤ max 1 (max a b)) (ha : a ≤ 32767)
    (hb : b ≤ 32767) : (BitVec.ofInt 16 n).toInt = n := by
  obtain ⟨hlo, hhi⟩ := abs_le.1 (h.trans (max_le (by decide) (max_le ha hb)))
  exact toInt_ofInt_16 (by omega) (by omega)

/-- The triple of two operands of 16 bits is stored in G, X, Y without loss (R147). -/
theorem writeTriple_extendedGCD_toInt {a b : Int} (s : State) (ha : 0 ≤ a) (hb : 0 ≤ b)
    (ha' : a ≤ 32767) (hb' : b ≤ 32767) :
    (s.writeTriple (extendedGCD a b)).g.toInt = (extendedGCD a b).1 ∧
      (s.writeTriple (extendedGCD a b)).x.toInt = (extendedGCD a b).2.1 ∧
      (s.writeTriple (extendedGCD a b)).y.toInt = (extendedGCD a b).2.2 := by
  have hg : |(extendedGCD a b).1| ≤ max 1 (max a b) := by
    rw [extendedGCD_fst ha hb, Nat.abs_cast, ← extendedGCD_fst ha hb]
    exact le_max_of_le_right (extendedGCD_fst_le_max ha hb)
  obtain ⟨hx, hy⟩ := extendedGCD_abs_le_max ha hb
  exact ⟨toInt_ofInt_of_abs_le hg ha' hb', toInt_ofInt_of_abs_le hx ha' hb',
    toInt_ofInt_of_abs_le hy ha' hb'⟩

/-! ### MOD and XGCD -/

/-- Settles O24: the modulo is below B, so R holds it. -/
theorem modWritesTheModulo : Obligations.ModWritesTheModulo :=
  ⟨decode_encode (i := .mod) rfl, fun s =>
    ⟨fun hb => ⟨_, execMod_of_pos hb, rfl, toInt_ofInt_mod s.a.toInt hb⟩, execMod_of_nonpos⟩⟩

/-- Settles O25: the triple fits G, X, Y, and it is the gcd with a Bezout pair. -/
theorem xgcdWritesTheTriple : Obligations.XgcdWritesTheTriple := by
  refine ⟨decode_encode (i := .xgcd) rfl, fun s => ⟨fun ha hb => ?_, execXgcd_of_neg⟩⟩
  obtain ⟨hg, hx, hy⟩ := writeTriple_extendedGCD_toInt s ha hb (toInt_16_bounds s.a).2
    (toInt_16_bounds s.b).2
  refine ⟨_, execXgcd_of_nonneg (by omega), rfl, Prod.ext hg (Prod.ext hx hy),
    hg.trans (extendedGCD_fst ha hb), ?bezout⟩
  case bezout =>
    rw [succeed_g, succeed_x, succeed_y, hg, hx, hy]
    exact extendedGCD_bezout ha hb

/-! ### MODINV -/

/-- What MODINV leaves in G, X, Y (R146, R147). -/
theorem writeModinv_triple (hb : 0 < s.b.toInt) :
    s.writeModinv.g.toInt = (extendedGCD (mod s.a.toInt s.b.toInt) s.b.toInt).1 ∧
      s.writeModinv.x.toInt = (extendedGCD (mod s.a.toInt s.b.toInt) s.b.toInt).2.1 ∧
      s.writeModinv.y.toInt = (extendedGCD (mod s.a.toInt s.b.toInt) s.b.toInt).2.2 := by
  obtain ⟨hlo, hhi⟩ := mod_bounds s.a.toInt hb
  have hmax := (toInt_16_bounds s.b).2
  exact writeTriple_extendedGCD_toInt s hlo hb.le (by omega) hmax

/-- What MODINV leaves in NOINV and R where there is no inverse (R146). -/
theorem writeModinv_of_fst_ne_one
    (h : (extendedGCD (mod s.a.toInt s.b.toInt) s.b.toInt).1 ≠ 1) :
    s.writeModinv.status.noinv = true ∧ s.writeModinv.r = 0 := by
  simp [State.writeModinv, h]

/-- What MODINV leaves in NOINV and R where there is an inverse (R146). -/
theorem writeModinv_of_fst_eq_one (hb : 0 < s.b.toInt)
    (h : (extendedGCD (mod s.a.toInt s.b.toInt) s.b.toInt).1 = 1) :
    s.writeModinv.status.noinv = false ∧
      s.writeModinv.r.toInt =
        (extendedGCD (mod s.a.toInt s.b.toInt) s.b.toInt).2.1 % s.b.toInt := by
  simp [State.writeModinv, h, toInt_ofInt_mod _ hb]

/-- Settles O26: the triple fits G, X, Y; NOINV and R follow its first number, and where that is 1
its second number is an inverse. -/
theorem modinvWritesTheInverse : Obligations.ModinvWritesTheInverse := by
  refine ⟨decode_encode (i := .modinv) rfl, fun s => ⟨fun hb => ?_, execModinv_of_nonpos⟩⟩
  obtain ⟨hg, hx, hy⟩ := writeModinv_triple hb
  rw [← mod_eq_emod s.a.toInt hb]
  refine ⟨_, execModinv_of_pos hb, rfl, Prod.ext hg (Prod.ext hx hy),
    hg.trans (extendedGCD_mod_fst s.a.toInt hb), ?noInverse, ?inverse⟩
  case noInverse => exact fun h => writeModinv_of_fst_ne_one fun h' => h (hg.trans h')
  case inverse =>
    intro h
    have h1 := hg.symm.trans h
    obtain ⟨hnoinv, hr⟩ := writeModinv_of_fst_eq_one hb h1
    refine ⟨hnoinv, ?_, ?_⟩
    · rw [succeed_r, succeed_x, hr, hx]
    · rw [succeed_r, hr]
      exact mul_coefficient_emod s.a.toInt hb h1

end Sys2Proof.Machine
end

section
/-! SUPPORT. The commands DET and VAL, reducing the entries of the key first, and the keys without
an inverse (R160, R163, R166, R168). -/

namespace Sys2Proof.Machine

variable {s : State}

/-! ### DET and VAL -/

/-- Settles O28: the determinant fits DET, and its residue fits DETM. -/
theorem detWritesTheDeterminant : Obligations.DetWritesTheDeterminant := by
  refine ⟨decode_encode (i := .det) rfl, fun s => ⟨_, rfl, rfl, toInt_ofInt_det3 s, ?residue⟩⟩
  case residue =>
    rw [succeed_detm, writeDet_detm, mod_26, toNat_residueBits_mod, det3_keyMatrix]

/-- Settles O30: VAL is DetStage and the two tests of R164. -/
theorem valWritesTheValidity : Obligations.ValWritesTheValidity :=
  ⟨decode_encode (i := .val) rfl, fun _ =>
    ⟨_, rfl, rfl, detStageWritten_of rfl rfl rfl, kval_after_val rfl⟩⟩

/-! ### Reducing the entries first -/

/-- The determinant is a polynomial in the entries, so it follows their congruences (R166). -/
theorem det3_reduced_modEq (m : Mat3 Int) :
    det3 (matMap (fun n => mod n 26) m) ≡ det3 m [ZMOD 26] := by
  have entry : ∀ n, mod n 26 ≡ n [ZMOD 26] := fun n => (mod_26 n).symm ▸ Int.mod_modEq n 26
  simp only [det3, matMap]
  gcongr <;> exact entry _

/-- DetStage takes DINV from the determinant's residue alone (R165). -/
theorem detLocals_dinv_congr {m m' : Mat3 Int} (h : det3 m ≡ det3 m' [ZMOD 26]) :
    (detLocals m).dinv = (detLocals m').dinv := by
  simp only [detLocals, mod_26, h.eq]

theorem mod_26_of_isResidue {n : Int} (h : isResidue n = true) : mod n 26 = n := by
  obtain ⟨hlo, hhi⟩ := (isResidue_iff n).1 h
  rw [mod_26, Int.emod_eq_of_lt hlo (by omega)]

/-- A key in range is its own reduction (R166). -/
theorem reduced_of_keyInRange {m : Mat3 Int} (h : keyInRange m = true) :
    matMap (fun n => mod n 26) m = m := by
  simp only [keyInRange, Bool.and_eq_true] at h
  obtain ⟨⟨⟨⟨⟨⟨⟨⟨ha, hb⟩, hc⟩, hd⟩, he⟩, hf⟩, hg⟩, hh⟩, hi⟩ := h
  simp only [matMap, mod_26_of_isResidue, *]

/-- Settles O31: the residue by the congruence of the determinants, and DINV by the residue. -/
theorem reducingFirstKeepsTheResidue : Obligations.ReducingFirstKeepsTheResidue := by
  intro m
  have hdet := (det3_reduced_modEq m).symm
  refine ⟨?residue, detLocals_dinv_congr hdet, fun hr => by rw [reduced_of_keyInRange hr]⟩
  case residue => rw [mod_26, mod_26, hdet.eq]

/-! ### Keys without an inverse -/

/-- The determinants that share the factor 2 or 13 with 26 (R168). -/
theorem not_keyCoprime_of_even_or_thirteen (h : s.keyOf.det % 2 = 0 ∨ s.keyOf.det % 26 = 13) :
    ¬ s.KeyCoprime := by
  intro hc
  rcases h with heven | hthirteen
  · have hdvd : (2 : ℤ) ∣ Int.gcd (s.keyOf.det % 26) 26 := Int.dvd_coe_gcd (by omega) (by decide)
    rw [hc] at hdvd
    exact absurd hdvd (by decide)
  · rw [State.KeyCoprime, hthirteen] at hc
    exact absurd hc (by decide)

/-- A key with two equal rows has determinant 0 (R168). -/
theorem det_eq_zero_of_equal_rows (h : ∃ r r', r ≠ r' ∧ s.keyOf r = s.keyOf r') :
    s.keyOf.det = 0 := by
  obtain ⟨r, r', hne, hrows⟩ := h
  exact Matrix.det_zero_of_row_eq hne hrows

/-- 0 is even (R168). -/
theorem not_keyCoprime_of_det_eq_zero (h : s.keyOf.det = 0) : ¬ s.KeyCoprime :=
  not_keyCoprime_of_even_or_thirteen (.inl (by rw [h]; rfl))

/-- VAL of a key without an inverse (R163, R168). -/
theorem exec_val_of_not_coprime (h : ¬ s.KeyCoprime) :
    ∃ t, exec .val s = .next t ∧ DetStageWritten s t ∧ t.dinv = 0 ∧ t.status.kval = false := by
  obtain ⟨t, ht, -, hwritten, hkval⟩ := valWritesTheValidity.2 s
  have ⟨_, _, _, _, hdinv⟩ := hwritten
  exact ⟨t, ht, hwritten, BitVec.eq_of_toNat_eq (hdinv h),
    Bool.eq_false_of_not_eq_true fun hv => h (hkval.1 hv).2⟩

/-- VAL of a key with determinant 0 (R168). -/
theorem exec_val_of_det_eq_zero (h : s.keyOf.det = 0) :
    ∃ t, exec .val s = .next t ∧ t.det = 0 ∧ t.detm = 0 ∧ t.dinv = 0 ∧ t.status.kval = false := by
  obtain ⟨t, ht, ⟨hdet, hdetm, -⟩, hdinv, hkval⟩ :=
    exec_val_of_not_coprime (not_keyCoprime_of_det_eq_zero h)
  rw [h] at hdet hdetm
  exact ⟨t, ht, BitVec.eq_of_toInt_eq hdet, BitVec.eq_of_toNat_eq (Int.ofNat.inj hdetm), hdinv,
    hkval⟩

/-- Settles O32: two equal rows make the determinant 0, which has no inverse modulo 26. -/
theorem equalRowsAreRejected : Obligations.EqualRowsAreRejected := by
  refine ⟨extendedGCD_zero_left 26, fun s hrows => ?equalRows, fun s hdet => ?residues⟩
  case equalRows =>
    have hdet := det_eq_zero_of_equal_rows hrows
    have hc := not_keyCoprime_of_det_eq_zero hdet
    exact ⟨exec_val_of_det_eq_zero hdet, ⟨_, execMinv_of_not_coprime hc, rfl⟩, fun hr ht i hi =>
      ⟨_, exec_cipher_of_failed hi (startStage_of_not_coprime ht hr hc), rfl⟩⟩
  case residues =>
    obtain ⟨t, ht, -, hdinv, hkval⟩ :=
      exec_val_of_not_coprime (not_keyCoprime_of_even_or_thirteen hdet)
    exact ⟨t, ht, hdinv, hkval⟩

end Sys2Proof.Machine
end

section
/-! SUPPORT. Matrices modulo 26 entry by entry, and the commands ADJ and MINV: what they write, when
MINV succeeds, and why the banks K and KI are then inverse to one another (R170, R172, R174 to
R176). -/

namespace Sys2Proof.Machine

variable {s t : State}

/-! ### Products modulo 26 -/

/-- A matrix of the model as a matrix of Mathlib, rows first. -/
def matrixOf (m : Mat3 Int) : Matrix (Fin 3) (Fin 3) ℤ :=
  !![m.a, m.b, m.c; m.d, m.e, m.f; m.g, m.h, m.i]

theorem matrixOf_keyMatrix (s : State) : matrixOf s.keyMatrix = s.keyOf := by rfl

theorem matrixOf_inverseBank (s : State) : matrixOf s.inverseBank = s.inverseOf := by rfl

/-- A sum of products follows the congruences of its factors. It is an entry of a product of
matrices and of a matrix with a vector. -/
theorem dotProduct_modEq {u u' v v' : Fin 3 → ℤ} (hu : ∀ i, u i ≡ u' i [ZMOD 26])
    (hv : ∀ i, v i ≡ v' i [ZMOD 26]) : dotProduct u v ≡ dotProduct u' v' [ZMOD 26] :=
  .sum fun i _ => (hu i).mul (hv i)

theorem one_emod_26 (r c : Fin 3) :
    (1 : Matrix (Fin 3) (Fin 3) ℤ) r c % 26 = if r = c then 1 else 0 := by
  rw [Matrix.one_apply]
  split <;> rfl

theorem vec3_ext {α : Type} {u v : Vec3 α} (h : ∀ j, vecGet u j = vecGet v j) : u = v := by
  cases u
  cases v
  exact (Vec3.mk.injEq ..).mpr ⟨h 0, h 1, h 2⟩

@[simp] theorem vecGet_vecMap {α β : Type} (f : α → β) (u : Vec3 α) (j : Fin 3) :
    vecGet (vecMap f u) j = f (vecGet u j) := by
  fin_cases j <;> rfl

/-- `mvm` is the matrix-vector product of Mathlib, reduced (R181). -/
theorem vecGet_mvm (m : Mat3 Int) (u : Vec3 Int) (j : Fin 3) :
    vecGet (mvm m u) j = (matrixOf m).mulVec (vecGet u) j % 26 := by
  fin_cases j <;>
    simp [mvm, vecGet, matrixOf, Matrix.mulVec, dotProduct, Fin.sum_univ_three]

theorem vecGet_mvm_modEq (m : Mat3 Int) (u : Vec3 Int) (j : Fin 3) :
    vecGet (mvm m u) j ≡ (matrixOf m).mulVec (vecGet u) j [ZMOD 26] := by
  rw [vecGet_mvm]
  exact Int.mod_modEq _ _

/-- A matrix that is a left inverse modulo 26 undoes `mvm` (R174). -/
theorem mvm_mvm_of_mul_modEq_one {m n : Mat3 Int}
    (h : ∀ r c, (matrixOf m * matrixOf n) r c ≡ (1 : Matrix (Fin 3) (Fin 3) ℤ) r c [ZMOD 26])
    (v : Vec3 Int) : mvm m (mvm n v) = vecMap (fun k => mod k 26) v := by
  refine vec3_ext fun j => ?_
  rw [vecGet_mvm, vecGet_vecMap, mod_26]
  exact calc (matrixOf m).mulVec (vecGet (mvm n v)) j
    _ ≡ (matrixOf m).mulVec ((matrixOf n).mulVec (vecGet v)) j [ZMOD 26] :=
        dotProduct_modEq (fun _ => .rfl) (vecGet_mvm_modEq n v)
    _ = (matrixOf m * matrixOf n).mulVec (vecGet v) j := by rw [Matrix.mulVec_mulVec]
    _ ≡ (1 : Matrix (Fin 3) (Fin 3) ℤ).mulVec (vecGet v) j [ZMOD 26] :=
        dotProduct_modEq (h j) fun _ => .rfl
    _ = vecGet v j := by rw [Matrix.one_mulVec]

/-! ### ADJ -/

/-- A state with the bank AJ that ADJ writes has it as R170 says. -/
theorem adjugateOf_of_writeAdjugate (h : t.aj = s.writeAdjugate.aj) (r c : Fin 3) :
    t.adjugateOf r c = s.keyOf.adjugate r c % 26 := by
  rw [adjugate_keyOf]
  simp only [State.adjugateOf, h, writeAdjugate_aj, matMap, mod_26]
  fin_cases r <;> fin_cases c <;> exact toNat_residueBits_mod _

/-- Settles O33: every entry is stored without loss, for any key. -/
theorem adjWritesTheAdjugate : Obligations.AdjWritesTheAdjugate :=
  ⟨decode_encode (i := .adj) rfl, fun _ => ⟨_, rfl, rfl, adjugateOf_of_writeAdjugate rfl⟩⟩

/-! ### MINV -/

/-- Settles O34: DetStage is the same in both cases, and KI follows it when the key has an
inverse. -/
theorem minvWritesTheInverse : Obligations.MinvWritesTheInverse := by
  refine ⟨decode_encode (i := .minv) rfl, fun s => ⟨fun hc => ?inverse, fun hc => ?singular⟩⟩
  case inverse =>
    exact ⟨_, execMinv_of_coprime hc, rfl, detStageWritten_of rfl rfl rfl,
      inverseWritten_of rfl rfl⟩
  case singular =>
    exact ⟨_, execMinv_of_not_coprime hc, rfl, detStageWritten_of rfl rfl rfl⟩

/-- The two ways MINV can end (R172). -/
theorem exec_minv_cases (h : exec .minv s = .next t) :
    (s.KeyCoprime ∧ t = s.detStage.writeInverse.succeed) ∨
      (¬ s.KeyCoprime ∧ t = s.detStage.raise .singularMatrix) := by
  by_cases hc : s.KeyCoprime
  · exact .inl ⟨hc, (Host.Outcome.next.inj ((execMinv_of_coprime hc).symm.trans h)).symm⟩
  · exact .inr ⟨hc, (Host.Outcome.next.inj ((execMinv_of_not_coprime hc).symm.trans h)).symm⟩

theorem minv_err_eq_none_iff (h : exec .minv s = .next t) :
    t.status.err = .none ↔ s.KeyCoprime := by
  rcases exec_minv_cases h with ⟨hc, rfl⟩ | ⟨hc, rfl⟩
  · exact iff_of_true rfl hc
  · exact iff_of_false nofun hc

theorem detStageWritten_of_minv (h : exec .minv s = .next t) : DetStageWritten s t := by
  rcases exec_minv_cases h with ⟨-, rfl⟩ | ⟨-, rfl⟩ <;> exact detStageWritten_of rfl rfl rfl

theorem inverseWritten_of_minv (h : exec .minv s = .next t) (hok : t.status.err = .none) :
    InverseWritten s t := by
  rcases exec_minv_cases h with ⟨-, rfl⟩ | ⟨hc, -⟩
  · exact inverseWritten_of rfl rfl
  · exact absurd ((minv_err_eq_none_iff h).1 hok) hc

theorem keyMatrix_of_minv (h : exec .minv s = .next t) : t.keyMatrix = s.keyMatrix := by
  rcases exec_minv_cases h with ⟨-, rfl⟩ | ⟨-, rfl⟩ <;> rfl

theorem keyOf_of_minv (h : exec .minv s = .next t) : t.keyOf = s.keyOf := by
  rw [← matrixOf_keyMatrix, keyMatrix_of_minv h, matrixOf_keyMatrix]

/-- The residues of R176. -/
theorem gcd_26_eq_one_iff : ∀ n : Fin 26,
    Int.gcd n.val 26 = 1 ↔ n.val ∈ [1, 3, 5, 7, 9, 11, 15, 17, 19, 21, 23, 25] := by decide

/-- Settles O37: MINV succeeds on a determinant coprime with 26, and DETM is its residue. -/
theorem minvSucceedsOnTwelveResidues : Obligations.MinvSucceedsOnTwelveResidues := by
  intro s t h
  obtain ⟨-, hdetm, -⟩ := detStageWritten_of_minv h
  rw [minv_err_eq_none_iff h, State.KeyCoprime, ← hdetm]
  exact gcd_26_eq_one_iff ⟨t.detm.toNat, by omega⟩

/-! ### K and KI after a MINV that succeeds -/

/-- DINV is the inverse of the determinant itself, as of its residue DETM. -/
theorem dinv_mul_det_modEq_one (hd : DetStageWritten s t) (hc : s.KeyCoprime) :
    t.dinv.toNat * s.keyOf.det ≡ 1 [ZMOD 26] := by
  obtain ⟨-, hdetm, -, hinv, -⟩ := hd
  exact calc t.dinv.toNat * s.keyOf.det
    _ ≡ t.dinv.toNat * (s.keyOf.det % 26) [ZMOD 26] := (Int.mod_modEq _ _).symm.mul_left _
    _ = t.detm.toNat * t.dinv.toNat := by rw [hdetm, mul_comm]
    _ ≡ 1 [ZMOD 26] := hinv hc

theorem inverseOf_modEq (hi : InverseWritten s t) (r c : Fin 3) :
    t.inverseOf r c ≡ ((t.dinv.toNat : ℤ) • s.keyOf.adjugate) r c [ZMOD 26] := by
  rw [hi r c, Matrix.smul_apply, smul_eq_mul, mul_comm]
  exact Int.mod_modEq _ _

/-- DINV times the determinant times the identity, which is what K and DINV times its adjugate
multiply to in either order. -/
theorem dinv_smul_det_smul_one_modEq (hd : DetStageWritten s t) (hc : s.KeyCoprime)
    (r c : Fin 3) :
    ((t.dinv.toNat : ℤ) • s.keyOf.det • (1 : Matrix (Fin 3) (Fin 3) ℤ)) r c ≡
      (1 : Matrix (Fin 3) (Fin 3) ℤ) r c [ZMOD 26] := by
  rw [smul_smul, Matrix.smul_apply, smul_eq_mul]
  simpa using (dinv_mul_det_modEq_one hd hc).mul_right _

/-- K times KI is the identity modulo 26 (R174). -/
theorem key_mul_inverse_modEq_one (hd : DetStageWritten s t) (hi : InverseWritten s t)
    (hc : s.KeyCoprime) (r c : Fin 3) :
    (s.keyOf * t.inverseOf) r c ≡ (1 : Matrix (Fin 3) (Fin 3) ℤ) r c [ZMOD 26] :=
  calc (s.keyOf * t.inverseOf) r c
    _ ≡ (s.keyOf * (t.dinv.toNat : ℤ) • s.keyOf.adjugate) r c [ZMOD 26] :=
        dotProduct_modEq (fun _ => .rfl) fun j => inverseOf_modEq hi j c
    _ = ((t.dinv.toNat : ℤ) • s.keyOf.det • (1 : Matrix (Fin 3) (Fin 3) ℤ)) r c := by
        rw [Matrix.mul_smul, Matrix.mul_adjugate]
    _ ≡ (1 : Matrix (Fin 3) (Fin 3) ℤ) r c [ZMOD 26] := dinv_smul_det_smul_one_modEq hd hc r c

/-- KI times K is the identity modulo 26 (R174). -/
theorem inverse_mul_key_modEq_one (hd : DetStageWritten s t) (hi : InverseWritten s t)
    (hc : s.KeyCoprime) (r c : Fin 3) :
    (t.inverseOf * s.keyOf) r c ≡ (1 : Matrix (Fin 3) (Fin 3) ℤ) r c [ZMOD 26] :=
  calc (t.inverseOf * s.keyOf) r c
    _ ≡ (((t.dinv.toNat : ℤ) • s.keyOf.adjugate) * s.keyOf) r c [ZMOD 26] :=
        dotProduct_modEq (inverseOf_modEq hi r) fun _ => .rfl
    _ = ((t.dinv.toNat : ℤ) • s.keyOf.det • (1 : Matrix (Fin 3) (Fin 3) ℤ)) r c := by
        rw [Matrix.smul_mul, Matrix.adjugate_mul]
    _ ≡ (1 : Matrix (Fin 3) (Fin 3) ℤ) r c [ZMOD 26] := dinv_smul_det_smul_one_modEq hd hc r c

/-- Settles O35: the products are DINV times the determinant times the identity, and the law of
`mvm` is the product KI times K. -/
theorem inverseBankInvertsTheKey : Obligations.InverseBankInvertsTheKey := by
  intro s t h hok
  have hd := detStageWritten_of_minv h
  have hi := inverseWritten_of_minv h hok
  have hc := (minv_err_eq_none_iff h).1 hok
  have hleft := inverse_mul_key_modEq_one hd hi hc
  rw [keyOf_of_minv h, keyMatrix_of_minv h]
  refine ⟨fun r c => ?right, fun r c => ?left, mvm_mvm_of_mul_modEq_one ?undo⟩
  case right => exact (key_mul_inverse_modEq_one hd hi hc r c).eq.trans (one_emod_26 r c)
  case left => exact (hleft r c).eq.trans (one_emod_26 r c)
  case undo => rwa [matrixOf_inverseBank, matrixOf_keyMatrix]

/-! ### Reducing early -/

/-- The adjugate is a polynomial in the entries, so it follows their congruences (R175). -/
theorem adj_reduced (m : Mat3 Int) :
    matMap (fun n => mod n 26) (adj (matMap (fun n => mod n 26) m)) =
      matMap (fun n => mod n 26) (adj m) := by
  have minor : ∀ p q u v : ℤ,
      p % 26 * (q % 26) - u % 26 * (v % 26) ≡ p * q - u * v [ZMOD 26] := by
    intro p q u v
    gcongr <;> exact Int.mod_modEq _ _
  simp only [matMap, adj, mod_26, Mat3.mk.injEq]
  exact ⟨minor .., (minor ..).neg, minor .., (minor ..).neg, minor .., (minor ..).neg, minor ..,
    (minor ..).neg, minor ..⟩

theorem mod_mod_mul (n k : Int) : mod (mod n 26 * k) 26 = mod (n * k) 26 := by
  rw [mod_26, mod_26, mod_26]
  exact (Int.mod_modEq n 26).mul_right k

/-- The inverse depends on the reduced adjugate only (R175). -/
theorem inverseEntries_eq_matMap_reduced (m : Mat3 Int) (dinv : Int) :
    inverseEntries m dinv =
      matMap (fun n => mod (n * dinv) 26) (matMap (fun n => mod n 26) (adj m)) := by
  simp only [inverseEntries, matMap, mod_mod_mul]

/-- MINV and then ADJ: KI is AJ times DINV (R175). -/
theorem inverseOf_eq_adjugateOf_mul_dinv {u : State} (h : exec .minv s = .next t)
    (hok : t.status.err = .none) (hu : exec .adj t = .next u) (r c : Fin 3) :
    u.inverseOf r c = u.adjugateOf r c * u.dinv.toNat % 26 := by
  obtain rfl : t.writeAdjugate.succeed = u := Host.Outcome.next.inj hu
  rw [adjugateOf_of_writeAdjugate (s := t) (t := t.writeAdjugate.succeed) rfl, keyOf_of_minv h]
  exact (inverseWritten_of_minv h hok r c).trans ((Int.mod_modEq _ _).symm.mul_right _)

/-- Settles O36: the adjugate and the determinant follow the congruences of the entries. -/
theorem inverseIsAdjugateTimesDinv : Obligations.InverseIsAdjugateTimesDinv := by
  refine ⟨fun m dinv => ?reducing, fun s t u h hok hu => inverseOf_eq_adjugateOf_mul_dinv h hok hu⟩
  case reducing =>
    obtain ⟨hdm, hdinv, -⟩ := reducingFirstKeepsTheResidue m
    refine ⟨?adjugate, ?entries, (adj_reduced m).symm, hdm, hdinv⟩
    case adjugate => exact inverseEntries_eq_matMap_reduced m dinv
    case entries =>
      rw [inverseEntries_eq_matMap_reduced, ← adj_reduced, ← inverseEntries_eq_matMap_reduced]

end Sys2Proof.Machine
end

section
/-! SUPPORT. The command MVM and the laws of its function `mvm` (R180 to R182). -/

namespace Sys2Proof.Machine

variable {s t : State}

/-! ### MVM -/

/-- A bank select that is neither K nor KI (R91, R96). -/
theorem decode_mvm_of_bad_bank {bank : Byte} (h0 : bank ≠ 0) (h1 : bank ≠ 1) :
    decode (packWord 0x34#8 bank 0#16) = .error .badBank := by
  have hbank : ¬ (bank = 0#8 ∨ bank = 1#8) := not_or.2 ⟨h0, h1⟩
  simp [decode, decodeS, hbank]

theorem vecGet_vector (s : State) : vecGet s.vector = s.vectorOf := by
  funext j
  fin_cases j <;> rfl

theorem productOf_apply (s : State) (j : Fin 3) : s.productOf j = (vecGet s.w j).toNat := by
  fin_cases j <;> rfl

/-- A state with the bank W that MVM writes has it as R180 says. -/
theorem productOf_of_writeProduct {m : Mat3 Int} (h : t.w = (s.writeProduct m).w) (j : Fin 3) :
    t.productOf j = (matrixOf m).mulVec s.vectorOf j % 26 := by
  rw [productOf_apply, h, writeProduct_w, vecGet_vecMap, vecGet_mvm, toNat_residueBits_mod,
    vecGet_vector]

/-- MVM K (R180). -/
theorem exec_mvm_key (s : State) :
    exec (.mvm 0) s = .next (s.writeProduct s.keyMatrix).afterSuccess := by rfl

/-- MVM KI (R180). -/
theorem exec_mvm_inverse (s : State) :
    exec (.mvm 1) s = .next (s.writeProduct s.inverseBank).afterSuccess := by rfl

/-- Settles O38: every component is stored without loss, whatever the banks hold. -/
theorem mvmWritesTheProduct : Obligations.MvmWritesTheProduct := by
  refine ⟨decode_encode (i := .mvm 0) rfl, decode_encode (i := .mvm 1) rfl,
    fun _ h0 h1 => ⟨_, decode_mvm_of_bad_bank h0 h1⟩, fun s => ⟨?key, ?inverse⟩⟩
  case key =>
    rw [← matrixOf_keyMatrix]
    exact ⟨_, exec_mvm_key s, rfl, productOf_of_writeProduct rfl⟩
  case inverse =>
    rw [← matrixOf_inverseBank]
    exact ⟨_, exec_mvm_inverse s, rfl, productOf_of_writeProduct rfl⟩

/-! ### The laws of `mvm` -/

theorem matrixOf_matMap (f : Int → Int) (m : Mat3 Int) :
    matrixOf (matMap f m) = (matrixOf m).map f := by
  ext r c
  fin_cases r <;> fin_cases c <;> rfl

theorem mod_26_modEq (n : Int) : mod n 26 ≡ n [ZMOD 26] := by
  rw [mod_26]
  exact Int.mod_modEq n 26

/-- `mvm` is a sum of products in each component, so it follows the congruences of its arguments
(R182). -/
theorem mvm_reduced (m : Mat3 Int) (v : Vec3 Int) :
    mvm (matMap (fun n => mod n 26) m) (vecMap (fun n => mod n 26) v) = mvm m v := by
  refine vec3_ext fun j => ?_
  rw [vecGet_mvm, vecGet_mvm, matrixOf_matMap]
  refine dotProduct_modEq (fun i => mod_26_modEq _) fun i => ?_
  rw [vecGet_vecMap]
  exact mod_26_modEq _

/-- A vector of residues is its own reduction (R182). -/
theorem reduced_of_residues {v : Vec3 Int} (h : ∀ j, 0 ≤ vecGet v j ∧ vecGet v j ≤ 25) :
    vecMap (fun n => mod n 26) v = v := by
  refine vec3_ext fun j => ?_
  rw [vecGet_vecMap, mod_26_of_isResidue ((isResidue_iff _).2 (h j))]

/-- After a MINV that succeeds, K undoes KI too: the other order of `inverseBankInvertsTheKey`
(R182). -/
theorem mvm_key_mvm_inverse (h : exec .minv s = .next t) (hok : t.status.err = .none)
    (v : Vec3 Int) : mvm t.keyMatrix (mvm t.inverseBank v) = vecMap (fun n => mod n 26) v := by
  refine mvm_mvm_of_mul_modEq_one ?_ v
  rw [matrixOf_keyMatrix, matrixOf_inverseBank, keyOf_of_minv h]
  exact key_mul_inverse_modEq_one (detStageWritten_of_minv h) (inverseWritten_of_minv h hok)
    ((minv_err_eq_none_iff h).1 hok)

/-- Component j is the product of row j with the vector, and no other row enters it (R182). -/
theorem vecGet_mvm_congr_row {m m' : Mat3 Int} {j : Fin 3} (h : matrixOf m j = matrixOf m' j)
    (v : Vec3 Int) : vecGet (mvm m v) j = vecGet (mvm m' v) j := by
  rw [vecGet_mvm, vecGet_mvm, Matrix.mulVec, Matrix.mulVec, h]

/-- Settles O39: `mvm` is the reduced product of Mathlib, so its laws are those of congruences, of
the products of K and KI, and of a single row. -/
theorem lawsOfTheProduct : Obligations.LawsOfTheProduct := by
  refine ⟨fun m v => (mvm_reduced m v).symm, fun s t v h hok => ?undo, fun m m' v => ?rows⟩
  case undo =>
    have hundo : mvm t.inverseBank (mvm t.keyMatrix v) = vecMap (fun n => mod n 26) v :=
      (inverseBankInvertsTheKey s t h hok).2.2 v
    exact ⟨hundo, mvm_key_mvm_inverse h hok v, fun hv => hundo.trans (reduced_of_residues hv)⟩
  case rows =>
    refine ⟨fun ha hb hc => ?_, fun hd he hf => ?_, fun hg hh hi => ?_⟩
    · exact vecGet_mvm_congr_row (j := 0) (by ext i; fin_cases i <;> assumption) v
    · exact vecGet_mvm_congr_row (j := 1) (by ext i; fin_cases i <;> assumption) v
    · exact vecGet_mvm_congr_row (j := 2) (by ext i; fin_cases i <;> assumption) v

end Sys2Proof.Machine
end

section
/-! SUPPORT. What TOUT holds after the block processor has finished, and the document's worked
encryption (R183, R202, R203). -/

namespace Sys2Proof.Machine

/-- What NT and TOUT hold after IterateBlocks and Done, for a normalised text that fits its windows
(R202, R203). -/
theorem texts_of_finished (s : State) (m : Mat3 Int)
    (hfit : (prepareText s.rawText).length ≤ 16383) :
    (s.iterateBlocks m).finish.normalisedText = prepareText s.rawText ∧
      (s.iterateBlocks m).finish.outputText = cipherBlocks m (prepareText s.rawText) := by
  obtain ⟨hnlen, holen, -, hnt, -⟩ :=
    blocksWritten_of (s := s) (t := (s.iterateBlocks m).finish) m hfit rfl rfl rfl rfl
  rw [← rawText_eq, ← prepareText_eq] at hnlen hnt
  refine ⟨hnt, ?output⟩
  case output =>
    have hlen : (cipherBlocks m (prepareText s.rawText)).length = (prepareText s.rawText).length :=
      (length_cipherBlocks m _ _ (length_prepareText _)).trans (length_prepareText _).symm
    rw [State.outputText, holen, hnlen, finish_mem, iterateBlocks_mem, ← hlen]
    exact map_read_writeBytes _ _ _

/-- The document's key (R167). -/
def documentKey : Mat3 Int := ⟨6, 24, 1, 13, 16, 10, 20, 17, 15⟩

/-- VELES is padded with one letter (R183, R196). -/
theorem prepareText_veles :
    prepareText [0x56, 0x45, 0x4C, 0x45, 0x53] = [0x56, 0x45, 0x4C, 0x45, 0x53, 0x5A] := by
  decide

/-- Its two blocks under the document's key are ZFD and NSH (R183). -/
theorem cipherBlocks_velesz :
    cipherBlocks documentKey [0x56, 0x45, 0x4C, 0x45, 0x53, 0x5A] =
      [0x5A, 0x46, 0x44, 0x4E, 0x53, 0x48] := by
  decide

/-- The determinant of the document's key is its own inverse modulo 26 (R167, R183). -/
theorem detLocals_documentKey : detLocals documentKey = ⟨441, 25, 25, true⟩ := by decide

/-- What DetStage writes for the document's key (R165, R183). -/
theorem detStage_of_documentKey {s : State} (h : s.keyMatrix = documentKey) :
    s.detStage.det = 441 ∧ s.detStage.detm = 25 ∧ s.detStage.dinv = 25 := by
  rw [detStage_det, detStage_detm, detStage_dinv, h, detLocals_documentKey]
  decide

/-- Settles O49: the key is valid, so ENC goes through all its stages and leaves the two texts. -/
theorem workedEncryption : Obligations.WorkedEncryption := by
  intro s hk _ htext
  have hkey : s.keyMatrix = documentKey := by rw [State.keyMatrix, hk]; rfl
  have hraw : s.rawText = [0x56, 0x45, 0x4C, 0x45, 0x53] := htext
  have hnt : prepareText s.validated.rawText = [0x56, 0x45, 0x4C, 0x45, 0x53, 0x5A] := by
    rw [validated_rawText, hraw, prepareText_veles]
  have ht : ¬ s.EmptyText := (isEmptyInput_eq_false_iff s).1 (by rw [hraw]; rfl)
  have hr : s.KeyInRange := (keyInRange_iff s).1 (by rw [hkey]; rfl)
  have hc : s.KeyCoprime := (coprime_iff s).1 (by rw [hkey, detLocals_documentKey])
  obtain ⟨hn, ho⟩ := texts_of_finished s.validated s.validated.keyMatrix (by rw [hnt]; decide)
  obtain ⟨hdet, hdetm, hdinv⟩ := detStage_of_documentKey hkey
  refine ⟨_, execEnc_of_valid ht hr hc, hn.trans hnt, ?output, hdet, hdetm, hdinv⟩
  case output => rw [ho, hnt, validated_keyMatrix, hkey, cipherBlocks_velesz]

end Sys2Proof.Machine
end

section
/-! SUPPORT. The characters and the codec by their byte codes, the texts that are empty input, and
the normaliser (R192 to R196). -/

namespace Sys2Proof.Machine

/-! ### Characters -/

theorem isUpper_iff (c : Byte) : isUpper c = true ↔ isCapital c := by simp [isUpper]

theorem isLower_iff (c : Byte) : isLower c = true ↔ isLowerCode c := by simp [isLower]

theorem toNat_upper_of_isLowerCode {c : Byte} (h : isLowerCode c) :
    (upper c).toNat = c.toNat - 0x20 := by
  rw [upper_eq_upperCode, upperCode, if_pos h, BitVec.toNat_ofNat]
  omega

theorem upper_of_not_isLowerCode {c : Byte} (h : ¬ isLowerCode c) : upper c = c := by
  rw [upper_eq_upperCode, upperCode, if_neg h]

/-- Raising makes no letter of a byte that is none (R192). -/
theorem isLetter_of_isLetter_upper {c : Byte} (h : isLetter (upper c) = true) :
    isLetter c = true := by
  by_cases hc : isLowerCode c
  · exact (isLetter_iff c).2 (.inr hc)
  · rwa [upper_of_not_isLowerCode hc] at h

/-- A normalised text is empty where there is no letter, and only there (R196). -/
theorem prepareText_eq_nil_iff (t : List Byte) :
    prepareText t = [] ↔ ∀ c ∈ t, ¬ isLetterCode c := by
  have hlen : prepareText t = [] ↔ t.filter isLetter = [] := by
    rw [← List.length_eq_zero_iff, ← List.length_eq_zero_iff, length_prepareText]
    omega
  simp only [hlen, List.filter_eq_nil_iff, isLetter_iff]

/-- Settles O56: the model's tests of a byte are the ranges of its code. -/
theorem characterClassesAreByteCodes : Obligations.CharacterClassesAreByteCodes := by
  refine fun c => ⟨isUpper_iff c, isLower_iff c, isLetter_iff c, isWhiteSpace_iff c,
    fun hlo hhi => toNat_upper_of_isLowerCode ⟨hlo, hhi⟩, upper_of_not_isLowerCode,
    isLetter_of_isLetter_upper, fun hc => ?dropped⟩
  case dropped =>
    rw [prepareText_eq_nil_iff, List.forall_mem_singleton, ← isLetter_iff, hc]
    exact Bool.false_ne_true

/-- Settles O57: the white space of the model is that of the codes, byte by byte. -/
theorem emptyInputIsWhiteSpaceOnly : Obligations.EmptyInputIsWhiteSpaceOnly :=
  ⟨rfl, rfl, rfl, fun _ => List.all_eq_true.trans (forall₂_congr fun c _ => isWhiteSpace_iff c),
    isEmptyInput_iff⟩

/-! ### The codec -/

theorem letterToNumber_numberToLetter {n : Int} (h : 0 ≤ n) (h' : n < 26) :
    letterToNumber (numberToLetter n) = n := by
  have hcode := toNat_numberToLetter h h'
  rw [letterToNumber_capital (by omega), hcode]
  omega

theorem letterToNumber_of_letter {c : Byte} (h : isLetterCode c) :
    letterToNumber c = ((upper c).toNat : Int) - 0x41 :=
  if_pos ((isLetter_iff c).2 h)

theorem numberToLetter_letterToNumber {c : Byte} (h : isLetterCode c) :
    numberToLetter (letterToNumber c) = upper c := by
  have hcap := upper_capital ((isLetter_iff c).2 h)
  have hcode := toNat_numberToLetter (n := (upper c).toNat - 0x41) (by omega) (by omega)
  rw [letterToNumber_of_letter h]
  exact BitVec.eq_of_toNat_eq (by omega)

/-- Settles O40: each function undoes the other, since a letter's number is its distance from
'A'. -/
theorem codecIsABijection : Obligations.CodecIsABijection := by
  refine ⟨fun n h h' => ?number, fun c hc => ?letter⟩
  case number =>
    exact ⟨toNat_numberToLetter h (by omega), letterToNumber_numberToLetter h (by omega)⟩
  case letter =>
    rw [← upper_eq_upperCode]
    exact ⟨letterToNumber_of_letter hc, numberToLetter_letterToNumber hc⟩

/-! ### The normaliser -/

theorem not_isLowerCode_of_isCapital {c : Byte} (h : isCapital c) : ¬ isLowerCode c := by omega

theorem length_prepareText_mod_three (t : List Byte) : (prepareText t).length % 3 = 0 := by
  rw [length_prepareText]
  omega

theorem length_prepareText_le (t : List Byte) :
    (prepareText t).length ≤ 3 * ((t.length + 2) / 3) := by
  have := List.length_filter_le isLetter t
  rw [length_prepareText]
  omega

/-- Capitals in whole blocks are in normal form already (R196). -/
theorem prepareText_of_capitals {t : List Byte} (hcap : ∀ c ∈ t, isCapital c)
    (hlen : t.length % 3 = 0) : prepareText t = t := by
  have hfilter : t.filter isLetter = t :=
    List.filter_eq_self.2 fun c hc => (isLetter_iff c).2 (.inl (hcap c hc))
  have hletters : lettersOf t = t := by
    have hupper : ∀ c ∈ t, upper c = id c := fun c hc =>
      upper_of_not_isLowerCode (not_isLowerCode_of_isCapital (hcap c hc))
    rw [lettersOf, hfilter, List.map_congr_left hupper, List.map_id]
  have hpad : padLength t.length = 0 := by
    rw [padLength_eq]
    omega
  rw [prepareText, hletters, hpad, List.replicate_zero, List.append_nil]

/-- Settles O41: the length is a multiple of 3 of capitals, so a second pass changes nothing. -/
theorem prepareTextNormalises : Obligations.PrepareTextNormalises := fun t =>
  ⟨prepareText_eq t, fun _ => capital_of_mem_prepareText, length_prepareText_mod_three t,
    length_prepareText_le t, (prepareText_eq_nil_iff t).2,
    prepareText_of_capitals (fun _ => capital_of_mem_prepareText) (length_prepareText_mod_three t)⟩

end Sys2Proof.Machine
end

section
/-! SUPPORT. ENC and DEC on every path (R197 to R205, R208): the three errors, the state in which
each command leaves its stages, and that every normalised text fits its windows. -/

namespace Sys2Proof.Machine

variable {i : Instr} {s t : State}

/-! ### The errors -/

/-- Start and Validate end by an error of the block processor, with the lengths withdrawn, or find a
text and a valid key (R197, R198). -/
theorem startStage_failed_or_valid (s : State) :
    (∃ u e, s.startStage = .failed (State.raise u e) ∧ u.nlen = 0 ∧ u.blk = 0 ∧
        e ∈ [.emptyInput, .validation, .singularMatrix]) ∨
      (¬ s.EmptyText ∧ s.KeyInRange ∧ s.KeyCoprime) := by
  rcases startStage_cases s with ⟨-, h⟩ | ⟨-, -, h⟩ | ⟨-, -, -, h⟩ | ⟨ht, hr, hc, -⟩
  · exact .inl ⟨_, _, h, rfl, rfl, by simp⟩
  · exact .inl ⟨_, _, h, rfl, rfl, by simp⟩
  · exact .inl ⟨_, _, h, rfl, rfl, by simp⟩
  · exact .inr ⟨(isEmptyInput_eq_false_iff s).1 ht, (keyInRange_iff s).1 hr, (coprime_iff s).1 hc⟩

/-- ENC and DEC end by that error, or had a text and a valid key (R200, R201). -/
theorem exec_cipher_failed_or_valid (hi : i ∈ [Instr.enc, .dec]) (h : exec i s = .next t) :
    (t.nlen = 0 ∧ t.blk = 0 ∧ t.status.err ∈ [.emptyInput, .validation, .singularMatrix]) ∨
      (¬ s.EmptyText ∧ s.KeyInRange ∧ s.KeyCoprime) := by
  refine (startStage_failed_or_valid s).imp_left fun ⟨u, e, hf, hfailed⟩ => ?_
  obtain rfl := Host.Outcome.next.inj ((exec_cipher_of_failed hi hf).symm.trans h)
  exact hfailed

/-- The failing cases of ENC and DEC, each with exactly its writes (R231 to R233, R238). -/
theorem cipherFailures (hi : i ∈ [Instr.enc, .dec]) (s : State) : CipherFailures i s := by
  refine ⟨fun ht => ?empty, fun ht hr => ?range, fun ht hr hc => ?singular⟩
  case empty => exact exec_cipher_of_failed hi (startStage_of_emptyText ht)
  case range =>
    exact ⟨_, exec_cipher_of_failed hi (startStage_of_not_inRange ht hr),
      detStageWritten_of rfl rfl rfl, rfl⟩
  case singular =>
    exact ⟨_, exec_cipher_of_failed hi (startStage_of_not_coprime ht hr hc),
      detStageWritten_of rfl rfl rfl, rfl⟩

/-! ### The commands that go through all stages -/

/-- The matrix of DEC's blocks: the bank KI after ComputeInverse (R201). -/
def State.decipherMatrix (s : State) : Mat3 Int := s.validated.computeInverse.inverseBank

/-- The state in which an ENC that succeeds ends (R203). -/
def State.enciphered (s : State) : State := (s.validated.iterateBlocks s.keyMatrix).finish

/-- The state in which a DEC that succeeds ends (R203). -/
def State.deciphered (s : State) : State :=
  (s.validated.computeInverse.iterateBlocks s.decipherMatrix).finish

theorem exec_enc_of_valid (ht : ¬ s.EmptyText) (hr : s.KeyInRange) (hc : s.KeyCoprime) :
    exec .enc s = .next s.enciphered :=
  execEnc_of_valid ht hr hc

theorem exec_dec_of_valid (ht : ¬ s.EmptyText) (hr : s.KeyInRange) (hc : s.KeyCoprime) :
    exec .dec s = .next s.deciphered :=
  execDec_of_valid ht hr hc

theorem detStageWritten_enciphered (s : State) : DetStageWritten s s.enciphered :=
  detStageWritten_of rfl rfl rfl

theorem detStageWritten_deciphered (s : State) : DetStageWritten s s.deciphered :=
  detStageWritten_of rfl rfl rfl

theorem inverseWritten_deciphered (s : State) : InverseWritten s s.deciphered :=
  inverseWritten_of rfl rfl

/-! ### The normalised text fits -/

theorem length_prepareText_rawText_le_nmax (h : s.tlen.toNat ≤ s.tmax) :
    (prepareText s.rawText).length ≤ s.nmax := by
  have hlen := length_prepareText_le s.rawText
  rw [length_rawText] at hlen
  rw [State.nmax]
  omega

/-- The window of NT, and that of TOUT, has room for every normalised text (R64, R208). -/
theorem length_prepareText_rawText_le (h : s.tlen.toNat ≤ s.tmax) :
    (prepareText s.rawText).length ≤ 16383 :=
  (length_prepareText_rawText_le_nmax h).trans (nmax_le s)

/-- NLEN and BLK after IterateBlocks and Done (R202, R203). -/
theorem lengths_of_finished {n : Nat} (m : Mat3 Int) (hn : (prepareText s.rawText).length ≤ n) :
    (s.iterateBlocks m).finish.nlen.toNat ≤ n ∧
      (s.iterateBlocks m).finish.blk.toNat ≤ n / 3 := by
  rw [finish_nlen, finish_blk, iterateBlocks_nlen, iterateBlocks_blk, BitVec.toNat_ofNat,
    BitVec.toNat_ofNat]
  have hdiv := Nat.div_le_div_right (c := 3) hn
  exact ⟨(Nat.mod_le _ _).trans hn, (Nat.mod_le _ _).trans hdiv⟩

/-- How a command of the block processor that succeeds ends: the blocks of the raw text through some
matrix, and Done (R202, R203). -/
theorem exec_cipher_of_valid (hi : i ∈ [Instr.enc, .dec]) (ht : ¬ s.EmptyText)
    (hr : s.KeyInRange) (hc : s.KeyCoprime) :
    ∃ u m, exec i s = .next (State.iterateBlocks u m).finish ∧ u.rawText = s.rawText := by
  rcases enc_or_dec hi with rfl | rfl
  · exact ⟨s.validated, s.keyMatrix, exec_enc_of_valid ht hr hc, validated_rawText s⟩
  · exact ⟨s.validated.computeInverse, s.decipherMatrix, exec_dec_of_valid ht hr hc,
      computeInverse_rawText s.validated⟩

/-- Settles O42: the letters are at most TLEN, and rounding up to a multiple of 3 keeps the order of
TLEN and TMAX. -/
theorem normalisedTextFits : Obligations.NormalisedTextFits := by
  intro s h
  have hletters := List.length_filter_le (fun c => isLetterCode c) s.inputText
  have hfit := length_prepareText_rawText_le_nmax h
  rw [← rawText_eq, length_rawText] at hletters
  rw [← prepareText_eq, ← rawText_eq]
  refine ⟨hletters, hfit, Nat.div_le_div_right hfit, fun t i hi ht => ?results⟩
  case results =>
    rcases exec_cipher_failed_or_valid hi ht with ⟨hnlen, hblk, herr⟩ | ⟨htext, hr, hc⟩
    · rw [hnlen, hblk]
      exact ⟨Nat.zero_le _, Nat.zero_le _, List.mem_cons_of_mem _ herr⟩
    · obtain ⟨u, m, hexec, hraw⟩ := exec_cipher_of_valid hi htext hr hc
      obtain rfl := Host.Outcome.next.inj (hexec.symm.trans ht)
      obtain ⟨hnlen, hblk⟩ := lengths_of_finished m (hraw ▸ hfit)
      exact ⟨hnlen, hblk, by simp⟩

/-! ### ENC and DEC -/

/-- `blocksWritten_of` where the stages before IterateBlocks have left the text as it was. -/
theorem blocksWritten_finished {u : State} (m : Mat3 Int) (h : s.tlen.toNat ≤ s.tmax)
    (hmem : u.mem = s.mem) (hraw : u.rawText = s.rawText) :
    BlocksWritten (matrixOf m) s (u.iterateBlocks m).finish := by
  refine blocksWritten_of m (length_prepareText_rawText_le h) ?_ ?_ rfl ?_
  · rw [finish_mem, iterateBlocks_mem, iterateBlocks_mem, hmem, hraw]
  · rw [finish_nlen, iterateBlocks_nlen, iterateBlocks_nlen, hraw]
  · rw [finish_blk, iterateBlocks_blk, iterateBlocks_blk, hraw]

theorem blocksWritten_enciphered (h : s.tlen.toNat ≤ s.tmax) :
    BlocksWritten s.keyOf s s.enciphered :=
  blocksWritten_finished s.keyMatrix h (validated_mem s) (validated_rawText s)

/-- The matrix of DEC is the bank KI that the same command has written (R201). -/
theorem matrixOf_decipherMatrix (s : State) :
    matrixOf s.decipherMatrix = s.deciphered.inverseOf := by
  rw [← matrixOf_inverseBank, State.deciphered, finish_inverseBank, iterateBlocks_inverseBank]
  rfl

theorem blocksWritten_deciphered (h : s.tlen.toNat ≤ s.tmax) :
    BlocksWritten s.deciphered.inverseOf s s.deciphered := by
  rw [← matrixOf_decipherMatrix]
  exact blocksWritten_finished s.decipherMatrix h (computeInverse_mem _) (computeInverse_rawText _)

/-- Settles O43: field by field the stages of ENC write what R200 names; the blocks are those of
K. -/
theorem encEncrypts : Obligations.EncEncrypts := by
  refine ⟨decode_encode (i := .enc) rfl, fun s => ⟨cipherFailures (by decide) s, fun h ht hr hc =>
    ⟨s.enciphered, exec_enc_of_valid ht hr hc, ?frame, detStageWritten_enciphered s,
      blocksWritten_enciphered h⟩⟩⟩
  case frame => ext1 <;> simp [State.enciphered, State.afterSuccess]

/-- Settles O44: as ENC, with KI and the blocks of the inverse that the same command has written. -/
theorem decDecrypts : Obligations.DecDecrypts := by
  refine ⟨decode_encode (i := .dec) rfl, fun s => ⟨cipherFailures (by decide) s, fun h ht hr hc =>
    ⟨s.deciphered, exec_dec_of_valid ht hr hc, ?frame, detStageWritten_deciphered s,
      inverseWritten_deciphered s, blocksWritten_deciphered h⟩⟩⟩
  case frame => ext1 <;> simp [State.deciphered, State.afterSuccess]

/-! ### A text without letters -/

theorem prepareText_rawText_eq_nil (h : ∀ c ∈ s.inputText, ¬ isLetterCode c) :
    prepareText s.rawText = [] :=
  (prepareText_eq_nil_iff s.rawText).2 h

/-- Settles O46: the normalised text has no block, so both texts are empty. -/
theorem letterlessTextGivesEmptyOutput : Obligations.LetterlessTextGivesEmptyOutput := by
  intro s i hi ht hletters hr hc
  have hnil := prepareText_rawText_eq_nil hletters
  obtain ⟨u, m, hexec, hraw⟩ := exec_cipher_of_valid hi ht hr hc
  have hlen : (u.iterateBlocks m).nlen = 0 := by rw [iterateBlocks_nlen, hraw, hnil]; rfl
  have hblk : (u.iterateBlocks m).blk = 0 := by rw [iterateBlocks_blk, hraw, hnil]; rfl
  exact ⟨(isEmptyInput_eq_false_iff s).2 ht, hnil, _, hexec, rfl, rfl, hlen, hlen, hblk, rfl⟩

end Sys2Proof.Machine
end

section
/-! SUPPORT. The block transform with a left inverse of its matrix undoes it, so DEC undoes ENC
(R206); and what ENC and DEC have in common with the matrix commands (R210). -/

namespace Sys2Proof.Machine

variable {s t : State} {m n : Mat3 Int}

/-! ### The block transform -/

/-- `matrixOf m` is a left inverse of `matrixOf n` modulo 26 (R174). -/
def LeftInverse26 (m n : Mat3 Int) : Prop :=
  ∀ r c, (matrixOf m * matrixOf n) r c ≡ (1 : Matrix (Fin 3) (Fin 3) ℤ) r c [ZMOD 26]

/-- The letters of a product carry its numbers (R194, R202). -/
theorem numbers_of_mvm (m : Mat3 Int) (v : Vec3 Int) :
    vecMap letterToNumber (vecMap numberToLetter (mvm m v)) = mvm m v := by
  refine vec3_ext fun j => ?_
  rw [vecGet_vecMap, vecGet_vecMap, vecGet_mvm]
  exact letterToNumber_numberToLetter (Int.emod_nonneg _ (by decide))
    (Int.emod_lt_of_pos _ (by decide))

/-- A capital is the letter of its number, reduced or not (R194). -/
theorem numberToLetter_mod_letterToNumber {c : Byte} (h : isCapital c) :
    numberToLetter (mod (letterToNumber c) 26) = c := by
  have hnumber := letterToNumber_capital h
  rw [mod_26_of_isResidue ((isResidue_iff _).2 (by omega)), numberToLetter_letterToNumber (.inl h),
    upper_of_not_isLowerCode (not_isLowerCode_of_isCapital h)]

/-- One block through a matrix and then through its left inverse (R202, R206). -/
theorem cipherBlock_cipherBlock (h : LeftInverse26 m n) {p q r : Byte} (hp : isCapital p)
    (hq : isCapital q) (hr : isCapital r) :
    cipherBlock m (cipherBlock n p q r).v0 (cipherBlock n p q r).v1 (cipherBlock n p q r).v2 =
      ⟨p, q, r⟩ :=
  calc cipherBlock m (cipherBlock n p q r).v0 (cipherBlock n p q r).v1 (cipherBlock n p q r).v2
    _ = vecMap numberToLetter (mvm m (vecMap letterToNumber
          (vecMap numberToLetter (mvm n (vecMap letterToNumber ⟨p, q, r⟩))))) := rfl
    _ = vecMap numberToLetter (vecMap (fun k => mod k 26) (vecMap letterToNumber ⟨p, q, r⟩)) := by
        rw [numbers_of_mvm, mvm_mvm_of_mul_modEq_one h]
    _ = ⟨p, q, r⟩ := by
        simp only [vecMap]
        rw [numberToLetter_mod_letterToNumber hp, numberToLetter_mod_letterToNumber hq,
          numberToLetter_mod_letterToNumber hr]

/-- The blocks of a text through a matrix and then through its left inverse (R202, R206). -/
theorem cipherBlocks_cipherBlocks (h : LeftInverse26 m n) :
    ∀ t : List Byte, (∀ c ∈ t, isCapital c) → t.length % 3 = 0 →
      cipherBlocks m (cipherBlocks n t) = t
  | [], _, _ => rfl
  | [_], _, hlen => absurd hlen (by simp)
  | [_, _], _, hlen => absurd hlen (by simp)
  | p :: q :: r :: rest, hcap, hlen => by
    simp only [List.forall_mem_cons] at hcap
    obtain ⟨hp, hq, hr, hrest⟩ := hcap
    have ih := cipherBlocks_cipherBlocks h rest hrest (by simp at hlen; omega)
    simp only [cipherBlocks, cipherBlock_cipherBlock h hp hq hr, ih]

theorem length_cipherBlocks_prepareText (m : Mat3 Int) (t : List Byte) :
    (cipherBlocks m (prepareText t)).length = (prepareText t).length :=
  (length_cipherBlocks m _ _ (length_prepareText t)).trans (length_prepareText t).symm

/-- The output of the block processor is in normal form already (R196, R202). -/
theorem prepareText_cipherBlocks (m : Mat3 Int) (t : List Byte) :
    prepareText (cipherBlocks m (prepareText t)) = cipherBlocks m (prepareText t) := by
  refine prepareText_of_capitals (fun _ => capital_of_mem_cipherBlocks _) ?_
  rw [length_cipherBlocks_prepareText, length_prepareText_mod_three]

/-! ### The texts after ENC and DEC -/

theorem texts_of_enciphered (h : (prepareText s.rawText).length ≤ 16383) :
    s.enciphered.normalisedText = prepareText s.rawText ∧
      s.enciphered.outputText = cipherBlocks s.keyMatrix (prepareText s.rawText) :=
  texts_of_finished s.validated s.keyMatrix h

theorem outputText_of_deciphered (h : (prepareText s.rawText).length ≤ 16383) :
    s.deciphered.outputText = cipherBlocks s.decipherMatrix (prepareText s.rawText) := by
  rw [← validated_rawText, ← computeInverse_rawText] at h ⊢
  exact (texts_of_finished _ s.decipherMatrix h).2

theorem keyMatrix_congr {u : State} (h : u.k = s.k) : u.keyMatrix = s.keyMatrix :=
  congrArg (matMap BitVec.toInt) h

theorem keyOf_congr {u : State} (h : u.k = s.k) : u.keyOf = s.keyOf := by
  rw [← matrixOf_keyMatrix, keyMatrix_congr h, matrixOf_keyMatrix]

/-- The matrix of DEC is a left inverse of the key (R174, R201). -/
theorem leftInverse26_decipherMatrix (hc : s.KeyCoprime) :
    LeftInverse26 s.decipherMatrix s.keyMatrix := by
  rw [LeftInverse26, matrixOf_decipherMatrix, matrixOf_keyMatrix]
  exact inverse_mul_key_modEq_one (detStageWritten_deciphered s) (inverseWritten_deciphered s) hc

/-! ### The round trip -/

theorem not_emptyText_of_letter (h : ∃ c ∈ s.inputText, isLetterCode c) : ¬ s.EmptyText := by
  obtain ⟨c, hmem, hletter⟩ := h
  intro hempty
  have hspace := hempty c hmem
  simp only [isSpaceCode, List.mem_cons, List.not_mem_nil, or_false] at hspace
  omega

/-- The ciphertext of a text with a letter has a letter (R206). -/
theorem exists_letter_cipherBlocks (m : Mat3 Int) {t : List Byte} (h : ∃ c ∈ t, isLetterCode c) :
    ∃ c ∈ cipherBlocks m (prepareText t), isLetterCode c := by
  have hne : prepareText t ≠ [] := fun hnil => by
    obtain ⟨c, hmem, hletter⟩ := h
    exact (prepareText_eq_nil_iff t).1 hnil c hmem hletter
  have hpos : 0 < (cipherBlocks m (prepareText t)).length := by
    rw [length_cipherBlocks_prepareText]
    exact List.length_pos_iff.2 hne
  obtain ⟨c, hmem⟩ := List.exists_mem_of_length_pos hpos
  exact ⟨c, hmem, .inl (capital_of_mem_cipherBlocks _ hmem)⟩

/-- DEC of a ciphertext, under the key that made it, from any state (R206). -/
theorem outputText_of_deciphered_ciphertext {u : State} {t : List Byte} (hc : u.KeyCoprime)
    (hfit : (prepareText t).length ≤ 16383)
    (hraw : u.rawText = cipherBlocks u.keyMatrix (prepareText t)) :
    u.deciphered.outputText = prepareText t := by
  have hnormal : prepareText u.rawText = cipherBlocks u.keyMatrix (prepareText t) := by
    rw [hraw, prepareText_cipherBlocks]
  have hlen : (prepareText u.rawText).length ≤ 16383 := by
    rwa [hnormal, length_cipherBlocks_prepareText]
  rw [outputText_of_deciphered hlen, hnormal]
  exact cipherBlocks_cipherBlocks (leftInverse26_decipherMatrix hc) _
    (fun _ => capital_of_mem_prepareText) (length_prepareText_mod_three t)

/-- Settles O47: the blocks through K and then through the inverse of K are the blocks again; a text
without a letter has no block. -/
theorem decryptionUndoesEncryption : Obligations.DecryptionUndoesEncryption := by
  refine ⟨fun s h hletter hr hc => ?roundTrip,
    fun s ht => ⟨_, exec_cipher_of_failed (by decide) (startStage_of_emptyText ht), rfl⟩,
    fun s ht hletters hr hc => ?letterless⟩
  case roundTrip =>
    have hfit := length_prepareText_rawText_le h
    obtain ⟨hnt, htout⟩ := texts_of_enciphered hfit
    rw [← prepareText_eq, ← rawText_eq]
    refine ⟨_, exec_enc_of_valid (not_emptyText_of_letter hletter) hr hc, rfl, hnt,
      fun u hk hraw => ?decrypt⟩
    case decrypt =>
      rw [htout, ← keyMatrix_congr hk] at hraw
      have hletter' : ∃ c ∈ u.inputText, isLetterCode c :=
        hraw ▸ exists_letter_cipherBlocks u.keyMatrix hletter
      have hr' : u.KeyInRange := by rwa [State.KeyInRange, keyOf_congr hk]
      have hc' : u.KeyCoprime := by rwa [State.KeyCoprime, keyOf_congr hk]
      exact ⟨_, exec_dec_of_valid (not_emptyText_of_letter hletter') hr' hc', rfl,
        outputText_of_deciphered_ciphertext hc' hfit hraw⟩
  case letterless =>
    have hnil := prepareText_rawText_eq_nil hletters
    have htout : s.enciphered.outputText = [] := by
      rw [(texts_of_enciphered (by simp [hnil])).2, hnil]
      rfl
    refine ⟨_, exec_enc_of_valid ht hr hc, rfl, htout, fun u hraw => ?decrypt⟩
    case decrypt =>
      have hempty : u.EmptyText := by simp [State.EmptyText, hraw, htout]
      exact ⟨_, exec_cipher_of_failed (by decide) (startStage_of_emptyText hempty), rfl⟩

/-! ### The matrix commands -/

/-- An ENC or DEC without an error had a text and a valid key (R198). -/
theorem valid_of_cipher_succeeded {i : Instr} (hi : i ∈ [Instr.enc, .dec])
    (h : exec i s = .next t) (hok : t.status.err = .none) :
    ¬ s.EmptyText ∧ s.KeyInRange ∧ s.KeyCoprime := by
  refine (exec_cipher_failed_or_valid hi h).resolve_left fun ⟨_, _, herr⟩ => ?_
  rw [hok] at herr
  exact absurd herr (by decide)

/-- Settles O48: DEC and MINV write the same inverse, DEC and VAL run the same DetStage, and a block
of ENC is the product with K. -/
theorem cipherAgreesWithTheMatrixUnits : Obligations.CipherAgreesWithTheMatrixUnits := by
  refine ⟨fun s t m v hdec hok hminv hval => ?registers,
    fun s t p h henc hok hnlen hvec hmvm => ?block⟩
  case registers =>
    obtain ⟨ht, hr, hc⟩ := valid_of_cipher_succeeded (by decide) hdec hok
    obtain rfl := Host.Outcome.next.inj ((exec_dec_of_valid ht hr hc).symm.trans hdec)
    obtain rfl := Host.Outcome.next.inj ((execMinv_of_coprime hc).symm.trans hminv)
    obtain rfl := Host.Outcome.next.inj hval
    simp [State.deciphered]
  case block =>
    obtain ⟨ht, hr, hc⟩ := valid_of_cipher_succeeded (by decide) henc hok
    obtain rfl := Host.Outcome.next.inj ((exec_enc_of_valid ht hr hc).symm.trans henc)
    obtain ⟨-, -, hblk, -, hblocks, -⟩ := blocksWritten_enciphered h
    obtain rfl := Host.Outcome.next.inj ((exec_mvm_key s).symm.trans hmvm)
    have hone : 0 < s.enciphered.blk.toNat := by
      rw [hblk, hnlen]
      decide
    rw [hblocks 0 hone, ← hvec, ← matrixOf_keyMatrix]
    exact funext (productOf_of_writeProduct rfl)

end Sys2Proof.Machine
end

section
/-! SUPPORT. The words of the opcode map's commands, and the words the decoder refuses, clause by
clause of R96. -/

namespace Sys2Proof

variable {w : Word}

/-! ### The encoding -/

/-- Settles O1: this is `decode_encode`. -/
theorem decodeOfEncodeIsTheCommand : Obligations.DecodeOfEncodeIsTheCommand :=
  fun _ hi => decode_encode hi

/-- Settles O4: each of the words is the encoding of its command. -/
theorem writtenWordsDecode : Obligations.WrittenWordsDecode :=
  ⟨decode_encode (i := .nop) rfl, decode_encode (i := .wr 0x14#8 0xFFFD#16) rfl,
    decode_encode (i := .rd 0x06#8) rfl, decode_encode (i := .wrb 0x0002#16 0x4C#8) rfl,
    decode_encode (i := .rdb 0x8000#16) rfl, decode_encode (i := .modinv) rfl,
    decode_encode (i := .mvm 1#8) rfl, decode_encode (i := .dec) rfl⟩

/-! ### The format checks and the words they refuse -/

/-- The check of an unused `f8` before a command refuses a nonzero one (R91). -/
theorem needF8Zero_error_iff {i : Instr} :
    (∃ e, needF8Zero w (.ok i) = .error e) ↔ f8Field w ≠ 0 := by
  unfold needF8Zero
  split_ifs with h <;> simpa using h

/-- The check of an unused `f16` before a command refuses a nonzero one (R91). -/
theorem needF16Zero_error_iff {i : Instr} :
    (∃ e, needF16Zero w (.ok i) = .error e) ↔ f16Field w ≠ 0 := by
  unfold needF16Zero
  split_ifs with h <;> simpa using h

/-- What format N refuses (R96 (b)). -/
theorem decodeN_error_iff {i : Instr} :
    (∃ e, decodeN w i = .error e) ↔ f8Field w ≠ 0 ∨ f16Field w ≠ 0 := by
  unfold decodeN needF8Zero
  split_ifs with h
  · rw [needF16Zero_error_iff]
    simp [h]
  · simpa using .inl h

/-- What format S refuses (R96 (c), (e)). -/
theorem decodeS_error_iff :
    (∃ e, decodeS w = .error e) ↔
      f16Field w ≠ 0 ∨ (f8Field w ≠ 0 ∧ f8Field w ≠ 1) := by
  unfold decodeS
  split_ifs with h
  · rw [needF16Zero_error_iff]
    exact (or_iff_left fun ⟨h0, h1⟩ => h.elim h0 h1).symm
  · simpa using .inr (not_or.1 h)

/-- Settles O3: the decoder refuses what the check of the opcode's format refuses, and every word of
another opcode. -/
theorem illegalWordsAreThoseOfTheRule : Obligations.IllegalWordsAreThoseOfTheRule := by
  intro w
  unfold decode
  split
  case h_3 hop => simp [hop] -- WR
  case h_4 hop => simp [hop, needF16Zero_error_iff] -- RD
  case h_5 hop => simp [hop] -- WRB
  case h_6 hop => simp [hop, needF8Zero_error_iff] -- RDB
  case h_14 hop => simp [hop, decodeS_error_iff] -- MVM
  case h_17 => simp_all -- no opcode of the map
  all_goals next hop => simp [hop, decodeN_error_iff]

end Sys2Proof
end

section
/-! SUPPORT. The step the core takes for each host event, and that it always takes one (R8, R18,
R95, R241, R260). -/

namespace Sys2Proof.Machine

variable {s : State}

/-- A step that takes the word of a command executes the command (R18, R95). -/
theorem step_of_decoded {w : Word} {es : List HostEvent} {i : Instr}
    (h : s.events = .command w :: es) (hd : decode w = .ok i) :
    step s = exec i { s with events := es } := by
  rw [step_of_command h, execWord, hd]

/-- A step with no event leaves the core idle (R8). -/
theorem step_of_no_event (h : s.events = []) : step s = .next s.idle := by
  rw [step, h]

/-- Settles O5: this is `step_of_decoded`. -/
theorem stepRunsTheDecodedCommand : Obligations.StepRunsTheDecodedCommand :=
  fun _ _ _ _ => step_of_decoded

/-- Settles O8: the idle step, the reset step and RST are by definition what the statement says. -/
theorem idleAndResetSteps : Obligations.IdleAndResetSteps :=
  fun s => ⟨step_of_no_event, fun _ h => ⟨_, step_of_reset h, atReset_pinReset _, pinReset_mem _,
    pinReset_capacity _, pinReset_events _, pinReset_rsp _⟩, _, rfl, resetCore_mem s⟩

/-- Settles O9: an idle step and a reset have a next state by definition, and every command word,
legal or not, ends. -/
theorem everyStepAnswersANextState : Obligations.EveryStepAnswersANextState := by
  intro s
  cases h : s.events with
  | nil => exact ⟨_, step_of_no_event h⟩
  | cons event es =>
    cases event with
    | reset => exact ⟨_, step_of_reset h⟩
    | command w =>
      obtain ⟨t, ht, -⟩ := execWord_ends w { s with events := es }
      exact ⟨t, (step_of_command h).trans ht⟩

end Sys2Proof.Machine
end

section
/-! SUPPORT. The size of the determinant (R161): it is affine in each single entry, so on a box of
matrices its size is greatest at a corner of the box. -/

namespace Sys2Proof.Machine

@[simp] theorem matSet_matGet {α : Type} (m : Mat3 α) (i : Fin 9) :
    matSet m i (matGet m i) = m := by
  fin_cases i <;> rfl

/-- The determinant is affine in each entry (R162). -/
theorem det3_matSet (m : Mat3 Int) (i : Fin 9) (x : Int) :
    det3 (matSet m i x) =
      det3 (matSet m i 0) + x * (det3 (matSet m i 1) - det3 (matSet m i 0)) := by
  fin_cases i <;> simp only [matSet, det3] <;> ring

/-- An affine function within a bound at both ends of an interval is within it in between. -/
theorem abs_add_mul_le {lo hi x p q B : Int} (hlo : lo ≤ x) (hhi : x ≤ hi)
    (h : |p + lo * q| ≤ B) (h' : |p + hi * q| ≤ B) : |p + x * q| ≤ B := by
  rw [abs_le] at h h' ⊢
  rcases le_total 0 q with hq | hq
  · have := mul_le_mul_of_nonneg_right hlo hq
    have := mul_le_mul_of_nonneg_right hhi hq
    omega
  · have := mul_le_mul_of_nonpos_right hlo hq
    have := mul_le_mul_of_nonpos_right hhi hq
    omega

/-- Every entry of the matrix from index n on is at an end of the interval. -/
def CornerFrom (lo hi : Int) (n : Nat) (m : Mat3 Int) : Prop :=
  ∀ i : Fin 9, n ≤ i.val → matGet m i = lo ∨ matGet m i = hi

/-- Moving entry n to an end of the interval. -/
theorem CornerFrom.matSet {lo hi x : Int} {m : Mat3 Int} {i : Fin 9}
    (h : CornerFrom lo hi (i.val + 1) m) (hx : x = lo ∨ x = hi) :
    CornerFrom lo hi i.val (matSet m i x) := by
  intro j hj
  rw [matGet_matSet]
  split_ifs with hij
  · exact hx
  · exact h j (by omega)

/-- A bound on the determinant at the corners is a bound on the box: entry by entry, from the last
to the first. -/
theorem abs_det3_le_of_corners {lo hi B : Int}
    (hcorner : ∀ m, CornerFrom lo hi 0 m → |det3 m| ≤ B) (n : Nat) (m : Mat3 Int)
    (hbox : ∀ i, lo ≤ matGet m i ∧ matGet m i ≤ hi) (h : CornerFrom lo hi n m) :
    |det3 m| ≤ B := by
  induction n generalizing m with
  | zero => exact hcorner m h
  | succ n ih =>
    by_cases hn : n < 9
    · obtain ⟨hlo, hhi⟩ := hbox ⟨n, hn⟩
      have hends : ∀ x, x = lo ∨ x = hi → |det3 (matSet m ⟨n, hn⟩ x)| ≤ B := by
        intro x hx
        refine ih _ (fun j => ?_) (CornerFrom.matSet (i := ⟨n, hn⟩) h hx)
        rw [matGet_matSet]
        split_ifs
        · omega
        · exact hbox j
      have hl := hends lo (.inl rfl)
      have hh := hends hi (.inr rfl)
      rw [det3_matSet] at hl hh
      rw [← matSet_matGet m ⟨n, hn⟩, det3_matSet]
      exact abs_add_mul_le hlo hhi hl hh
    · exact ih m hbox fun i hi => absurd i.isLt (by omega)

/-- The corner of a box that nine choices of an end name. -/
def cornerOf (lo hi : Int) (a b c d e f g h i : Bool) : Mat3 Int :=
  matMap (fun p => if p then hi else lo) ⟨a, b, c, d, e, f, g, h, i⟩

theorem exists_cornerOf {lo hi : Int} {m : Mat3 Int} (hm : CornerFrom lo hi 0 m) :
    ∃ a b c d e f g h i, m = cornerOf lo hi a b c d e f g h i := by
  have hend : ∀ j, ∃ p : Bool, matGet m j = if p then hi else lo := fun j =>
    (hm j (Nat.zero_le _)).elim (fun h => ⟨false, h⟩) fun h => ⟨true, h⟩
  choose p hp using hend
  refine ⟨p 0, p 1, p 2, p 3, p 4, p 5, p 6, p 7, p 8, ?_⟩
  cases m
  exact (Mat3.mk.injEq ..).mpr ⟨hp 0, hp 1, hp 2, hp 3, hp 4, hp 5, hp 6, hp 7, hp 8⟩

/-- A bound on the determinant at the corners, by their names, is a bound on the box. -/
theorem abs_det3_le {lo hi B : Int}
    (hcorner : ∀ a b c d e f g h i, |det3 (cornerOf lo hi a b c d e f g h i)| ≤ B) (m : Mat3 Int)
    (hbox : ∀ i, lo ≤ matGet m i ∧ matGet m i ≤ hi) : |det3 m| ≤ B := by
  refine abs_det3_le_of_corners (n := 9) (fun m hm => ?_) m hbox fun i hi =>
    absurd i.isLt (by omega)
  obtain ⟨a, b, c, d, e, f, g, h, i, rfl⟩ := exists_cornerOf hm
  exact hcorner a b c d e f g h i

/-- The 512 corners of the signed bytes (R161). -/
theorem abs_det3_byteCorner : ∀ a b c d e f g h i,
    |det3 (cornerOf (-128) 127 a b c d e f g h i)| ≤ 8388225 := by
  decide

/-- The 512 corners of the residues (R161). -/
theorem abs_det3_residueCorner : ∀ a b c d e f g h i,
    |det3 (cornerOf 0 25 a b c d e f g h i)| ≤ 31250 := by
  decide

/-- Settles O29: the bounds hold at the corners and so in the boxes, and one corner of each box
attains its bound. -/
theorem determinantSize : Obligations.DeterminantSize := by
  refine ⟨fun m hbox => ?bytes,
    ⟨⟨-128, -128, 127, -128, 127, -128, 127, -128, -128⟩, by decide, by decide⟩,
    fun m hbox => ?residues, ⟨⟨25, 25, 0, 0, 25, 25, 25, 0, 25⟩, by decide, by decide⟩⟩
  case bytes =>
    have h := abs_det3_le abs_det3_byteCorner m hbox
    exact ⟨h, h.trans (by decide)⟩
  case residues =>
    have h := abs_det3_le abs_det3_residueCorner m hbox
    exact ⟨h, h.trans (by decide)⟩

end Sys2Proof.Machine
end

section
/-! SUPPORT. What a command has written when it completes, and how it completes, said once for all
commands: `exec_written`. The rules about who writes what (R21, R29, R41 (c), R43) and about which
command raises which error (R230) follow from it. -/

namespace Sys2Proof.Machine

variable {i : Instr} {s t u : State}

/-! ### What a command has written -/

/-- `u` is what the rule of the command has written on `s` when the command completes: one
constructor per kind of write. -/
inductive Written : Instr → State → State → Prop where
  /-- The reads, NOP, and a command that raises an error without a write (R43). -/
  | unchanged {i : Instr} {s : State} (hi : i ∉ [Instr.val, .minv, .enc, .dec]) : Written i s s
  | rst {s : State} : Written .rst s s.resetCore
  /-- WR writes host registers only, and a TLEN that TIN can hold (R122). -/
  | wr {rn : Byte} {imm : Half} {s : State} {a b tlen : BitVec 16} {k : Mat3 (BitVec 8)}
      {v : Vec3 (BitVec 8)} (htlen : tlen = s.tlen ∨ tlen.toNat ≤ s.tmax) :
      Written (.wr rn imm) s { s with a := a, b := b, tlen := tlen, k := k, v := v }
  | wrb {addr : Half} {byte : Byte} {s : State} (h : addr.toNat < s.tmax) :
      Written (.wrb addr byte) s (s.storeByte addr.toNat byte)
  | mod {s : State} (hb : 0 < s.b.toInt) : Written .mod s (s.writeR (mod s.a.toInt s.b.toInt))
  | xgcd {s : State} (ha : 0 ≤ s.a.toInt) (hb : 0 ≤ s.b.toInt) :
      Written .xgcd s (s.writeTriple (extendedGCD s.a.toInt s.b.toInt))
  | modinv {s : State} (hb : 0 < s.b.toInt) : Written .modinv s s.writeModinv
  | det {s : State} : Written .det s s.writeDet
  | val {s : State} {c : Bool} : Written .val s (s.detStage.setKval c)
  | adj {s : State} : Written .adj s s.writeAdjugate
  /-- A MINV without an inverse keeps KI (R172). -/
  | singular {s : State} : Written .minv s s.detStage
  | minv {s : State} : Written .minv s s.detStage.writeInverse
  | mvm {bank : Byte} {s : State} {m : Mat3 Int} : Written (.mvm bank) s (s.writeProduct m)
  | noText {i : Instr} {s : State} (hi : i ∈ [Instr.enc, .dec]) (ht : s.EmptyText) :
      Written i s s.noText
  | badKey {i : Instr} {s : State} (hi : i ∈ [Instr.enc, .dec]) : Written i s s.badKey
  /-- Done completes the command itself, and completing twice is completing once (R203). -/
  | enc {s : State} : Written .enc s s.enciphered
  | dec {s : State} : Written .dec s s.deciphered

/-- The column "raised by" of R230, with the illegal terms that no word encodes (log 12). -/
def RaisedBy (e : ErrCode) (i : Instr) : Prop :=
  match e with
  | .none => False
  | .emptyInput => i ∈ [.enc, .dec]
  | .validation => i ∈ [.enc, .dec]
  | .singularMatrix => i ∈ [.minv, .enc, .dec]
  | .illegalCommand => (∃ rn imm, i = .wr rn imm) ∨ (∃ rn, i = .rd rn) ∨ i.wellFormed = false
  | .operand => i ∈ [.mod, .xgcd, .modinv]
  | .range =>
    (∃ rn imm, i = .wr rn imm) ∨ (∃ addr v, i = .wrb addr v) ∨ ∃ addr, i = .rdb addr

/-- `t` completes the command on the writes `u` (R14, R62, R239). -/
inductive Completes (i : Instr) (u : State) : State → Prop where
  | succeeded : Completes i u u.succeed
  | raised {e : ErrCode} (he : RaisedBy e i) : Completes i u (u.raise e)
  | answered {d : Word} : Completes i u (u.answer d)

/-- The command has a next state, which completes it on what its rule has written. -/
def WritesAndCompletes (i : Instr) (s : State) : Prop :=
  ∃ u t, exec i s = .next t ∧ Written i s u ∧ Completes i u t

/-! ### The branches of ENC and DEC -/

/-- ENC and DEC end with one of the three errors of the block processor, in their order, or go
through Done (R200, R201, R238). -/
theorem exec_cipher_branches (hi : i ∈ [Instr.enc, .dec]) (s : State) :
    (s.EmptyText ∧ exec i s = .next (s.noText.raise .emptyInput)) ∨
      (¬ s.EmptyText ∧ ¬ s.KeyInRange ∧ exec i s = .next (s.badKey.raise .validation)) ∨
      (¬ s.EmptyText ∧ s.KeyInRange ∧ ¬ s.KeyCoprime ∧
        exec i s = .next (s.badKey.raise .singularMatrix)) ∨
      (¬ s.EmptyText ∧ s.KeyInRange ∧ s.KeyCoprime ∧
        (i = .enc ∧ exec i s = .next s.enciphered ∨
          i = .dec ∧ exec i s = .next s.deciphered)) := by
  by_cases ht : s.EmptyText
  · exact .inl ⟨ht, exec_cipher_of_failed hi (startStage_of_emptyText ht)⟩
  · refine .inr ?_
    by_cases hr : s.KeyInRange
    · refine .inr ?_
      by_cases hc : s.KeyCoprime
      · refine .inr ⟨ht, hr, hc, ?_⟩
        rcases enc_or_dec hi with rfl | rfl
        · exact .inl ⟨rfl, exec_enc_of_valid ht hr hc⟩
        · exact .inr ⟨rfl, exec_dec_of_valid ht hr hc⟩
      · exact .inl ⟨ht, hr, hc, exec_cipher_of_failed hi (startStage_of_not_coprime ht hr hc)⟩
    · exact .inl ⟨ht, hr, exec_cipher_of_failed hi (startStage_of_not_inRange ht hr)⟩

/-! ### Each command writes and completes so -/

section PerCommand

theorem writes_of_succeed (h : exec i s = .next u.succeed) (hu : Written i s u) :
    WritesAndCompletes i s :=
  ⟨_, _, h, hu, .succeeded⟩

theorem writes_of_raise {e : ErrCode} (h : exec i s = .next (u.raise e)) (hu : Written i s u)
    (he : RaisedBy e i) : WritesAndCompletes i s :=
  ⟨_, _, h, hu, .raised he⟩

/-- WR of a value in the register's range (R122). -/
theorem written_writeHostReg {rn : Byte} {imm : Half} {q : HostReg} {n : Int} (hlo : q.lo ≤ n)
    (hhi : n ≤ s.hostRegHi q) : Written (.wr rn imm) s (s.writeHostReg q n) := by
  cases q with
  | tlen =>
    refine .wr (.inr ?_)
    have hmax := s.capacity.isLt
    simp only [HostReg.lo, State.hostRegHi, State.tmax] at hlo hhi ⊢
    rw [BitVec.toNat_ofInt]
    omega
  | a | b | k _ | v _ => exact .wr (.inl rfl)

variable (s)

theorem writes_wr (rn : Byte) (imm : Half) : WritesAndCompletes (.wr rn imm) s := by
  cases hq : hostRegOfNumber rn with
  | none =>
    exact writes_of_raise (execWr_of_none imm hq) (.unchanged (by simp)) (.inl ⟨_, _, rfl⟩)
  | some q =>
    by_cases hr : imm.toInt < q.lo ∨ s.hostRegHi q < imm.toInt
    · exact writes_of_raise (execWr_of_out_of_range hq hr) (.unchanged (by simp))
        (.inl ⟨_, _, rfl⟩)
    · exact writes_of_succeed (execWr_of_in_range hq hr)
        (written_writeHostReg (by omega) (by omega))

theorem writes_rd (rn : Byte) : WritesAndCompletes (.rd rn) s := by
  cases hq : regOfNumber rn with
  | none =>
    exact writes_of_raise (execRd_of_none hq) (.unchanged (by simp)) (.inr (.inl ⟨_, rfl⟩))
  | some q => exact ⟨_, _, execRd_of_some hq, .unchanged (by simp), .answered⟩

theorem writes_wrb (addr : Half) (byte : Byte) : WritesAndCompletes (.wrb addr byte) s := by
  by_cases h : addr.toNat < s.tmax
  · exact writes_of_succeed (execWrb_of_lt byte h) (.wrb h)
  · exact writes_of_raise (execWrb_of_le byte (not_lt.1 h)) (.unchanged (by simp))
      (.inr (.inl ⟨_, _, rfl⟩))

theorem writes_rdb (addr : Half) : WritesAndCompletes (.rdb addr) s := by
  cases hv : s.memRead addr.toNat with
  | none =>
    exact writes_of_raise (execRdb_of_none hv) (.unchanged (by simp)) (.inr (.inr ⟨_, rfl⟩))
  | some v => exact ⟨_, _, execRdb_of_some hv, .unchanged (by simp), .answered⟩

theorem writes_mod : WritesAndCompletes .mod s := by
  by_cases h : s.b.toInt ≤ 0
  · exact writes_of_raise (execMod_of_nonpos h) (.unchanged (by simp)) (by simp [RaisedBy])
  · exact writes_of_succeed (execMod_of_pos (not_le.1 h)) (.mod (not_le.1 h))

theorem writes_xgcd : WritesAndCompletes .xgcd s := by
  by_cases h : s.a.toInt < 0 ∨ s.b.toInt < 0
  · exact writes_of_raise (execXgcd_of_neg h) (.unchanged (by simp)) (by simp [RaisedBy])
  · exact writes_of_succeed (execXgcd_of_nonneg h) (.xgcd (by omega) (by omega))

theorem writes_modinv : WritesAndCompletes .modinv s := by
  by_cases h : s.b.toInt ≤ 0
  · exact writes_of_raise (execModinv_of_nonpos h) (.unchanged (by simp)) (by simp [RaisedBy])
  · exact writes_of_succeed (execModinv_of_pos (not_le.1 h)) (.modinv (not_le.1 h))

theorem writes_minv : WritesAndCompletes .minv s := by
  by_cases h : s.KeyCoprime
  · exact writes_of_succeed (execMinv_of_coprime h) .minv
  · exact writes_of_raise (execMinv_of_not_coprime h) .singular (by simp [RaisedBy])

theorem writes_mvm (bank : Byte) : WritesAndCompletes (.mvm bank) s := by
  by_cases h0 : bank = 0#8
  · exact writes_of_succeed (if_pos h0) .mvm
  · by_cases h1 : bank = 1#8
    · exact writes_of_succeed ((if_neg h0).trans (if_pos h1)) .mvm
    · exact writes_of_raise (execMvm_of_bad_bank h0 h1) (.unchanged (by simp))
        (.inr (.inr (by simp [Instr.wellFormed, h0, h1])))

theorem writes_cipher (hi : i ∈ [Instr.enc, .dec]) : WritesAndCompletes i s := by
  rcases exec_cipher_branches hi s with
    ⟨ht, h⟩ | ⟨-, -, h⟩ | ⟨-, -, -, h⟩ | ⟨-, -, -, ⟨rfl, h⟩ | ⟨rfl, h⟩⟩
  · exact writes_of_raise h (.noText hi ht) hi
  · exact writes_of_raise h (.badKey hi) hi
  · exact writes_of_raise h (.badKey hi) (List.mem_cons_of_mem _ hi)
  · exact writes_of_succeed (u := s.enciphered) h .enc
  · exact writes_of_succeed (u := s.deciphered) h .dec

/-- Every command writes and completes so. -/
theorem writesAndCompletes (i : Instr) : WritesAndCompletes i s := by
  cases i with
  | nop => exact writes_of_succeed rfl (.unchanged (by simp))
  | rst => exact writes_of_succeed rfl .rst
  | wr rn imm => exact writes_wr s rn imm
  | rd rn => exact writes_rd s rn
  | wrb addr byte => exact writes_wrb s addr byte
  | rdb addr => exact writes_rdb s addr
  | mod => exact writes_mod s
  | xgcd => exact writes_xgcd s
  | modinv => exact writes_modinv s
  | det => exact writes_of_succeed rfl .det
  | val => exact writes_of_succeed rfl .val
  | adj => exact writes_of_succeed rfl .adj
  | minv => exact writes_minv s
  | mvm bank => exact writes_mvm s bank
  | enc => exact writes_cipher s (by decide)
  | dec => exact writes_cipher s (by decide)

end PerCommand

/-- What the next state of a command is: its writes, completed. -/
theorem exec_written (h : exec i s = .next t) : ∃ u, Written i s u ∧ Completes i u t := by
  obtain ⟨u, t', ht', hu, hc⟩ := writesAndCompletes s i
  obtain rfl := Host.Outcome.next.inj (ht'.symm.trans h)
  exact ⟨u, hu, hc⟩

/-! ### What completing changes -/

/-- The state with another ERR and another response. -/
def State.withResponse (s : State) (e : ErrCode) (p : Option Response) : State :=
  { s with status := { s.status with err := e }, rsp := p }

/-- Completing a command writes ERR and the response only (R14, R62). -/
theorem Completes.exists_withResponse (h : Completes i u t) : ∃ e p, t = u.withResponse e p := by
  cases h with
  | succeeded => exact ⟨_, _, rfl⟩
  | raised => exact ⟨_, _, rfl⟩
  | answered => exact ⟨_, _, rfl⟩

/-- What the next state of a command is, but for ERR and the response. -/
theorem exec_written_withResponse (h : exec i s = .next t) :
    ∃ u e p, Written i s u ∧ t = u.withResponse e p := by
  obtain ⟨u, hu, hc⟩ := exec_written h
  obtain ⟨e, p, rfl⟩ := hc.exists_withResponse
  exact ⟨u, e, p, hu, rfl⟩

/-! ### Who writes the operands -/

theorem tmax_lt_ntBase (s : State) : s.tmax < Config.ntBase := by
  have := s.capacity.isLt
  simp only [State.tmax, Config.ntBase]
  omega

/-- The block processor writes NT and TOUT only, which lie above TIN (R64). -/
theorem read_iterateBlocks_of_lt {addr : Nat} (m : Mat3 Int) (h : addr < Config.ntBase) :
    Memory.read (s.iterateBlocks m).mem addr = Memory.read s.mem addr := by
  have hlt : addr < Config.toutBase := h.trans (by decide)
  rw [iterateBlocks_mem, read_writeBytes_outside _ _ (.inl hlt),
    read_writeBytes_outside _ _ (.inl h)]

theorem Written.operands (h : Written i s u) (hwr : ∀ rn imm, i ≠ .wr rn imm) (hrst : i ≠ .rst) :
    u.a = s.a ∧ u.b = s.b ∧ u.k = s.k ∧ u.v = s.v ∧ u.tlen = s.tlen := by
  cases h with
  | rst => exact absurd rfl hrst
  | wr => exact absurd rfl (hwr _ _)
  | enc => simp [State.enciphered]
  | dec => simp [State.deciphered]
  | _ => exact ⟨rfl, rfl, rfl, rfl, rfl⟩

theorem Written.tin (h : Written i s u) (hwrb : ∀ addr v, i ≠ .wrb addr v) {addr : Nat}
    (haddr : addr < s.tmax) : Memory.read u.mem addr = Memory.read s.mem addr := by
  have hnt := haddr.trans (tmax_lt_ntBase s)
  cases h with
  | wrb => exact absurd rfl (hwrb _ _)
  | enc =>
    rw [State.enciphered, finish_mem, read_iterateBlocks_of_lt _ hnt, validated_mem]
  | dec =>
    rw [State.deciphered, finish_mem, read_iterateBlocks_of_lt _ hnt, computeInverse_mem,
      validated_mem]
  | _ => rfl

theorem Written.capacity (h : Written i s u) : u.capacity = s.capacity := by
  cases h with
  | enc => simp [State.enciphered]
  | dec => simp [State.deciphered]
  | _ => rfl

/-- Settles O50: the writes of every command but WR, RST and WRB leave the operands. -/
theorem operandsAreWrittenByTheHostOnly : Obligations.OperandsAreWrittenByTheHostOnly := by
  intro i s t h
  obtain ⟨u, e, p, hu, rfl⟩ := exec_written_withResponse h
  exact ⟨hu.operands, fun hwrb _ => hu.tin hwrb, congrArg (·.val + 1) hu.capacity⟩

/-! ### Who writes the results -/

theorem Written.triple (h : Written i s u) (hrst : i ≠ .rst) (hi : i ∉ [.xgcd, .modinv]) :
    u.g = s.g ∧ u.x = s.x ∧ u.y = s.y := by
  cases h with
  | rst => exact absurd rfl hrst
  | xgcd | modinv => simp at hi
  | enc => simp [State.enciphered]
  | dec => simp [State.deciphered]
  | _ => exact ⟨rfl, rfl, rfl⟩

theorem Written.r (h : Written i s u) (hrst : i ≠ .rst) (hi : i ∉ [.mod, .modinv]) :
    u.r = s.r := by
  cases h with
  | rst => exact absurd rfl hrst
  | mod | modinv => simp at hi
  | enc => simp [State.enciphered]
  | dec => simp [State.deciphered]
  | _ => rfl

theorem Written.det_detm (h : Written i s u) (hrst : i ≠ .rst)
    (hi : i ∉ [.det, .val, .minv, .enc, .dec]) : u.det = s.det ∧ u.detm = s.detm := by
  cases h with
  | rst => exact absurd rfl hrst
  | det | val | singular | minv | enc | dec => simp at hi
  | badKey hc => rcases enc_or_dec hc with rfl | rfl <;> simp at hi
  | _ => exact ⟨rfl, rfl⟩

theorem Written.dinv (h : Written i s u) (hrst : i ≠ .rst) (hi : i ∉ [.val, .minv, .enc, .dec]) :
    u.dinv = s.dinv := by
  cases h with
  | rst => exact absurd rfl hrst
  | val | singular | minv | enc | dec => simp at hi
  | badKey hc => rcases enc_or_dec hc with rfl | rfl <;> simp at hi
  | _ => rfl

theorem Written.lengths_fsm (h : Written i s u) (hrst : i ≠ .rst) (hi : i ∉ [.enc, .dec]) :
    u.nlen = s.nlen ∧ u.olen = s.olen ∧ u.blk = s.blk ∧ u.status.fsm = s.status.fsm := by
  cases h with
  | rst => exact absurd rfl hrst
  | enc | dec => simp at hi
  | noText hc => exact absurd hc hi
  | badKey hc => exact absurd hc hi
  | _ => exact ⟨rfl, rfl, rfl, rfl⟩

theorem Written.ki (h : Written i s u) (hrst : i ≠ .rst) (hi : i ∉ [.minv, .dec]) :
    u.ki = s.ki := by
  cases h with
  | rst => exact absurd rfl hrst
  | minv | dec => simp at hi
  | enc => simp [State.enciphered]
  | _ => rfl

theorem Written.aj (h : Written i s u) (hrst : i ≠ .rst) (hi : i ≠ .adj) : u.aj = s.aj := by
  cases h with
  | rst => exact absurd rfl hrst
  | adj => exact absurd rfl hi
  | enc => simp [State.enciphered]
  | dec => simp [State.deciphered]
  | _ => rfl

theorem Written.w (h : Written i s u) (hrst : i ≠ .rst) (hi : ∀ bank, i ≠ .mvm bank) :
    u.w = s.w := by
  cases h with
  | rst => exact absurd rfl hrst
  | mvm => exact absurd rfl (hi _)
  | enc => simp [State.enciphered]
  | dec => simp [State.deciphered]
  | _ => rfl

theorem Written.noinv (h : Written i s u) (hrst : i ≠ .rst) (hi : i ≠ .modinv) :
    u.status.noinv = s.status.noinv := by
  cases h with
  | rst => exact absurd rfl hrst
  | modinv => exact absurd rfl hi
  | enc => simp [State.enciphered]
  | dec => simp [State.deciphered]
  | _ => rfl

theorem Written.kval (h : Written i s u) (hrst : i ≠ .rst) (hi : i ∉ [.val, .enc, .dec]) :
    u.status.kval = s.status.kval := by
  cases h with
  | rst => exact absurd rfl hrst
  | val | enc | dec => simp at hi
  | badKey hc => exact absurd (List.mem_cons_of_mem _ hc) hi
  | _ => rfl

/-- Settles O51: register by register, only the writes of the commands named change it. -/
theorem resultsAreWrittenByTheirCommandsOnly :
    Obligations.ResultsAreWrittenByTheirCommandsOnly := by
  intro i s t h hrst
  obtain ⟨u, e, p, hu, rfl⟩ := exec_written_withResponse h
  exact ⟨hu.triple hrst, hu.r hrst, hu.det_detm hrst, hu.dinv hrst, hu.lengths_fsm hrst,
    hu.ki hrst, hu.aj hrst, hu.w hrst, hu.noinv hrst, hu.kval hrst⟩

/-! ### DINV between its writers -/

/-- DINV is 0 or the inverse of DETM (R41 (c)). -/
def State.DinvAgrees (s : State) : Prop :=
  s.dinv.toNat = 0 ∨ (s.detm.toNat * s.dinv.toNat) % 26 = 1

/-- DetStage leaves a DINV that agrees (R165). -/
theorem DetStageWritten.dinvAgrees (h : DetStageWritten s t) : t.DinvAgrees := by
  obtain ⟨-, -, -, hinverse, hzero⟩ := h
  by_cases hc : s.KeyCoprime
  · exact .inr (mod_cast hinverse hc)
  · exact .inl (hzero hc)

/-- After a command DETM and DINV are those of a DetStage or those from before, but for RST, which
leaves DINV at 0, and DET, which writes DETM alone. -/
theorem Written.detm_dinv_cases (h : Written i s u) :
    DetStageWritten s u ∨ u.dinv = 0 ∨ i = .det ∨
      (i ∉ [.val, .minv] ∧ (i ∈ [.enc, .dec] → s.EmptyText) ∧ u.detm = s.detm ∧
        u.dinv = s.dinv) := by
  cases h with
  | rst => exact .inr (.inl rfl)
  | det => exact .inr (.inr (.inl rfl))
  | val | singular | minv | badKey | enc | dec => exact .inl (detStageWritten_of rfl rfl rfl)
  | noText hi ht =>
    refine .inr (.inr (.inr ⟨?_, fun _ => ht, rfl, rfl⟩))
    rcases enc_or_dec hi with rfl | rfl <;> simp
  | unchanged hi =>
    refine .inr (.inr (.inr ⟨fun h => hi ?_, fun h => absurd ?_ hi, rfl, rfl⟩))
    · exact List.mem_append_left [.enc, .dec] h
    · exact List.mem_append_right [.val, .minv] h
  | _ => exact .inr (.inr (.inr ⟨by simp, by simp, rfl, rfl⟩))

/-- Settles O52: the writers of DINV run DetStage, and the other commands but DET keep both
registers. -/
theorem dinvAgreesUntilDet : Obligations.DinvAgreesUntilDet := by
  intro i s t h hwriter
  obtain ⟨u, e, p, hu, rfl⟩ := exec_written_withResponse h
  change u.DinvAgrees
  rcases hu.detm_dinv_cases with hd | h0 | rfl | ⟨hi, htext, hdetm, hdinv⟩
  · exact hd.dinvAgrees
  · exact .inl (congrArg BitVec.toNat h0)
  · simp at hwriter
  · rw [State.DinvAgrees, hdetm, hdinv]
    exact ((hwriter.resolve_left hi).resolve_left fun ⟨hc, ht⟩ => ht (htext hc)).2

/-! ### Who raises which error -/

/-- Six commands raise no error (R230). -/
theorem not_raisedBy {e : ErrCode}
    (hi : i ∈ [Instr.nop, .rst, .det, .val, .adj, .mvm 0, .mvm 1]) : ¬ RaisedBy e i := by
  simp only [List.mem_cons, List.not_mem_nil, or_false] at hi
  cases e with
  | none => exact id
  | _ =>
    rcases hi with rfl | rfl | rfl | rfl | rfl | rfl | rfl <;> simp [RaisedBy, Instr.wellFormed]

/-- Settles O53: a command completes with `rsp_err` = 1 by an error that R230 names for it. -/
theorem errorsAreRaisedByTheirCommandsOnly : Obligations.ErrorsAreRaisedByTheirCommandsOnly := by
  intro i s t d hwf h hrsp
  obtain ⟨u, -, hc⟩ := exec_written h
  cases hc with
  | succeeded => simp at hrsp
  | answered => simp at hrsp
  | @raised e he =>
    refine ⟨?_, ?_, ?_, ?illegal, ?_, ?_, ?none, fun hi => not_raisedBy hi he⟩
    case illegal =>
      rintro rfl
      exact he.imp_right fun h => h.resolve_right (by simp [hwf])
    all_goals
      rintro rfl
      exact he

end Sys2Proof.Machine
end

section
/-! SUPPORT. The invariant of the reachable states (R41): each kind of write keeps it, so every step
keeps it. -/

namespace Sys2Proof.Machine

variable {i : Instr} {s t u : State}

/-! ### Reset and the ports -/

/-- The text memory is canonical and its entries lie in TIN, NT or TOUT (R38, R64, log 6). -/
def State.MemInv (s : State) : Prop :=
  Memory.wf s.mem = true ∧ ∀ p ∈ s.mem, p.1 < s.tmax ∨
    (Config.ntBase ≤ p.1 ∧ p.1 < Config.ntBase + s.nmax) ∨
    (Config.toutBase ≤ p.1 ∧ p.1 < Config.toutBase + s.nmax)

theorem State.Inv.mem (h : s.Inv) : s.MemInv := ⟨h.memCanonical, h.memPlaces⟩

/-- The reset values hold the invariant, with any text memory that does (R42). -/
theorem inv_resetCore (h : s.MemInv) : s.resetCore.Inv where
  detmAgrees := rfl
  dinvResidue := Nat.zero_le _
  kiResidues := by show ∀ i, (matGet State.reset.ki i).toNat ≤ 25; decide
  ajResidues := by show ∀ i, (matGet State.reset.aj i).toNat ≤ 25; decide
  wResidues := by show ∀ j, (vecGet State.reset.w j).toNat ≤ 25; decide
  gNonneg := le_rfl
  rNonneg := le_rfl
  tlenBound := Nat.zero_le _
  nlenBlocks := rfl
  nlenBound := Nat.zero_le _
  olenAgrees := rfl
  blkAgrees := by simp [State.reset]
  ntCapitals := nofun
  toutCapitals := nofun
  fsmRests := ⟨nofun, nofun, nofun⟩
  failedEmpty := fun _ => rfl
  memCanonical := h.1
  memPlaces := h.2

/-- At power-up nothing has been written (R262). -/
theorem memInv_of_mem_nil (h : s.mem = []) : s.MemInv := by
  rw [State.MemInv, h]
  exact ⟨rfl, nofun⟩

/-- No clause speaks of ERR, of the host's coming events or of the response. -/
theorem State.Inv.withPorts (h : s.Inv) (e : ErrCode) (es : List HostEvent) (p : Option Response) :
    State.Inv { s with status := { s.status with err := e }, events := es, rsp := p } :=
  { h with }

/-! ### The operands -/

theorem State.Inv.writeOperands (h : s.Inv) (a b : BitVec 16) {tlen : BitVec 16}
    (k : Mat3 (BitVec 8)) (v : Vec3 (BitVec 8)) (htlen : tlen = s.tlen ∨ tlen.toNat ≤ s.tmax) :
    State.Inv { s with a := a, b := b, tlen := tlen, k := k, v := v } :=
  { h with tlenBound := htlen.elim (fun he => he ▸ h.tlenBound) id }

/-- A store into TIN is below NT and TOUT (R64). -/
theorem read_storeByte_of_le {addr other : Nat} (v : Byte) (h : addr < s.tmax)
    (hother : Config.ntBase ≤ other) :
    Memory.read (s.storeByte addr v).mem other = Memory.read s.mem other :=
  read_write_other s.mem v (by have := tmax_lt_ntBase s; omega)

theorem normalisedText_storeByte {addr : Nat} (v : Byte) (h : addr < s.tmax) :
    (s.storeByte addr v).normalisedText = s.normalisedText :=
  List.map_congr_left fun _ _ => read_storeByte_of_le v h (Nat.le_add_right _ _)

theorem outputText_storeByte {addr : Nat} (v : Byte) (h : addr < s.tmax) :
    (s.storeByte addr v).outputText = s.outputText :=
  List.map_congr_left fun _ _ =>
    read_storeByte_of_le v h (le_trans (by decide) (Nat.le_add_right Config.toutBase _))

theorem State.Inv.storeByte (h : s.Inv) {addr : Nat} (v : Byte) (haddr : addr < s.tmax) :
    (s.storeByte addr v).Inv :=
  { h with
    ntCapitals := by rw [normalisedText_storeByte v haddr]; exact h.ntCapitals
    toutCapitals := by rw [outputText_storeByte v haddr]; exact h.toutCapitals
    memCanonical := wf_write addr v h.memCanonical
    memPlaces := fun p hp => (mem_write hp).elim (fun he => .inl (he ▸ haddr)) (h.memPlaces p) }

/-! ### The modular_inverse_gcd unit -/

theorem State.Inv.writeMod (h : s.Inv) (hb : 0 < s.b.toInt) :
    (s.writeR (mod s.a.toInt s.b.toInt)).Inv :=
  { h with
    rNonneg := by
      rw [writeR_r, toInt_ofInt_mod _ hb]
      exact Int.emod_nonneg _ hb.ne' }

/-- The gcd in G is not negative (R147). -/
theorem writeTriple_g_nonneg {a b : Int} (s : State) (ha : 0 ≤ a) (hb : 0 ≤ b) (ha' : a ≤ 32767)
    (hb' : b ≤ 32767) : 0 ≤ (s.writeTriple (extendedGCD a b)).g.toInt := by
  obtain ⟨hg, -, -⟩ := writeTriple_extendedGCD_toInt s ha hb ha' hb'
  rw [hg, extendedGCD_fst ha hb]
  exact Int.natCast_nonneg _

theorem State.Inv.writeGcd (h : s.Inv) (ha : 0 ≤ s.a.toInt) (hb : 0 ≤ s.b.toInt) :
    (s.writeTriple (extendedGCD s.a.toInt s.b.toInt)).Inv :=
  { h with
    gNonneg := writeTriple_g_nonneg s ha hb (toInt_16_bounds s.a).2 (toInt_16_bounds s.b).2 }

theorem writeModinv_r_nonneg (hb : 0 < s.b.toInt) : 0 ≤ s.writeModinv.r.toInt := by
  by_cases h1 : (extendedGCD (mod s.a.toInt s.b.toInt) s.b.toInt).1 = 1
  · rw [(writeModinv_of_fst_eq_one hb h1).2]
    exact Int.emod_nonneg _ hb.ne'
  · rw [(writeModinv_of_fst_ne_one h1).2]
    exact le_rfl

theorem State.Inv.writeModinv (h : s.Inv) (hb : 0 < s.b.toInt) : s.writeModinv.Inv :=
  { h with
    gNonneg := by
      rw [(writeModinv_triple hb).1, extendedGCD_mod_fst _ hb]
      exact Int.natCast_nonneg _
    rNonneg := writeModinv_r_nonneg hb }

/-! ### The matrix units -/

@[simp] theorem matGet_matMap {α β : Type} (f : α → β) (m : Mat3 α) (i : Fin 9) :
    matGet (matMap f m) i = f (matGet m i) := by
  fin_cases i <;> rfl

theorem State.Inv.writeDet (h : s.Inv) : s.writeDet.Inv :=
  { h with
    detmAgrees := by
      rw [writeDet_detm, writeDet_det, mod_26, toNat_residueBits_mod, toInt_ofInt_det3,
        det3_keyMatrix] }

theorem State.Inv.detStage (h : s.Inv) : s.detStage.Inv := by
  obtain ⟨hdet, hdetm, hdinv, -⟩ := detStageWritten_of (s := s) (t := s.detStage) rfl rfl rfl
  exact { h with detmAgrees := by rw [hdetm, hdet], dinvResidue := hdinv }

theorem State.Inv.setKval (h : s.Inv) (c : Bool) : (s.setKval c).Inv :=
  { h with }

theorem State.Inv.writeAdjugate (h : s.Inv) : s.writeAdjugate.Inv :=
  { h with
    ajResidues := fun i => by
      rw [writeAdjugate_aj, matGet_matMap, mod_26]
      exact residueBits_mod_le _ }

theorem State.Inv.writeInverse (h : s.Inv) : s.writeInverse.Inv :=
  { h with
    kiResidues := fun i => by
      rw [writeInverse_ki, inverseEntries, matGet_matMap, matGet_matMap, mod_26]
      exact residueBits_mod_le _ }

theorem State.Inv.writeProduct (h : s.Inv) (m : Mat3 Int) : (s.writeProduct m).Inv :=
  { h with
    wResidues := fun j => by
      rw [writeProduct_w, vecGet_vecMap, vecGet_mvm]
      exact residueBits_mod_le _ }

/-! ### The block processor -/

/-- An error of the block processor withdraws the outputs (R197, R198). -/
theorem State.Inv.withdraw (h : s.Inv) {f : FsmState} (c : Bool)
    (hf : f = .invalidMatrix ∨ f = .emptyInput) :
    State.Inv { s with
      nlen := 0, olen := 0, blk := 0, status := { s.status with fsm := f, kval := c } } :=
  { h with
    nlenBlocks := rfl
    nlenBound := Nat.zero_le _
    olenAgrees := rfl
    blkAgrees := by simp
    ntCapitals := nofun
    toutCapitals := nofun
    fsmRests := by rcases hf with rfl | rfl <;> exact ⟨nofun, nofun, nofun⟩
    failedEmpty := fun _ => rfl }

theorem State.Inv.noText (h : s.Inv) : s.noText.Inv := h.withdraw _ (.inr rfl)

theorem State.Inv.badKey (h : s.Inv) : s.badKey.Inv := h.detStage.withdraw _ (.inl rfl)

/-- NLEN after IterateBlocks and Done is the length of the normalised text (R202). -/
theorem nlen_of_finished (m : Mat3 Int) (h : (prepareText s.rawText).length ≤ s.nmax) :
    (s.iterateBlocks m).finish.nlen.toNat = (prepareText s.rawText).length := by
  have := nmax_le s
  rw [finish_nlen, iterateBlocks_nlen, BitVec.toNat_ofNat]
  omega

/-- IterateBlocks writes NT and TOUT only (R202). -/
theorem memInv_of_finished (h : s.MemInv) (m : Mat3 Int)
    (hfit : (prepareText s.rawText).length ≤ s.nmax) : (s.iterateBlocks m).finish.MemInv := by
  obtain ⟨hwf, hplaces⟩ := h
  rw [State.MemInv, finish_mem, iterateBlocks_mem, finish_tmax, finish_nmax, iterateBlocks_tmax,
    iterateBlocks_nmax]
  refine ⟨wf_writeBytes _ _ (wf_writeBytes _ _ hwf), fun p hp => ?_⟩
  rcases mem_writeBytes hp with ⟨hlo, hhi⟩ | hp
  · rw [length_cipherBlocks_prepareText] at hhi
    exact .inr (.inr ⟨hlo, hhi.trans_le (Nat.add_le_add_left hfit _)⟩)
  · rcases mem_writeBytes hp with ⟨hlo, hhi⟩ | hp
    · exact .inr (.inl ⟨hlo, hhi.trans_le (Nat.add_le_add_left hfit _)⟩)
    · exact hplaces p hp

/-- IterateBlocks and Done, after whatever stages keep the invariant (R202, R203). -/
theorem State.Inv.finished (h : s.Inv) (m : Mat3 Int) : (s.iterateBlocks m).finish.Inv := by
  have hfit := length_prepareText_rawText_le_nmax h.tlenBound
  have hnlen := nlen_of_finished m hfit
  obtain ⟨hnt, htout⟩ := texts_of_finished s m (hfit.trans (nmax_le s))
  obtain ⟨hwf, hplaces⟩ := memInv_of_finished h.mem m hfit
  exact
    { detmAgrees := by simpa using h.detmAgrees
      dinvResidue := by simpa using h.dinvResidue
      kiResidues := by simpa using h.kiResidues
      ajResidues := by simpa using h.ajResidues
      wResidues := by simpa using h.wResidues
      gNonneg := by simpa using h.gNonneg
      rNonneg := by simpa using h.rNonneg
      tlenBound := by simpa using h.tlenBound
      nlenBlocks := by rw [hnlen, length_prepareText_mod_three]
      nlenBound := by rwa [hnlen, finish_nmax, iterateBlocks_nmax]
      olenAgrees := by simp
      blkAgrees := by
        have hmax := nmax_le s
        rw [finish_olen, ← finish_nlen, hnlen, finish_blk, iterateBlocks_blk, BitVec.toNat_ofNat]
        omega
      ntCapitals := by rw [hnt]; exact fun _ => capital_of_mem_prepareText
      toutCapitals := by rw [htout]; exact fun _ => capital_of_mem_cipherBlocks _
      fsmRests := by simp
      failedEmpty := by simp
      memCanonical := hwf
      memPlaces := hplaces }

/-- IterateBlocks and Done overwrite what Validate has left in FSM and the lengths (R203). -/
theorem enciphered_eq (s : State) :
    s.enciphered = ((s.detStage.setKval true).iterateBlocks s.keyMatrix).finish := by
  rfl

theorem deciphered_eq (s : State) :
    s.deciphered =
      ((s.detStage.setKval true).writeInverse.iterateBlocks s.decipherMatrix).finish := by
  rfl

/-! ### Commands and steps -/

/-- Whatever a command writes keeps the invariant. -/
theorem Written.inv (h : Written i s u) (hs : s.Inv) : u.Inv := by
  cases h with
  | unchanged => exact hs
  | rst => exact inv_resetCore hs.mem
  | wr htlen => exact hs.writeOperands _ _ _ _ htlen
  | wrb haddr => exact hs.storeByte _ haddr
  | mod hb => exact hs.writeMod hb
  | xgcd ha hb => exact hs.writeGcd ha hb
  | modinv hb => exact hs.writeModinv hb
  | det => exact hs.writeDet
  | val => exact hs.detStage.setKval _
  | adj => exact hs.writeAdjugate
  | singular => exact hs.detStage
  | minv => exact hs.detStage.writeInverse
  | mvm => exact hs.writeProduct _
  | noText => exact hs.noText
  | badKey => exact hs.badKey
  | enc =>
    rw [enciphered_eq]
    exact (hs.detStage.setKval true).finished _
  | dec =>
    rw [deciphered_eq]
    exact (hs.detStage.setKval true).writeInverse.finished _

theorem inv_of_exec (hs : s.Inv) (h : exec i s = .next t) : t.Inv := by
  obtain ⟨u, e, p, hu, rfl⟩ := exec_written_withResponse h
  exact (hu.inv hs).withPorts e u.events p

/-- Settles O12: nothing has been written at power-up. -/
theorem resetHoldsTheInvariant : Obligations.ResetHoldsTheInvariant :=
  inv_resetCore (s := State.reset) (memInv_of_mem_nil rfl)

/-- Settles O13: a command keeps the invariant by its writes, and the other three steps write the
reset values, ERR, the list of events and the response only. -/
theorem everyStepKeepsTheInvariant : Obligations.EveryStepKeepsTheInvariant := by
  intro s t hs h
  rcases step_cases h with
    ⟨-, rfl⟩ | ⟨es, -, rfl⟩ | ⟨w, es, i, -, -, hexec⟩ | ⟨w, es, e, -, -, rfl⟩
  · exact hs.withPorts s.status.err s.events none
  · exact (inv_resetCore (s := { s with events := es }) hs.mem).withPorts .none es none
  · exact inv_of_exec (hs.withPorts s.status.err es s.rsp) hexec
  · exact hs.withPorts .illegalCommand es _

/-- Settles O14: by induction on the run. -/
theorem reachableStatesHoldTheInvariant : Obligations.ReachableStatesHoldTheInvariant := by
  intro s h
  induction h with
  | start c es =>
    exact inv_resetCore (s := { State.reset with capacity := c, events := es })
      (memInv_of_mem_nil rfl)
  | next _ hstep ih => exact everyStepKeepsTheInvariant _ _ ih hstep

end Sys2Proof.Machine
end

section
/-! SUPPORT. The texts of the block processor in their windows (R28, R64, R67), what ENC and DEC
leave readable (R204), and that their results follow from the text and the key (R200, R202). -/

namespace Sys2Proof.Machine

variable {i : Instr} {s s' t t' : State}

/-! ### The texts as RDB reads them -/

/-- Entry n of a text that is read from its window upward. -/
theorem getElem?_map_range {f : Nat → Byte} {len n : Nat} (h : n < len) :
    ((List.range len).map f)[n]? = some (f n) := by
  rw [List.getElem?_map, List.getElem?_range h, Option.map_some]

/-- Settles O58: each text is read from its window upward, and the addresses are readable. -/
theorem textsStandInAddressOrder : Obligations.TextsStandInAddressOrder := by
  refine fun s => ⟨rawText_eq s, length_rawText s, fun h n hn => ?tin,
    ⟨by simp [State.normalisedText], fun n hn => ?nt⟩, by simp [State.outputText],
    fun n hn => ?tout⟩
  case tin => rw [State.rawText, getElem?_map_range hn, memRead_of_readable (.inl (by omega))]
  case nt =>
    rw [State.normalisedText, getElem?_map_range hn,
      memRead_of_readable (.inr (.inl ⟨Nat.le_add_right _ _, Nat.add_lt_add_left hn _⟩))]
  case tout =>
    rw [State.outputText, getElem?_map_range hn,
      memRead_of_readable (.inr (.inr ⟨Nat.le_add_right _ _, Nat.add_lt_add_left hn _⟩))]

/-! ### The ends of ENC and DEC -/

theorem texts_of_deciphered (h : (prepareText s.rawText).length ≤ 16383) :
    s.deciphered.normalisedText = prepareText s.rawText ∧
      s.deciphered.outputText = cipherBlocks s.decipherMatrix (prepareText s.rawText) :=
  texts_of_finished s.validated.computeInverse s.decipherMatrix h

/-- What the next state of an ENC or DEC is (R200, R201). -/
theorem exec_cipher_cases (hi : i ∈ [Instr.enc, .dec]) (h : exec i s = .next t) :
    (s.EmptyText ∧ t = s.noText.raise .emptyInput) ∨
      (¬ s.EmptyText ∧ ¬ s.KeyInRange ∧ t = s.badKey.raise .validation) ∨
      (¬ s.EmptyText ∧ s.KeyInRange ∧ ¬ s.KeyCoprime ∧ t = s.badKey.raise .singularMatrix) ∨
      (¬ s.EmptyText ∧ s.KeyInRange ∧ s.KeyCoprime ∧
        (i = .enc ∧ t = s.enciphered ∨ i = .dec ∧ t = s.deciphered)) := by
  simpa [h] using exec_cipher_branches hi s

/-! ### No partial output -/

/-- Nothing of NT or TOUT is readable (R204). -/
def State.NothingReadable (s : State) : Prop :=
  s.nlen = 0 ∧ s.olen = 0 ∧ ∀ addr, s.tmax ≤ addr → s.memRead addr = none

theorem nothingReadable_of_withdrawn (hn : s.nlen = 0) (ho : s.olen = 0) : s.NothingReadable :=
  ⟨hn, ho, fun _ => memRead_eq_none_of_withdrawn hn ho⟩

/-- NT is the whole normalised text of `s`, and TOUT is as long (R204). -/
def TextsWhole (s t : State) : Prop :=
  t.normalisedText = normalForm s.inputText ∧
    t.outputText.length = (normalForm s.inputText).length

theorem textsWhole_of {m : Mat3 Int}
    (h : t.normalisedText = prepareText s.rawText ∧
      t.outputText = cipherBlocks m (prepareText s.rawText)) : TextsWhole s t := by
  rw [TextsWhole, ← prepareText_eq, ← rawText_eq, h.1, h.2, length_cipherBlocks_prepareText]
  exact ⟨rfl, rfl⟩

/-- Settles O45: each error withdraws the lengths, and Done leaves both texts. -/
theorem noPartialOutput : Obligations.NoPartialOutput := by
  intro s t i hi hlen h
  have hfit := length_prepareText_rawText_le hlen
  rcases exec_cipher_cases hi h with
    ⟨-, rfl⟩ | ⟨-, -, rfl⟩ | ⟨-, -, -, rfl⟩ | ⟨-, -, -, ⟨-, rfl⟩ | ⟨-, rfl⟩⟩
  · exact ⟨fun _ => nothingReadable_of_withdrawn rfl rfl, nofun⟩
  · exact ⟨fun _ => nothingReadable_of_withdrawn rfl rfl, nofun⟩
  · exact ⟨fun _ => nothingReadable_of_withdrawn rfl rfl, nofun⟩
  · exact ⟨fun herr => absurd rfl herr, fun _ => textsWhole_of (texts_of_enciphered hfit)⟩
  · exact ⟨fun herr => absurd rfl herr, fun _ => textsWhole_of (texts_of_deciphered hfit)⟩

/-! ### The text and the key decide -/

theorem emptyText_congr (h : s.inputText = s'.inputText) : s.EmptyText ↔ s'.EmptyText := by
  rw [State.EmptyText, State.EmptyText, h]

theorem keyInRange_congr (h : s.k = s'.k) : s.KeyInRange ↔ s'.KeyInRange := by
  rw [State.KeyInRange, State.KeyInRange, keyOf_congr h]

theorem keyCoprime_congr (h : s.k = s'.k) : s.KeyCoprime ↔ s'.KeyCoprime := by
  rw [State.KeyCoprime, State.KeyCoprime, keyOf_congr h]

/-- The inverse that DEC computes is that of the key (R199). -/
theorem computeInverse_ki_congr (h : s.k = s'.k) :
    s.validated.computeInverse.ki = s'.validated.computeInverse.ki := by
  rw [computeInverse_ki, computeInverse_ki, validated_keyMatrix, validated_keyMatrix,
    keyMatrix_congr h]

theorem decipherMatrix_congr (h : s.k = s'.k) : s.decipherMatrix = s'.decipherMatrix :=
  congrArg (matMap fun n : BitVec 5 => (n.toNat : Int)) (computeInverse_ki_congr h)

/-- The registers of DetStage are those of the key (R165). -/
theorem detStage_congr (h : s.k = s'.k) :
    s.detStage.det = s'.detStage.det ∧ s.detStage.detm = s'.detStage.detm ∧
      s.detStage.dinv = s'.detStage.dinv := by
  simp only [detStage_det, detStage_detm, detStage_dinv, keyMatrix_congr h, and_self]

/-- Two ends of ENC or DEC that agree in the error, `rsp_err`, FSM, the lengths and the texts. -/
structure OutputsAgree (t t' : State) : Prop where
  err : t.status.err = t'.status.err
  fsm : t.status.fsm = t'.status.fsm
  nlen : t.nlen = t'.nlen
  olen : t.olen = t'.olen
  blk : t.blk = t'.blk
  normalisedText : t.normalisedText = t'.normalisedText
  outputText : t.outputText = t'.outputText
  rspErr : t.rsp.map (·.err) = t'.rsp.map (·.err)

/-- Two ends that agree in the registers of DetStage and in KVAL. -/
def DetStagesAgree (t t' : State) : Prop :=
  t.det = t'.det ∧ t.detm = t'.detm ∧ t.dinv = t'.dinv ∧ t.status.kval = t'.status.kval

theorem detStagesAgree_of (hk : s.k = s'.k) (hd : t.det = s.detStage.det)
    (hm : t.detm = s.detStage.detm) (hv : t.dinv = s.detStage.dinv)
    (hd' : t'.det = s'.detStage.det) (hm' : t'.detm = s'.detStage.detm)
    (hv' : t'.dinv = s'.detStage.dinv) (hkval : t.status.kval = t'.status.kval) :
    DetStagesAgree t t' := by
  obtain ⟨ed, em, ev⟩ := detStage_congr hk
  exact ⟨hd.trans (ed.trans hd'.symm), hm.trans (em.trans hm'.symm), hv.trans (ev.trans hv'.symm),
    hkval⟩

/-- Two commands that end by the same error with the lengths withdrawn. -/
theorem outputsAgree_of_raise {u u' : State} (e : ErrCode)
    (hf : u.status.fsm = u'.status.fsm) (hn : u.nlen = 0) (hn' : u'.nlen = 0) (ho : u.olen = 0)
    (ho' : u'.olen = 0) (hb : u.blk = u'.blk) : OutputsAgree (u.raise e) (u'.raise e) where
  err := rfl
  fsm := hf
  nlen := hn.trans hn'.symm
  olen := ho.trans ho'.symm
  blk := hb
  normalisedText := by simp [State.normalisedText, hn, hn']
  outputText := by simp [State.outputText, ho, ho']
  rspErr := rfl

/-- Two commands that end by Done with the same text and the same matrix (R202, R203). -/
theorem outputsAgree_of_finish {u u' : State} (m : Mat3 Int) (hraw : u.rawText = u'.rawText)
    (hfit : (prepareText u.rawText).length ≤ 16383) :
    OutputsAgree (u.iterateBlocks m).finish (u'.iterateBlocks m).finish := by
  obtain ⟨hnt, htout⟩ := texts_of_finished u m hfit
  obtain ⟨hnt', htout'⟩ := texts_of_finished u' m (hraw ▸ hfit)
  exact
    { err := rfl
      fsm := rfl
      nlen := by simp [hraw]
      olen := by simp [hraw]
      blk := by simp [hraw]
      normalisedText := by rw [hnt, hnt', hraw]
      outputText := by rw [htout, htout', hraw]
      rspErr := rfl }

/-- ENC with the same key and text (R200). -/
theorem outputsAgree_enciphered (hk : s.k = s'.k) (hraw : s.rawText = s'.rawText)
    (hfit : (prepareText s.rawText).length ≤ 16383) :
    OutputsAgree s.enciphered s'.enciphered := by
  rw [State.enciphered, State.enciphered, ← keyMatrix_congr hk]
  exact outputsAgree_of_finish s.keyMatrix hraw hfit

/-- DEC with the same key and text (R201). -/
theorem outputsAgree_deciphered (hk : s.k = s'.k) (hraw : s.rawText = s'.rawText)
    (hfit : (prepareText s.rawText).length ≤ 16383) :
    OutputsAgree s.deciphered s'.deciphered := by
  rw [State.deciphered, State.deciphered, ← decipherMatrix_congr hk]
  exact outputsAgree_of_finish s.decipherMatrix hraw hfit

/-- The bank KI after a DEC that succeeds (R201). -/
theorem deciphered_ki_congr (hk : s.k = s'.k) : s.deciphered.ki = s'.deciphered.ki := by
  simpa [State.deciphered] using computeInverse_ki_congr hk

/-- What a failed Validate leaves is that of the key (R198). -/
theorem detStagesAgree_badKey (hk : s.k = s'.k) (e : ErrCode) :
    DetStagesAgree (s.badKey.raise e) (s'.badKey.raise e) :=
  detStagesAgree_of hk rfl rfl rfl rfl rfl rfl rfl

/-- Two ends of the command, the first from `s`, that agree in all its results (R200 (g)). -/
structure ResultsAgree (i : Instr) (s t t' : State) : Prop where
  outputs : OutputsAgree t t'
  detStages : ¬ s.EmptyText → DetStagesAgree t t'
  ki : i = .dec → t.status.err = .none → t.ki = t'.ki

/-- Both runs take the same branch, since the text and the key choose it, and in each branch the
results are made of these. -/
theorem resultsAgree (hi : i ∈ [Instr.enc, .dec]) (hk : s.k = s'.k)
    (htext : s.inputText = s'.inputText) (hlen : s.tlen.toNat ≤ s.tmax) (h : exec i s = .next t)
    (h' : exec i s' = .next t') : ResultsAgree i s t t' := by
  have next_eq : ∀ {u}, exec i s' = .next u → t' = u := fun hu =>
    Host.Outcome.next.inj (h'.symm.trans hu)
  have hraw : s.rawText = s'.rawText := htext
  have hfit := length_prepareText_rawText_le hlen
  have et := emptyText_congr htext
  have er := keyInRange_congr hk
  have ec := keyCoprime_congr hk
  rcases exec_cipher_cases hi h with
    ⟨ht, rfl⟩ | ⟨ht, hr, rfl⟩ | ⟨ht, hr, hc, rfl⟩ | ⟨ht, hr, hc, ⟨rfl, rfl⟩ | ⟨rfl, rfl⟩⟩
  · obtain rfl := next_eq (exec_cipher_of_failed hi (startStage_of_emptyText (et.1 ht)))
    exact ⟨outputsAgree_of_raise _ rfl rfl rfl rfl rfl rfl, fun ht' => absurd ht ht', nofun⟩
  · obtain rfl := next_eq (exec_cipher_of_failed hi
      (startStage_of_not_inRange (mt et.2 ht) (mt er.2 hr)))
    exact ⟨outputsAgree_of_raise _ rfl rfl rfl rfl rfl rfl,
      fun _ => detStagesAgree_badKey hk _, nofun⟩
  · obtain rfl := next_eq (exec_cipher_of_failed hi
      (startStage_of_not_coprime (mt et.2 ht) (er.1 hr) (mt ec.2 hc)))
    exact ⟨outputsAgree_of_raise _ rfl rfl rfl rfl rfl rfl,
      fun _ => detStagesAgree_badKey hk _, nofun⟩
  · obtain rfl := next_eq (exec_enc_of_valid (mt et.2 ht) (er.1 hr) (ec.1 hc))
    exact ⟨outputsAgree_enciphered hk hraw hfit,
      fun _ => detStagesAgree_of hk rfl rfl rfl rfl rfl rfl rfl, nofun⟩
  · obtain rfl := next_eq (exec_dec_of_valid (mt et.2 ht) (er.1 hr) (ec.1 hc))
    exact ⟨outputsAgree_deciphered hk hraw hfit,
      fun _ => detStagesAgree_of hk rfl rfl rfl rfl rfl rfl rfl,
      fun _ _ => deciphered_ki_congr hk⟩

/-- Settles O55: this is `resultsAgree`, result by result. -/
theorem cipherReadsTextAndKeyOnly : Obligations.CipherReadsTextAndKeyOnly := by
  intro i s s' t t' hi hk htext hlen _ h h'
  obtain ⟨⟨herr, hfsm, hnlen, holen, hblk, hnt, htout, hrsp⟩, hdet, hki⟩ :=
    resultsAgree hi hk htext hlen h h'
  exact ⟨herr, hfsm, hnlen, holen, hblk, hnt, htout, hrsp, hdet, hki⟩

end Sys2Proof.Machine
end
